-- ==== Sys2Proof/Word.lean ====
section
/-! DEFINITION. The widths of G2G-CORE's words and elements, and the small enumerations its commands and state use. -/

namespace Sys2Proof

/-- A 32-bit command word or register (00_scope.md R6, 30_encoding.md R90). -/
abbrev Word := BitVec 32

/-- The 64-bit pattern of an IEEE 754 binary64 number, `s || e[10:0] || m[51:0]` (00_scope.md R11). -/
abbrev F64 := BitVec 64

/-- An element of `QB`: a signed 16-bit level in two's complement (10_state.md R34). -/
abbrev Level := BitVec 16

/-- An element of `SRC`: R in bits 7:0, G in 15:8, B in 23:16, the ignored fourth channel in 31:24 (10_state.md R38). -/
abbrev SrcPixel := BitVec 32

/-- An element of `CUR` or `REF`: Y in bits 7:0, U in 15:8, V in 23:16 (10_state.md R40). -/
abbrev Pixel := BitVec 24

/-- A byte of the default bus map (20_memory.md R71). -/
abbrev Byte := BitVec 8

/-- The number of a block-buffer bank, 0 or 1 (00_scope.md R6 `NBANK`, 10_state.md R37). -/
abbrev BankId := Fin 2

/-- The number of a plane: 0 to 3 luma Y1 to Y4, 4 U, 5 V (00_scope.md R13). -/
abbrev PlaneId := Fin 6

/-- The number of an element in a plane (00_scope.md R14). -/
abbrev ElemId := Fin 64

/-- A 6-bit set of planes: bit `p` stands for plane `p` (00_scope.md R13, 30_encoding.md R93). -/
abbrev PlaneMask := BitVec 6

/-- The `mode` operand of `RECON`: `INTRA` is 0, `INTER` is 1 (30_encoding.md R93). -/
inductive ReconMode where
  | intra
  | inter
  deriving DecidableEq, Repr

/-- The order tag of a frequency plane (10_state.md R36). -/
inductive Order where
  | nat
  | zz
  deriving DecidableEq, Repr

end Sys2Proof
end

