-- ==== Sys2Proof/Syntax.lean ====
section
/-! DEFINITION. The commands of G2G-CORE: one constructor for each row of spec/opcode_table.json. -/

namespace Sys2Proof

/-- The command set (30_encoding.md R94). Every operand has the width of its field in R92, so that the ranges of
R93 hold by type; `EXTRACT` has one constructor for each of its three legal sources. -/
inductive Instr where
  /-- `NOP` (40_config_commands.md R121). -/
  | nop
  /-- `SETW imm16`: the requested frame width (R122). -/
  | setw (imm16 : BitVec 16)
  /-- `SETH imm16`: the requested frame height (R123). -/
  | seth (imm16 : BitVec 16)
  /-- `SETQ q`: the quantizer step (R124). -/
  | setq (q : BitVec 5)
  /-- `SETMB x, y`: the macroblock position (R125). -/
  | setmb (x y : BitVec 12)
  /-- `CREATE`: starts a stream (R127). -/
  | create
  /-- `CSC`: colour conversion of a frame (41_csc.md R141). -/
  | csc
  /-- `EXTRACT bank, CUR` (42_block_extract_recon.md R152). -/
  | extractCur (bank : BankId)
  /-- `EXTRACT bank, REF` (R152). -/
  | extractRef (bank : BankId)
  /-- `EXTRACT bank, DIFF` (R152). -/
  | extractDiff (bank : BankId)
  /-- `FDCT bank, pmask` (43_transform.md R174). -/
  | fdct (bank : BankId) (pmask : PlaneMask)
  /-- `ZZ bank, pmask` (R179). -/
  | zz (bank : BankId) (pmask : PlaneMask)
  /-- `QNT bank, pmask, dc` (44_quant.md R192). -/
  | qnt (bank : BankId) (pmask : PlaneMask) (dc : Bool)
  /-- `RLCOST bank, cmask, dc` (45_runlevel.md R217). -/
  | rlcost (bank : BankId) (cmask : PlaneMask) (dc : Bool)
  /-- `RLEMIT bank, cmask, dc` (R218). -/
  | rlemit (bank : BankId) (cmask : PlaneMask) (dc : Bool)
  /-- `DQNT bank, pmask, dc` (44_quant.md R197). -/
  | dqnt (bank : BankId) (pmask : PlaneMask) (dc : Bool)
  /-- `IZZ bank, pmask` (43_transform.md R180). -/
  | izz (bank : BankId) (pmask : PlaneMask)
  /-- `IDCT bank, pmask` (R176). -/
  | idct (bank : BankId) (pmask : PlaneMask)
  /-- `RECON bank, mode` (42_block_extract_recon.md R156). -/
  | recon (bank : BankId) (mode : ReconMode)
  /-- `COPYMB` (R159). -/
  | copymb
  /-- `FRAMEEND` (40_config_commands.md R128). -/
  | frameend
  /-- `SRST` (R129). -/
  | srst
  deriving DecidableEq, Repr

end Sys2Proof
end

