-- ==== Sys2Proof/WellFormed.lean ====
section
/-! DEFINITION. Well-formedness: which command words are legal, written from the format table and the prose of
30_encoding.md (R92, R93, R95), apart from the decoder, which is written from the match and mask columns of R94;
and which bus accesses the default bus map accepts. -/

namespace Sys2Proof

/-- Bits `lo` to `lo + n - 1` of a word are zero. -/
def zeroBits (w : Word) (lo n : Nat) : Bool := w.extractLsb' lo n == 0#n

/-- The opcode field `w[31:24]` (30_encoding.md R90). -/
def opcodeOf (w : Word) : Nat := (w.extractLsb' 24 8).toNat

/-- The must-be-zero bits of format Z: everything below the opcode (30_encoding.md R92). -/
def formatZ (w : Word) : Bool := zeroBits w 0 24

/-- Format I16: bits 23:16 are zero. -/
def formatI16 (w : Word) : Bool := zeroBits w 16 8

/-- Format I5: bits 23:5 are zero. -/
def formatI5 (w : Word) : Bool := zeroBits w 5 19

/-- Format E: bits 22:2 are zero, and `src` is not 3 (R93, R95). -/
def formatE (w : Word) : Bool := zeroBits w 2 21 && !(w.extractLsb' 0 2 == 3#2)

/-- Format B: bit 22 and bits 15:0 are zero. -/
def formatB (w : Word) : Bool := zeroBits w 22 1 && zeroBits w 0 16

/-- Format BD: bit 22 and bits 15:1 are zero. -/
def formatBD (w : Word) : Bool := zeroBits w 22 1 && zeroBits w 1 15

/-- Format R: bits 22:1 are zero. -/
def formatR (w : Word) : Bool := zeroBits w 1 22

/-- Whether a word is a legal command: an assigned opcode with every must-be-zero bit of its format zero (30_encoding.md R95). -/
def legalWord (w : Word) : Bool :=
  match opcodeOf w with
  | 0x00 => formatZ w    -- NOP
  | 0x01 => formatI16 w  -- SETW
  | 0x02 => formatI16 w  -- SETH
  | 0x03 => formatI5 w   -- SETQ
  | 0x04 => true         -- SETMB, format XY: every bit is an operand
  | 0x05 => formatZ w    -- CREATE
  | 0x10 => formatZ w    -- CSC
  | 0x20 => formatE w    -- EXTRACT
  | 0x21 => formatB w    -- FDCT
  | 0x22 => formatB w    -- ZZ
  | 0x23 => formatBD w   -- QNT
  | 0x24 => formatBD w   -- RLCOST
  | 0x25 => formatBD w   -- RLEMIT
  | 0x28 => formatBD w   -- DQNT
  | 0x29 => formatB w    -- IZZ
  | 0x2A => formatB w    -- IDCT
  | 0x2B => formatR w    -- RECON
  | 0x2C => formatZ w    -- COPYMB
  | 0x30 => formatZ w    -- FRAMEEND
  | 0x3F => formatZ w    -- SRST
  | _ => false

/-- The opcode R94 assigns to a command. -/
def Instr.opcode : Instr → Nat
  | .nop => 0x00
  | .setw _ => 0x01
  | .seth _ => 0x02
  | .setq _ => 0x03
  | .setmb _ _ => 0x04
  | .create => 0x05
  | .csc => 0x10
  | .extractCur _ => 0x20
  | .extractRef _ => 0x20
  | .extractDiff _ => 0x20
  | .fdct _ _ => 0x21
  | .zz _ _ => 0x22
  | .qnt _ _ _ => 0x23
  | .rlcost _ _ _ => 0x24
  | .rlemit _ _ _ => 0x25
  | .dqnt _ _ _ => 0x28
  | .izz _ _ => 0x29
  | .idct _ _ => 0x2A
  | .recon _ _ => 0x2B
  | .copymb => 0x2C
  | .frameend => 0x30
  | .srst => 0x3F

/-- A bus access of `size` bytes at byte address `a` that the default map accepts: naturally aligned, 8 bytes wide
(20_memory.md R68, R71) and in one of the eight spaces of R60. -/
def busAccessWf (a : BitVec 44) (size : Nat) : Bool :=
  size == 8 && a.extractLsb' 0 3 == 0#3 && decide ((a.extractLsb' 40 4).toNat < 8)

end Sys2Proof
end

