-- ==== Sys2Proof/Decode.lean ====
section
/-! DEFINITION. The decoder, written from the opcode map of 30_encoding.md (R94, R101), and after it the encoder,
written from the format table (R92). -/

namespace Sys2Proof

/-- A row of the opcode map: a word `w` is the command exactly when `w & mask = pattern` (30_encoding.md R94);
`build` takes the operand fields out of the word (R92). -/
structure OpcodeRow where
  pattern : Word
  mask : Word
  build : Word → Instr

/-- The field `imm16 = w[15:0]` (30_encoding.md R92). -/
def fieldImm16 (w : Word) : BitVec 16 := w.extractLsb' 0 16

/-- The field `q = w[4:0]`. -/
def fieldQ (w : Word) : BitVec 5 := w.extractLsb' 0 5

/-- The field `x = w[23:12]`. -/
def fieldX (w : Word) : BitVec 12 := w.extractLsb' 12 12

/-- The field `y = w[11:0]`. -/
def fieldY (w : Word) : BitVec 12 := w.extractLsb' 0 12

/-- The field `bank = w[23]`. -/
def fieldBank (w : Word) : BankId := if w.getLsbD 23 then 1 else 0

/-- The field `pmask = cmask = w[21:16]`. -/
def fieldMask (w : Word) : PlaneMask := w.extractLsb' 16 6

/-- The field `dc = w[0]`. -/
def fieldDc (w : Word) : Bool := w.getLsbD 0

/-- The field `mode = w[0]`. -/
def fieldMode (w : Word) : ReconMode := if w.getLsbD 0 then .inter else .intra

/-- The complete opcode map, in the order of 30_encoding.md R94. -/
def opcodeMap : List OpcodeRow :=
  [ ⟨0x00000000, 0xFFFFFFFF, fun _ => .nop⟩,
    ⟨0x01000000, 0xFFFF0000, fun w => .setw (fieldImm16 w)⟩,
    ⟨0x02000000, 0xFFFF0000, fun w => .seth (fieldImm16 w)⟩,
    ⟨0x03000000, 0xFFFFFFE0, fun w => .setq (fieldQ w)⟩,
    ⟨0x04000000, 0xFF000000, fun w => .setmb (fieldX w) (fieldY w)⟩,
    ⟨0x05000000, 0xFFFFFFFF, fun _ => .create⟩,
    ⟨0x10000000, 0xFFFFFFFF, fun _ => .csc⟩,
    ⟨0x20000000, 0xFF7FFFFF, fun w => .extractCur (fieldBank w)⟩,
    ⟨0x20000001, 0xFF7FFFFF, fun w => .extractRef (fieldBank w)⟩,
    ⟨0x20000002, 0xFF7FFFFF, fun w => .extractDiff (fieldBank w)⟩,
    ⟨0x21000000, 0xFF40FFFF, fun w => .fdct (fieldBank w) (fieldMask w)⟩,
    ⟨0x22000000, 0xFF40FFFF, fun w => .zz (fieldBank w) (fieldMask w)⟩,
    ⟨0x23000000, 0xFF40FFFE, fun w => .qnt (fieldBank w) (fieldMask w) (fieldDc w)⟩,
    ⟨0x24000000, 0xFF40FFFE, fun w => .rlcost (fieldBank w) (fieldMask w) (fieldDc w)⟩,
    ⟨0x25000000, 0xFF40FFFE, fun w => .rlemit (fieldBank w) (fieldMask w) (fieldDc w)⟩,
    ⟨0x28000000, 0xFF40FFFE, fun w => .dqnt (fieldBank w) (fieldMask w) (fieldDc w)⟩,
    ⟨0x29000000, 0xFF40FFFF, fun w => .izz (fieldBank w) (fieldMask w)⟩,
    ⟨0x2A000000, 0xFF40FFFF, fun w => .idct (fieldBank w) (fieldMask w)⟩,
    ⟨0x2B000000, 0xFF7FFFFE, fun w => .recon (fieldBank w) (fieldMode w)⟩,
    ⟨0x2C000000, 0xFFFFFFFF, fun _ => .copymb⟩,
    ⟨0x30000000, 0xFFFFFFFF, fun _ => .frameend⟩,
    ⟨0x3F000000, 0xFFFFFFFF, fun _ => .srst⟩ ]

/-- Whether a word matches a row (30_encoding.md R94). -/
def OpcodeRow.matchesWord (r : OpcodeRow) (w : Word) : Bool := w &&& r.mask == r.pattern

/-- Decode (30_encoding.md R101): find the row the word matches, then extract its fields; `none` is an illegal word. -/
def decode (w : Word) : Option Instr :=
  (opcodeMap.find? fun r => r.matchesWord w).map fun r => r.build w

/-- What the decoder reads from an instruction of `nbits` bits given as a number, bit 0 the least significant
(a command is one 32-bit word, 30_encoding.md R97). -/
def decodeTableWord (nbits w : Nat) : Option Instr := decode (BitVec.ofNat 32 (w % 2 ^ nbits))

/-- The bank bit of a command word (30_encoding.md R92). -/
def bankBit (b : BankId) : BitVec 1 := BitVec.ofBool (b == 1)

/-- The mode bit of `RECON` (R93). -/
def modeBit : ReconMode → BitVec 1
  | .intra => 0#1
  | .inter => 1#1

/-- Format Z: the opcode, then zeros (30_encoding.md R92). -/
def wordZ (op : BitVec 8) : Word := op ++ 0#24

/-- Format I16. -/
def wordI16 (op : BitVec 8) (imm16 : BitVec 16) : Word := op ++ 0#8 ++ imm16

/-- Format I5. -/
def wordI5 (op : BitVec 8) (q : BitVec 5) : Word := op ++ 0#19 ++ q

/-- Format XY. -/
def wordXY (op : BitVec 8) (x y : BitVec 12) : Word := op ++ x ++ y

/-- Format E. -/
def wordE (op : BitVec 8) (b : BankId) (src : BitVec 2) : Word := op ++ bankBit b ++ 0#21 ++ src

/-- Format B. -/
def wordB (op : BitVec 8) (b : BankId) (m : PlaneMask) : Word := op ++ bankBit b ++ 0#1 ++ m ++ 0#16

/-- Format BD. -/
def wordBD (op : BitVec 8) (b : BankId) (m : PlaneMask) (dc : Bool) : Word :=
  op ++ bankBit b ++ 0#1 ++ m ++ 0#15 ++ BitVec.ofBool dc

/-- Format R. -/
def wordR (op : BitVec 8) (b : BankId) (mode : ReconMode) : Word := op ++ bankBit b ++ 0#22 ++ modeBit mode

/-- Encode: the command word of a command, its fields placed by its format (30_encoding.md R92, R94). -/
def encode : Instr → Word
  | .nop => wordZ 0x00
  | .setw imm16 => wordI16 0x01 imm16
  | .seth imm16 => wordI16 0x02 imm16
  | .setq q => wordI5 0x03 q
  | .setmb x y => wordXY 0x04 x y
  | .create => wordZ 0x05
  | .csc => wordZ 0x10
  | .extractCur b => wordE 0x20 b 0
  | .extractRef b => wordE 0x20 b 1
  | .extractDiff b => wordE 0x20 b 2
  | .fdct b m => wordB 0x21 b m
  | .zz b m => wordB 0x22 b m
  | .qnt b m dc => wordBD 0x23 b m dc
  | .rlcost b m dc => wordBD 0x24 b m dc
  | .rlemit b m dc => wordBD 0x25 b m dc
  | .dqnt b m dc => wordBD 0x28 b m dc
  | .izz b m => wordB 0x29 b m
  | .idct b m => wordB 0x2A b m
  | .recon b mode => wordR 0x2B b mode
  | .copymb => wordZ 0x2C
  | .frameend => wordZ 0x30
  | .srst => wordZ 0x3F

end Sys2Proof
end

