-- ==== Sys2Proof/Config.lean ====
section
/-! DEFINITION. What is fixed for the machine and is not its state (10_state.md R43): the parameters of 00_scope.md R6,
the record of the numeric literals of R7, the open code tables of R8 as uninterpreted constants, and the free values. -/

namespace Sys2Proof.Config

/-- `ID`, register 0 (10_state.md R22). -/
def idValue : Word := 0x47324701

/-- `MB`, the luma width and height of a macroblock (00_scope.md R6). -/
abbrev mbSize : Nat := 16

/-- One row of `CSC_COEF`: what a component takes of R, G and B (41_csc.md R142). -/
structure CscRow where
  r : Int
  g : Int
  b : Int
  deriving DecidableEq, Repr

/-- The record of numeric literals that a model takes as configuration: a named parameter for each row of 00_scope.md R7
(10_state.md R43). `Machine.literals` is the record at the normative values (log entry 12). -/
structure Literals where
  /-- `K_FWD`: what the forward transform multiplies each result by. -/
  kFwd : F64
  /-- `K_INV`: what the inverse transform multiplies each result by, `none` where it multiplies by nothing. -/
  kInv : Option F64
  /-- `BASIS`: row `u` the frequency, column `x` the sample position (43_transform.md R171). -/
  basis : Vector (Vector F64 8) 8
  /-- `ZIGZAG`: the natural-order index at each position of the scan (43_transform.md R178). -/
  zigzag : Vector ElemId 64
  /-- `DC_DIV`. -/
  dcDiv : Nat
  /-- `DC_ZERO_SUB`: the quantized DC substituted for 0. -/
  dcZeroSub : Int
  /-- `DC_RSV_IN`. -/
  dcRsvIn : Int
  /-- `DC_RSV_OUT`. -/
  dcRsvOut : Int
  /-- `DC_MAX`: the largest ordinary quantized DC. -/
  dcMax : Int
  /-- `AC_LEVEL_MAX`: the forward AC clip. -/
  acLevelMax : Nat
  /-- `QUANT_MIN`: the least quantizer step that is legal. -/
  quantMin : Nat
  /-- `QUANT_MAX`: the greatest; the 5-bit field cannot encode more (40_config_commands.md R124). -/
  quantMax : Nat
  /-- `REC_MIN`. -/
  recMin : Int
  /-- `REC_MAX`. -/
  recMax : Int
  /-- `PIX_MIN`. -/
  pixMin : Int
  /-- `PIX_MAX`. -/
  pixMax : Int
  /-- `CHROMA_OFFSET`. -/
  chromaOffset : Int
  /-- `CSC_COEF`, the row of `Y`. -/
  cscY : CscRow
  /-- `CSC_COEF`, the row of `U`. -/
  cscU : CscRow
  /-- `CSC_COEF`, the row of `V`. -/
  cscV : CscRow
  /-- `CSC_SHIFT`. -/
  cscShift : Nat
  /-- `DC_BITS`. -/
  dcBits : Nat
  /-- `ESC_LAST_BITS`. -/
  escLastBits : Nat
  /-- `ESC_RUN_BITS`. -/
  escRunBits : Nat
  /-- `ESC_LEVEL_BITS`. -/
  escLevelBits : Nat
  /-- `ESC_LEVEL_MIN`. -/
  escLevelMin : Int
  /-- `ESC_LEVEL_MAX`. -/
  escLevelMax : Int
  /-- `SIGN_POS`: the sign bit of a positive level. -/
  signPos : Nat
  /-- `SIGN_NEG`. -/
  signNeg : Nat
  deriving DecidableEq, Repr

/-- A code of the static tables: the value `code` in `len` bits (00_scope.md R8). -/
structure VlcEntry where
  code : Nat
  len : Nat
  deriving DecidableEq, Repr, Inhabited

/-- The code tables: `table last run alevel` is `VLC_TABLE`, `none` where the table has no entry, and `escape` is
`VLC_ESCAPE` (00_scope.md R8, 45_runlevel.md R211). -/
structure Vlc where
  table : Bool → Nat → Nat → Option VlcEntry
  escape : VlcEntry
  deriving Inhabited

/-- The constraint a code must meet: `1 <= len <= maxLen` and `code < 2^len` (45_runlevel.md R211). -/
abbrev VlcEntry.wf (maxLen : Nat) (e : VlcEntry) : Prop := 1 ≤ e.len ∧ e.len ≤ maxLen ∧ e.code < 2 ^ e.len

/-- The entry itself where it meets the constraint, else the one-bit code 0. -/
def VlcEntry.legalize (maxLen : Nat) (e : VlcEntry) : VlcEntry := if e.wf maxLen then e else ⟨0, 1⟩

/-- Tables that meet the constraints of 45_runlevel.md R211: table codes of 1 to 31 bits, an escape of 1 to 32 bits. -/
def Vlc.legalize (t : Vlc) : Vlc :=
  { table := fun last run alevel => (t.table last run alevel).map (VlcEntry.legalize 31)
    escape := t.escape.legalize 32 }

/-- The open code tables, before the constraints of R211: uninterpreted (log entry 9). -/
opaque rawVlc : Vlc

/-- The code tables of the block: any tables that meet the constraints of 45_runlevel.md R211, and nothing else is
known of them (log entry 9). -/
def vlc : Vlc := rawVlc.legalize

/-- DESIGN CHOICE (log entry 3), safe: the unspecified content of element `i` of a frame memory whose unspecified
content carries the number `fill` (10_state.md R44, 93_implementation_defined.md U1, U4, U5). A `CUR` or `REF` element is its low 24 bits. -/
opaque anyPixel (fill i : Nat) : BitVec 32

/-- DESIGN CHOICE (log entry 17), safe: what the `n`-th such conversion reads at column `x`, row `y` where `SRC` has no
element there, which the spec does not say (10_state.md R25, R38, 20_memory.md R64). -/
opaque anyOutside (n x y : Nat) : BitVec 32

/-- DESIGN CHOICE (log entry 6), safe: the unspecified value a host read returns (20_memory.md R62, U2, U3, U20). -/
opaque anyRead (n : Nat) : BitVec 64

/-- DESIGN CHOICE (log entry 6), safe: byte `k` of the unspecified bytes a refused bus read returns (20_memory.md R68, U20). -/
opaque anyByte (n k : Nat) : Byte

end Sys2Proof.Config
end

