-- ==== Sys2Proof/Machine/Float.lean ====
section
/-! DEFINITION. Binary64 arithmetic on 64-bit patterns (00_scope.md R11, 43_transform.md R172, R173): the exact value,
addition and multiplication each rounded once to nearest with ties to even, gradual underflow, no fused operation. -/

namespace Sys2Proof.Machine

/-- The exponent field `e[10:0]` (00_scope.md R11). -/
def f64Exp (x : F64) : Nat := x.toNat / 2 ^ 52 % 2 ^ 11

/-- The fraction field `m[51:0]` (R11). -/
def f64Frac (x : F64) : Nat := x.toNat % 2 ^ 52

/-- The sign bit `s` (R11). -/
def f64Sign (x : F64) : Bool := x.msb

/-- `finite(x)`: the exponent field is not all ones (R11). -/
def f64Finite (x : F64) : Bool := f64Exp x != 2047

/-- Whether a pattern is a NaN. -/
def f64IsNaN (x : F64) : Bool := f64Exp x == 2047 && f64Frac x != 0

/-- Whether a pattern is an infinity. -/
def f64IsInf (x : F64) : Bool := f64Exp x == 2047 && f64Frac x == 0

/-- The weight of the least bit of a subnormal is `1 / f64Unit`: every finite binary64 number is an integer multiple of it. -/
@[irreducible] def f64Unit : Nat := 2 ^ 1074

/-- `abs(val(x)) * 2^1074` for a finite `x`: an integer (R11). -/
def f64Mag (x : F64) : Nat :=
  if f64Exp x = 0 then f64Frac x else (2 ^ 52 + f64Frac x) * 2 ^ (f64Exp x - 1)

/-- `val(x) * 2^1074` for a finite `x`, the exact value as an integer count of the least unit (R11). -/
def f64Val (x : F64) : Int := if f64Sign x then -(f64Mag x : Int) else (f64Mag x : Int)

/-- The pattern of infinity without its sign. -/
def f64InfMag : Nat := 2047 * 2 ^ 52

/-- `n / 2^s` rounded to an integer, to nearest with ties to even. -/
def roundShift (n s : Nat) : Nat :=
  let m := n / 2 ^ s
  let rest := n % 2 ^ s
  if 2 ^ s < 2 * rest ∨ (2 * rest = 2 ^ s ∧ m % 2 = 1) then m + 1 else m

/-- The position of the top bit of `n < 2^(2^k)` by halving, 0 for 0: `Nat.log2 n`, in a form Lean's kernel evaluates
in `k` steps. -/
def topBitBelow : Nat → Nat → Nat
  | 0, _ => 0
  | k + 1, n => if n / 2 ^ 2 ^ k = 0 then topBitBelow k n else 2 ^ k + topBitBelow k (n / 2 ^ 2 ^ k)

/-- The position of the top bit of `n < 2^8192`; every exact sum and product of two binary64 magnitudes, counted in
least units, is below `2^4200`. -/
def topBit (n : Nat) : Nat := topBitBelow 13 n

/-- The exponent step of the number `n * 2^-(1074 + k)`: how far the last bit kept stands above the least unit. It is
0 for subnormal and least normal magnitudes. -/
def roundStep (n k : Nat) : Nat := topBit n - k - 52

/-- The unsigned pattern of `n * 2^-(1074 + k)` rounded once to nearest even; infinity where it overflows (43_transform.md R172).
Pattern and exponent step add up because a significand carries its hidden bit into the exponent field. -/
def roundMag (n k : Nat) : Nat :=
  min (roundStep n k * 2 ^ 52 + roundShift n (roundStep n k + k)) f64InfMag

/-- A pattern from its sign and its other 63 bits. -/
def f64Pack (sign : Bool) (mag : Nat) : F64 := BitVec.ofNat 64 (if sign then 2 ^ 63 + mag else mag)

/-- The NaN the arithmetic answers. DESIGN CHOICE (log entry 10), safe: which NaN is never observable, since a
result that is not finite faults and is not stored (43_transform.md R173). -/
def f64NaN : F64 := 0x7FF8000000000000

/-- Binary64 addition `x (+) y` (00_scope.md R11, 43_transform.md R172). A zero sum is `+0.0` unless both operands are negative zeros. -/
def f64Add (x y : F64) : F64 :=
  if f64IsNaN x || f64IsNaN y then f64NaN
  else if f64IsInf x then (if f64IsInf y && f64Sign x != f64Sign y then f64NaN else x)
  else if f64IsInf y then y
  else
    let z := f64Val x + f64Val y
    if z = 0 then f64Pack (f64Sign x && f64Sign y) 0
    else f64Pack (decide (z < 0)) (roundMag z.natAbs 0)

/-- Binary64 multiplication `x (*) y` (00_scope.md R11, 43_transform.md R172). -/
def f64Mul (x y : F64) : F64 :=
  let sign := f64Sign x != f64Sign y
  if f64IsNaN x || f64IsNaN y then f64NaN
  else if f64IsInf x || f64IsInf y then
    (if f64Mag x = 0 || f64Mag y = 0 then f64NaN else f64Pack sign f64InfMag)
  else f64Pack sign (roundMag (f64Mag x * f64Mag y) 1074)

/-- `f64(n)`, exact for `abs(n) < 2^53` (00_scope.md R11); zero gives `+0.0`. -/
def f64OfInt (n : Int) : F64 := f64Pack (decide (n < 0)) (roundMag (n.natAbs * f64Unit) 0)

/-- `trunc(val(x) / d)`: the exact quotient rounded toward zero (00_scope.md R10, 44_quant.md R193). -/
def f64TruncDiv (x : F64) (d : Nat) : Int := (f64Val x).tdiv (d * f64Unit : Nat)

/-- `floor(abs(val(x)) / d)`: the exact quotient's integer part (44_quant.md R194). -/
def f64FloorAbsDiv (x : F64) (d : Nat) : Nat := f64Mag x / (d * f64Unit)

/-- `floor(val(x))` (00_scope.md R10). -/
def f64Floor (x : F64) : Int := (f64Val x).fdiv f64Unit

/-- `rnd(x)`: to nearest with halves up, on the exact value (42_block_extract_recon.md R157). -/
def f64Round (x : F64) : Int :=
  if 2 * (f64Val x - f64Floor x * f64Unit) < f64Unit then f64Floor x else f64Floor x + 1

/-- `val(x) < 0` for a finite `x` (negative zero is not below 0). -/
def f64Negative (x : F64) : Bool := decide (f64Val x < 0)

end Sys2Proof.Machine
end

