-- ==== Sys2Proof/Machine/State.lean ====
section
/-! DEFINITION. The state of G2G-CORE as plain data: everything 10_state.md R20 names, what the host has yet to
present, and the model's own counters; the state after reset (R44); the reasons the model could stop. -/

namespace Sys2Proof.Machine

/-- The reasons the machine itself stops. There is none: a fault of G2G-CORE is a state (`STATUS.ERR = 1`) that the
host can still read and reset (60_exceptions.md R275, R276), so no step answers one. Safe. -/
inductive Fault where
  deriving DecidableEq, Repr

/-- The reasons a step has no meaning in the model. -/
inductive Refusal where
  /-- Raised by an arm of `exec` whose instruction has no meaning yet; no arm raises it now. Safe: the model stops. -/
  | notModelled (mnemonic : String)
  deriving DecidableEq, Repr

/-- The faults of the block (60_exceptions.md R261). -/
inductive FaultCode where
  | illegal
  | config
  | noStream
  | quant
  | mbRange
  | unwritten
  | order
  | nonFinite
  | dcLevel
  | level
  | empty
  | cbp
  deriving DecidableEq, Repr

/-- Where a fault was found, the fields of `ERRINFO` (10_state.md R24, 60_exceptions.md R262). -/
structure ErrInfo where
  bank : BankId
  plane : PlaneId
  index : ElemId
  deriving DecidableEq, Repr

/-- The eight spaces (20_memory.md R60). -/
inductive Space where
  | reg
  | sb
  | fb
  | qb
  | src
  | cur
  | ref
  | bs
  deriving DecidableEq, Repr

/-- What the host does in one step (20_memory.md R70). -/
inductive HostStep where
  /-- The host presents a command word (30_encoding.md R91). -/
  | command (w : Word)
  /-- `MemRead(space, index)` (20_memory.md R62). -/
  | memRead (space : Space) (index : Nat)
  /-- `MemWrite(space, index, v)` (R62); `v` has the width of the widest element. -/
  | memWrite (space : Space) (index : Nat) (v : BitVec 64)
  /-- A read of `size` bytes at a byte address of the platform's bus (R67, R71). -/
  | busRead (a size : Nat)
  /-- A write of bytes, the first at the lowest address, on the platform's bus (R67, R71). -/
  | busWrite (a : Nat) (bytes : List Byte)
  /-- The hardware reset input `rst` is raised (70_reset_and_hazards.md R290). -/
  | rst
  deriving DecidableEq, Repr

/-- A plane of a block buffer: 64 elements, each unwritten (`none`, the spec's own status) or written with a value
(10_state.md R34, R35). -/
abbrev Plane (n : Nat) := Vector (Option (BitVec n)) 64

/-- One bank of block buffers with its order tags and its coded-block register (10_state.md R30, R34 to R37). -/
structure Bank where
  sb : Vector (Plane 64) 6
  fb : Vector (Plane 64) 6
  qb : Vector (Plane 16) 6
  fbord : Vector Order 6
  cbp : PlaneMask
  deriving DecidableEq, Repr

/-- A frame memory (10_state.md R38, R39): `cells` lists the elements whose value is known, indexes strictly
rising; every other element holds the unspecified value numbered by `fill` (log entry 3). -/
structure FrameMem (n : Nat) where
  fill : Nat
  cells : List (Nat × BitVec n)
  deriving DecidableEq, Repr

/-- The machine. The first fields are the spec's (10_state.md R20 to R41); the last five are the model's own. -/
structure State where
  /-- `STATUS.STREAM` (R23). -/
  stream : Bool
  /-- `STATUS.ERR` (R23). -/
  err : Bool
  /-- `STATUS.SAT` (R23). -/
  sat : Bool
  /-- `STATUS.ERRCODE` (R23). -/
  errcode : BitVec 8
  /-- `ERRCMD` (R24). -/
  errcmd : Word
  /-- `ERRINFO` (R24). -/
  errinfo : ErrInfo
  /-- `WREQ` (R25). -/
  wreq : BitVec 16
  /-- `HREQ` (R25). -/
  hreq : BitVec 16
  /-- `W` (R25). -/
  w : BitVec 16
  /-- `H` (R25). -/
  h : BitVec 16
  /-- `MBPOS.MBX` (R27). -/
  mbx : BitVec 12
  /-- `MBPOS.MBY` (R27). -/
  mby : BitVec 12
  /-- `QUANT` (R28). -/
  quant : BitVec 5
  /-- `FRAMEIDX` (R29). -/
  frameidx : Word
  /-- `CMDCNT` (R26). -/
  cmdcnt : Word
  /-- `BITCNT` (R31). -/
  bitcnt : Word
  /-- `BSLEN` (R31). -/
  bslen : Word
  /-- The block buffers, order tags and `CBP` registers of bank 0 and bank 1 (R34 to R37, R30). -/
  banks : Vector Bank 2
  /-- `SRC` (R38). -/
  src : FrameMem 32
  /-- `CUR` (R39). -/
  cur : FrameMem 24
  /-- `REF` (R39). -/
  ref : FrameMem 24
  /-- `BS`, first bit first (R41). -/
  bs : List Bool
  /-- The model's own: what the host has yet to present, oldest first (log entry 1). -/
  pending : List HostStep
  /-- The model's own: how many command words have been presented (10_state.md R26, log entry 1). -/
  pc : Nat
  /-- The model's own: the number of the next fresh free value (log entries 3, 6 and 17). -/
  nextFree : Nat
  /-- The model's own: what the host's last element read returned (log entry 7). -/
  hostData : BitVec 64
  /-- The model's own: what the host's last bus read returned, lowest address first (log entry 7). -/
  busData : List Byte
  deriving DecidableEq, Repr

/-- A bank after reset: every element unwritten, every tag `NAT`, no coded flag (10_state.md R44). -/
def Bank.reset : Bank where
  sb := Vector.replicate 6 (Vector.replicate 64 none)
  fb := Vector.replicate 6 (Vector.replicate 64 none)
  qb := Vector.replicate 6 (Vector.replicate 64 none)
  fbord := Vector.replicate 6 .nat
  cbp := 0

/-- The machine right after hardware reset (10_state.md R44, 70_reset_and_hazards.md R290). The frame memories hold
unspecified values; the model's own fields are DESIGN CHOICE (log entries 1, 3, 6, 7, 17). -/
def State.reset : State where
  stream := false
  err := false
  sat := false
  errcode := 0
  errcmd := 0
  errinfo := ⟨0, 0, 0⟩
  wreq := 0
  hreq := 0
  w := 0
  h := 0
  mbx := 0
  mby := 0
  quant := 0
  frameidx := 0
  cmdcnt := 0
  bitcnt := 0
  bslen := 0
  banks := Vector.replicate 2 Bank.reset
  src := ⟨0, []⟩
  cur := ⟨1, []⟩
  ref := ⟨2, []⟩
  bs := []
  pending := []
  pc := 0
  nextFree := 3
  hostData := 0
  busData := []

end Sys2Proof.Machine
end

