-- ==== Sys2Proof/Machine/Operands.lean ====
section
/-! DEFINITION. The operand forms of the commands: plane masks, element and pixel indexes, the components of a pixel,
the values and the tags a bank holds (00_scope.md R12 to R14, 20_memory.md R60, R64, R65). -/

namespace Sys2Proof.Machine

/-- `clip(v, lo, hi)` (00_scope.md R10). -/
def clip (v lo hi : Int) : Int := if v < lo then lo else if hi < v then hi else v

/-- The planes of a mask, ascending (30_encoding.md R93). -/
def planesOf (m : PlaneMask) : List PlaneId := (List.finRange 6).filter fun p => m.getLsbD p

/-- All six planes, ascending. -/
def allPlanes : List PlaneId := List.finRange 6

/-- The mask whose bit `p` is `f p` (00_scope.md R13). -/
def maskOf (f : PlaneId → Bool) : PlaneMask :=
  BitVec.ofBool (f 5) ++ BitVec.ofBool (f 4) ++ BitVec.ofBool (f 3) ++ BitVec.ofBool (f 2) ++ BitVec.ofBool (f 1)
    ++ BitVec.ofBool (f 0)

/-- `v` with the entries of the planes in the mask replaced by `f`; the others keep their value. -/
def overPlanes {α : Type} (m : PlaneMask) (v : Vector α 6) (f : PlaneId → α) : Vector α 6 :=
  Vector.ofFn fun p => if m.getLsbD p then f p else v[p]

/-- The element at row `r`, column `c` of a plane: `8*r + c` (00_scope.md R14). -/
def elemAt (r c : Fin 8) : ElemId := ⟨8 * r.val + c.val, by omega⟩

/-- The row of an element. -/
def rowOf (i : ElemId) : Fin 8 := ⟨i.val / 8, by omega⟩

/-- The column of an element. -/
def colOf (i : ElemId) : Fin 8 := ⟨i.val % 8, by omega⟩

/-- A bank (10_state.md R37). -/
def State.bank (s : State) (b : BankId) : Bank := s.banks[b]

/-- The state with one bank replaced; the other bank keeps its content (R37). -/
def State.setBank (s : State) (b : BankId) (k : Bank) : State := { s with banks := s.banks.set b k }

/-- `SB[b][p][i]`: its value, `none` while it is unwritten (10_state.md R34, R35). -/
def State.sbAt (s : State) (b : BankId) (p : PlaneId) (i : ElemId) : Option F64 := (s.bank b).sb[p][i]

/-- `FB[b][p][i]`. -/
def State.fbAt (s : State) (b : BankId) (p : PlaneId) (i : ElemId) : Option F64 := (s.bank b).fb[p][i]

/-- `QB[b][p][i]`. -/
def State.qbAt (s : State) (b : BankId) (p : PlaneId) (i : ElemId) : Option Level := (s.bank b).qb[p][i]

/-- `FBORD[b][p]` (10_state.md R36). -/
def State.tagAt (s : State) (b : BankId) (p : PlaneId) : Order := (s.bank b).fbord[p]

/-- `CBP<b>` (10_state.md R30). -/
def State.cbpAt (s : State) (b : BankId) : PlaneMask := (s.bank b).cbp

/-- The values of a plane. The default stands for no value of the spec: every command reads a plane only after
the check that all its elements are written (10_state.md R35, log entry 16). -/
def planeVals {n : Nat} (pl : Plane n) : Vector (BitVec n) 64 := Vector.ofFn fun i => pl[i].getD 0

/-- A plane with all its elements written. -/
def fullPlane {n : Nat} (f : ElemId → BitVec n) : Plane n := Vector.ofFn fun i => some (f i)

/-- A level as an integer (10_state.md R34). -/
def levelInt (v : Level) : Int := v.toInt

/-- The levels of a plane as integers. -/
def planeLevels (pl : Plane 16) : Vector Int 64 := Vector.ofFn fun i => levelInt (pl[i].getD 0)

/-- The `Y` component of a `CUR` or `REF` pixel (10_state.md R40). -/
def pixY (v : Pixel) : Nat := (v.extractLsb' 0 8).toNat

/-- The `U` component. -/
def pixU (v : Pixel) : Nat := (v.extractLsb' 8 8).toNat

/-- The `V` component. -/
def pixV (v : Pixel) : Nat := (v.extractLsb' 16 8).toNat

/-- A pixel `V || U || Y` from its components, each an 8-bit intensity (10_state.md R40). -/
def packPixel (y u v : Int) : Pixel := BitVec.ofInt 8 v ++ BitVec.ofInt 8 u ++ BitVec.ofInt 8 y

/-- The `R` component of a source pixel (10_state.md R38). -/
def srcR (v : SrcPixel) : Nat := (v.extractLsb' 0 8).toNat

/-- The `G` component. -/
def srcG (v : SrcPixel) : Nat := (v.extractLsb' 8 8).toNat

/-- The `B` component. -/
def srcB (v : SrcPixel) : Nat := (v.extractLsb' 16 8).toNat

/-- The index of the element at column `x`, row `y` of a memory whose row pitch is `pitch` (20_memory.md R60, R64). -/
def pixelIndex (pitch x y : Nat) : Nat := y * pitch + x

/-- The pixels of a frame of `w` columns and `h` rows, as (column, row), in raster order. -/
def framePixels (w h : Nat) : List (Nat × Nat) :=
  (List.range h).flatMap fun y => (List.range w).map fun x => (x, y)

/-- The 256 pixels of a macroblock, as (column, row) within it (20_memory.md R65). -/
def mbPixels : List (Nat × Nat) := framePixels Config.mbSize Config.mbSize

/-- The index in `CUR` and `REF` of pixel `(x, y)` of the macroblock at `MBPOS` (20_memory.md R65). -/
def State.mbIndex (s : State) (x y : Nat) : Nat :=
  pixelIndex s.w.toNat (Config.mbSize * s.mbx.toNat + x) (Config.mbSize * s.mby.toNat + y)

/-- The number of elements of `SRC` (20_memory.md R60). -/
def State.srcSize (s : State) : Nat := s.wreq.toNat * s.hreq.toNat

/-- The number of elements of `CUR` and of `REF` (R60). -/
def State.frameSize (s : State) : Nat := s.w.toNat * s.h.toNat

/-- The bank of an index of a block-buffer space: `(b*6 + p)*64 + i` (20_memory.md R60). -/
def blockBank (k : Nat) : BankId := Fin.ofNat 2 (k / 384)

/-- The plane of an index of a block-buffer space. -/
def blockPlane (k : Nat) : PlaneId := Fin.ofNat 6 (k / 64)

/-- The element of an index of a block-buffer space. -/
def blockElem (k : Nat) : ElemId := Fin.ofNat 64 k

/-- The number of elements of a block-buffer space (20_memory.md R60). -/
def blockSize : Nat := 768

end Sys2Proof.Machine
end

