-- ==== Sys2Proof/Machine/Flags.lean ====
section
/-! DEFINITION. The flags and the registers that are views: how `STATUS`, `ERRINFO`, `MBPOS`, `TAGS` and `VALID<b>` are made up,
and how `QNT` computes the coded flags (10_state.md R21 to R36, 44_quant.md R195). -/

namespace Sys2Proof.Machine

/-- The code a fault leaves in `STATUS.ERRCODE` (60_exceptions.md R261). -/
def faultNumber : FaultCode → BitVec 8
  | .illegal => 1
  | .config => 2
  | .noStream => 3
  | .quant => 4
  | .mbRange => 5
  | .unwritten => 6
  | .order => 7
  | .nonFinite => 8
  | .dcLevel => 9
  | .level => 10
  | .empty => 11
  | .cbp => 12

/-- `STATUS`: STREAM in bit 0, ERR in 1, SAT in 2, BUSY in 3 (always 0, R42), ERRCODE in 15:8 (10_state.md R21, R23). -/
def State.statusReg (s : State) : Word :=
  0#16 ++ s.errcode ++ 0#4 ++ 0#1 ++ BitVec.ofBool s.sat ++ BitVec.ofBool s.err ++ BitVec.ofBool s.stream

/-- `ERRINFO`: PLANE in bits 2:0, INDEX in 13:8, BANK in 16 (R21). -/
def State.errinfoReg (s : State) : Word :=
  0#15 ++ BitVec.ofNat 1 s.errinfo.bank.val ++ 0#2 ++ BitVec.ofNat 6 s.errinfo.index.val ++ 0#5
    ++ BitVec.ofNat 3 s.errinfo.plane.val

/-- `MBPOS`: MBY in bits 11:0, MBX in 23:12 (R21). -/
def State.mbposReg (s : State) : Word := 0#8 ++ s.mbx ++ s.mby

/-- The order tags of a bank as a mask: bit `p` is 1 when the plane is tagged `ZZ` (10_state.md R32). -/
def Bank.tagMask (k : Bank) : PlaneMask := maskOf fun p => k.fbord[p] == .zz

/-- `TAGS`: bank 0 in bits 5:0, bank 1 in bits 13:8 (R32). -/
def State.tagsReg (s : State) : Word := 0#18 ++ (s.bank 1).tagMask ++ 0#2 ++ (s.bank 0).tagMask

/-- Whether all 64 elements of a plane are written (R32, R35). -/
def planeFull {n : Nat} (pl : Plane n) : Bool := (List.finRange 64).all fun i => pl[i].isSome

/-- `VALID<b>`: SBFULL in bits 5:0, FBFULL in 13:8, QBFULL in 21:16 (R21, R32). -/
def Bank.validReg (k : Bank) : Word :=
  0#10 ++ maskOf (fun p => planeFull k.qb[p]) ++ 0#2 ++ maskOf (fun p => planeFull k.fb[p]) ++ 0#2
    ++ maskOf (fun p => planeFull k.sb[p])

/-- The first index the run-level coder scans: 1 when index 0 is a DC coefficient, else 0 (44_quant.md R192, 45_runlevel.md R213). -/
def scanStart (dc : Bool) : Nat := if dc then 1 else 0

/-- The coded flag of a plane: 1 when some scanned level is not zero (44_quant.md R195). -/
def codedFlag (dc : Bool) (levels : Vector Int 64) : Bool :=
  (List.finRange 64).any fun k => decide (scanStart dc ≤ k.val) && levels[k] != 0

/-- A `CBP` register with the bits of the planes in the mask rewritten and the others kept (10_state.md R30). -/
def updateCbp (m old : PlaneMask) (coded : PlaneId → Bool) : PlaneMask :=
  maskOf fun p => if m.getLsbD p then coded p else old.getLsbD p

end Sys2Proof.Machine
end

