-- ==== Sys2Proof/Machine/Tables.lean ====
section
/-! DEFINITION. The record of literals at the values the spec prints (00_scope.md R7, 10_state.md R43, log entry 12), the
tables of 43_transform.md R171 and R178 among them, and the functions that read the tables. -/

namespace Sys2Proof.Machine

/-- `c1` of 43_transform.md R171. -/
def basisC1 : F64 := 0x3FE63150B15E8536
/-- `c2`. -/
def basisC2 : F64 := 0x3FE4E7AE9144F0FC
/-- `c3`. -/
def basisC3 : F64 := 0x3FE2D062EF88E319
/-- `c4`, exactly one half. -/
def basisC4 : F64 := 0x3FE0000000000000
/-- `c5`. -/
def basisC5 : F64 := 0x3FD92469C0DCF32D
/-- `c6`. -/
def basisC6 : F64 := 0x3FD1517A7BDB3895
/-- `c7`. -/
def basisC7 : F64 := 0x3FC1A855DEC071B5

/-- A leading `-` of R171's matrix: it flips the sign bit only. -/
def basisNeg (x : F64) : F64 := x ^^^ 0x8000000000000000

/-- The basis matrix `B`, row `u` the frequency, column `x` the sample position (43_transform.md R171). -/
def basisRows : Vector (Vector F64 8) 8 :=
  let c1 := basisC1
  let c2 := basisC2
  let c3 := basisC3
  let c4 := basisC4
  let c5 := basisC5
  let c6 := basisC6
  let c7 := basisC7
  let n1 := basisNeg basisC1
  let n2 := basisNeg basisC2
  let n3 := basisNeg basisC3
  let n4 := basisNeg basisC4
  let n5 := basisNeg basisC5
  let n6 := basisNeg basisC6
  let n7 := basisNeg basisC7
  #v[ #v[c4, c4, c4, c4, c4, c4, c4, c4],
      #v[c1, c3, c5, c7, n7, n5, n3, n1],
      #v[c2, c6, n6, n2, n2, n6, c6, c2],
      #v[c3, n7, n1, n5, c5, c1, c7, n3],
      #v[c4, n4, n4, c4, c4, n4, n4, c4],
      #v[c5, n1, c7, c3, n3, n7, c1, n5],
      #v[c6, n2, c2, n6, n6, c2, n2, c6],
      #v[c7, n5, c3, n1, c1, n3, c5, n7] ]

/-- The permutation table: position `k` of the zigzag sequence takes the coefficient at this natural-order index (43_transform.md R178). -/
def zigzagTable : Vector ElemId 64 :=
  #v[  0,  1,  8, 16,  9,  2,  3, 10,
      17, 24, 32, 25, 18, 11,  4,  5,
      12, 19, 26, 33, 40, 48, 41, 34,
      27, 20, 13,  6,  7, 14, 21, 28,
      35, 42, 49, 56, 57, 50, 43, 36,
      29, 22, 15, 23, 30, 37, 44, 51,
      58, 59, 52, 45, 38, 31, 39, 46,
      53, 60, 61, 54, 47, 55, 62, 63 ]

/-- The record of literals of this block: each parameter of 00_scope.md R7 at its normative value, the one the spec
prints there, in 43_transform.md R171 and R178 and in 41_csc.md R142 (log entry 12). Every rule that has a literal reads it here. -/
def literals : Config.Literals where
  kFwd := 0x3FD0000000000000  -- 0.25
  kInv := none
  basis := basisRows
  zigzag := zigzagTable
  dcDiv := 8
  dcZeroSub := 1
  dcRsvIn := 128
  dcRsvOut := 255
  dcMax := 254
  acLevelMax := 127
  quantMin := 1
  quantMax := 31
  recMin := -2048
  recMax := 2047
  pixMin := 0
  pixMax := 255
  chromaOffset := 128
  cscY := ⟨77, 150, 29⟩
  cscU := ⟨-43, -85, 128⟩
  cscV := ⟨128, -107, -21⟩
  cscShift := 8
  dcBits := 8
  escLastBits := 1
  escRunBits := 6
  escLevelBits := 8
  escLevelMin := -127
  escLevelMax := 127
  signPos := 0
  signNeg := 1

/-- `B[u][x]` (43_transform.md R171). -/
def basis (u x : Fin 8) : F64 := literals.basis[u][x]

/-- `ZIGZAG[k]` (43_transform.md R178). -/
def zigzag (k : ElemId) : ElemId := literals.zigzag[k]

/-- The position of a natural-order index in the zigzag sequence: the `k` with `ZIGZAG[k] = j`. -/
def zigzagPos (j : ElemId) : ElemId := ((List.finRange 64).find? fun k => zigzag k == j).getD 0

/-- One output of the colour converter before its offset and clip: the linear combination `(r*R + g*G + b*B) >> 8`,
the shift arithmetic (41_csc.md R142). -/
def cscSum (kr kg kb : Int) (r g b : Nat) : Int := (kr * r + kg * g + kb * b) >>> literals.cscShift

/-- The linear combination of one row of `CSC_COEF` (41_csc.md R142). -/
def cscRow (k : Config.CscRow) (r g b : Nat) : Int := cscSum k.r k.g k.b r g b

/-- `Y` before the clip (41_csc.md R142). -/
def cscY (r g b : Nat) : Int := cscRow literals.cscY r g b

/-- `U` before the clip. -/
def cscU (r g b : Nat) : Int := cscRow literals.cscU r g b + literals.chromaOffset

/-- `V` before the clip. -/
def cscV (r g b : Nat) : Int := cscRow literals.cscV r g b + literals.chromaOffset

end Sys2Proof.Machine
end

