-- ==== Sys2Proof/Machine/Ops.lean ====
section
/-! DEFINITION. The named operations: frame memories, the bit sink, the register read, host access, the checks of the
commands, taking a fault and returning from it, and the frame common to every command. -/

namespace Sys2Proof.Machine

/-! ### Frame memories (10_state.md R38 to R40, log entry 3) -/

/-- The listed value of element `i`. -/
def cellGet {α : Type} : List (Nat × α) → Nat → Option α
  | [], _ => none
  | (j, v) :: rest, i => if i = j then some v else cellGet rest i

/-- Lists `v` at element `i`, keeping the indexes strictly rising. -/
def cellSet {α : Type} : List (Nat × α) → Nat → α → List (Nat × α)
  | [], i, v => [(i, v)]
  | (j, u) :: rest, i, v =>
    if i < j then (i, v) :: (j, u) :: rest
    else if i = j then (i, v) :: rest
    else (j, u) :: cellSet rest i v

/-- Canonical form: the listed indexes rise strictly. An unlisted element has no listed value, so no listed entry
can equal what an unlisted one reads as. -/
abbrev FrameMem.wf {n : Nat} (m : FrameMem n) : Prop := (m.cells.map Prod.fst).Pairwise (· < ·)

/-- The value of element `i`: the listed one, else the unspecified value the element holds (10_state.md R44, U1, U4, U5). -/
def FrameMem.read {n : Nat} (m : FrameMem n) (i : Nat) : BitVec n :=
  (cellGet m.cells i).getD ((Config.anyPixel m.fill i).setWidth n)

/-- Writes element `i`. -/
def FrameMem.write {n : Nat} (m : FrameMem n) (i : Nat) (v : BitVec n) : FrameMem n :=
  { m with cells := cellSet m.cells i v }

/-- Writes every (index, value) pair of a list; the commands give each index once. -/
def FrameMem.writeList {n : Nat} (m : FrameMem n) (ws : List (Nat × BitVec n)) : FrameMem n :=
  ws.foldr (fun iv acc => acc.write iv.1 iv.2) m

/-- A frame memory whose whole content is unspecified, under its own number. -/
def FrameMem.unspecified {n : Nat} (fill : Nat) : FrameMem n := ⟨fill, []⟩

/-- `SRC[y][x]` (00_scope.md R12, 20_memory.md R64). After a later `SETW` or `SETH` the frame can be larger than `SRC`
(10_state.md R25); what is read where `SRC` has no element is a free value (log entry 17). -/
def State.srcPx (s : State) (x y : Nat) : SrcPixel :=
  if x < s.wreq.toNat ∧ y < s.hreq.toNat then s.src.read (pixelIndex s.wreq.toNat x y)
  else Config.anyOutside s.nextFree x y

/-- `CUR[y][x]`. -/
def State.curPx (s : State) (x y : Nat) : Pixel := s.cur.read (pixelIndex s.w.toNat x y)

/-- `REF[y][x]`. -/
def State.refPx (s : State) (x y : Nat) : Pixel := s.ref.read (pixelIndex s.w.toNat x y)

/-- Makes the content of `SRC` unspecified (93_implementation_defined.md U5). -/
def State.forgetSrc (s : State) : State :=
  { s with src := .unspecified s.nextFree, nextFree := s.nextFree + 1 }

/-- Makes the contents of `CUR` and `REF` unspecified (U4). -/
def State.forgetFrames (s : State) : State :=
  { s with cur := .unspecified s.nextFree, ref := .unspecified (s.nextFree + 1), nextFree := s.nextFree + 2 }

/-! ### The bit sink (10_state.md R41) -/

/-- The `n` bits of the field `v`, most significant first. -/
def fieldBits (v n : Nat) : List Bool := (List.range n).map fun j => v.testBit (n - 1 - j)

/-- `BsPut(v, n)` on a history: appends the field's bits. -/
def bsPut (bs : List Bool) (v n : Nat) : List Bool := bs ++ fieldBits v n

/-! ### The register read (10_state.md R21 to R32) -/

/-- `REG` register `k`; numbers from 19 on are reserved and read as zero (R21, U6). -/
def State.regRead (s : State) (k : Nat) : Word :=
  match k with
  | 0 => Config.idValue
  | 1 => s.statusReg
  | 2 => s.errcmd
  | 3 => s.errinfoReg
  | 4 => s.wreq.setWidth 32
  | 5 => s.hreq.setWidth 32
  | 6 => s.w.setWidth 32
  | 7 => s.h.setWidth 32
  | 8 => s.mbposReg
  | 9 => s.quant.setWidth 32
  | 10 => s.frameidx
  | 11 => s.cmdcnt
  | 12 => (s.bank 0).cbp.setWidth 32
  | 13 => (s.bank 1).cbp.setWidth 32
  | 14 => s.bitcnt
  | 15 => s.bslen
  | 16 => s.tagsReg
  | 17 => (s.bank 0).validReg
  | 18 => (s.bank 1).validReg
  | _ => 0

/-- The output line `err_irq`, equal to `STATUS.ERR` at all times (60_exceptions.md R280). -/
def State.errIrq (s : State) : Bool := s.err

/-! ### Host access (20_memory.md R60 to R66, R68, R71) -/

/-- The number of elements of a space (20_memory.md R60). -/
def State.spaceSize (s : State) : Space → Nat
  | .reg => 256
  | .sb => blockSize
  | .fb => blockSize
  | .qb => blockSize
  | .src => s.srcSize
  | .cur => s.frameSize
  | .ref => s.frameSize
  | .bs => s.bs.length

/-- The element at an index inside its space, zero-extended to 64 bits; `none` for an unwritten block-buffer element. -/
def State.element (s : State) (sp : Space) (i : Nat) : Option (BitVec 64) :=
  match sp with
  | .reg => some ((s.regRead i).setWidth 64)
  | .sb => s.sbAt (blockBank i) (blockPlane i) (blockElem i)
  | .fb => s.fbAt (blockBank i) (blockPlane i) (blockElem i)
  | .qb => (s.qbAt (blockBank i) (blockPlane i) (blockElem i)).map fun v => v.setWidth 64
  | .src => some ((s.src.read i).setWidth 64)
  | .cur => some ((s.cur.read i).setWidth 64)
  | .ref => some ((s.ref.read i).setWidth 64)
  | .bs => (s.bs[i]?).map fun bit => (BitVec.ofBool bit).setWidth 64

/-- What a host read of a space gives: `none` where the spec leaves the value unspecified, out of range or unwritten (20_memory.md R62). -/
def State.spaceRead (s : State) (sp : Space) (i : Nat) : Option (BitVec 64) :=
  if i < s.spaceSize sp then s.element sp i else none

/-- The unspecified value of a host read: an element of `QB` in range has 16 bits (R60, U2, U3, log entry 6). -/
def State.unspecifiedRead (s : State) (sp : Space) (i : Nat) : BitVec 64 :=
  match sp with
  | .qb => if i < blockSize then ((Config.anyRead s.nextFree).setWidth 16).setWidth 64 else Config.anyRead s.nextFree
  | _ => Config.anyRead s.nextFree

/-- `MemRead(space, index)` (20_memory.md R62, R63): hands the host the element, and changes nothing of the block. -/
def memRead (sp : Space) (i : Nat) (s : State) : State :=
  match s.spaceRead sp i with
  | some v => { s with hostData := v }
  | none => { s with hostData := s.unspecifiedRead sp i, nextFree := s.nextFree + 1 }

/-- A host write of one element of `SB` (R62). -/
def writeSb (i : Nat) (v : F64) (s : State) : State :=
  let k := s.bank (blockBank i)
  s.setBank (blockBank i)
    { k with sb := k.sb.set (blockPlane i) ((k.sb[blockPlane i]).set (blockElem i) (some v)) }

/-- A host write of one element of `FB`: it also sets the plane's tag to `NAT` (R62, 10_state.md R36). -/
def writeFb (i : Nat) (v : F64) (s : State) : State :=
  let k := s.bank (blockBank i)
  s.setBank (blockBank i)
    { k with
      fb := k.fb.set (blockPlane i) ((k.fb[blockPlane i]).set (blockElem i) (some v))
      fbord := k.fbord.set (blockPlane i) .nat }

/-- A host write of one element of `QB`; `CBP<b>` is not updated (R62, R63). -/
def writeQb (i : Nat) (v : Level) (s : State) : State :=
  let k := s.bank (blockBank i)
  s.setBank (blockBank i)
    { k with qb := k.qb.set (blockPlane i) ((k.qb[blockPlane i]).set (blockElem i) (some v)) }

/-- `MemWrite(space, index, v)` (20_memory.md R62): bits above the element width are dropped, an access outside the
space and a write to `REG` or `BS` change nothing. -/
def memWrite (sp : Space) (i : Nat) (v : BitVec 64) (s : State) : State :=
  if i < s.spaceSize sp then
    match sp with
    | .reg => s
    | .sb => writeSb i v s
    | .fb => writeFb i v s
    | .qb => writeQb i (v.setWidth 16) s
    | .src => { s with src := s.src.write i (v.setWidth 32) }
    | .cur => { s with cur := s.cur.write i (v.setWidth 24) }
    | .ref => { s with ref := s.ref.write i (v.setWidth 24) }
    | .bs => s
  else s

/-- The space of an id (20_memory.md R60). -/
def spaceOfId : Nat → Option Space
  | 0 => some .reg
  | 1 => some .sb
  | 2 => some .fb
  | 3 => some .qb
  | 4 => some .src
  | 5 => some .cur
  | 6 => some .ref
  | 7 => some .bs
  | _ => none

/-- `BUSMAP`: how a platform maps the spaces onto a byte-addressed bus (00_scope.md R8, 20_memory.md R67, R69). An access
moves one whole element (R62). -/
structure BusMap where
  /-- The space and element index that an access of `size` bytes at a byte address selects, `none` where the bridge refuses it. -/
  select : (a size : Nat) → Option (Space × Nat)
  /-- The bytes that a read of an element of a space hands over, lowest address first. -/
  toBytes : Space → BitVec 64 → List Byte
  /-- The element that the bytes written to a space stand for. -/
  ofBytes : Space → List Byte → BitVec 64

/-- The 8 bytes of a slot, least significant byte at the lowest address (R71). -/
def slotBytes (v : BitVec 64) : List Byte := (List.range 8).map fun k => v.extractLsb' (8 * k) 8

/-- The slot value of bytes in rising address order (R71). -/
def slotValue (bytes : List Byte) : BitVec 64 := BitVec.ofNat 64 (bytes.foldr (fun b acc => b.toNat + 256 * acc) 0)

/-- What the default map selects: the fields of a 44-bit address, where the access is accepted (20_memory.md R68, R71). -/
def defaultSelect (a size : Nat) : Option (Space × Nat) :=
  if a < 2 ^ 44 ∧ busAccessWf (BitVec.ofNat 44 a) size = true then
    (spaceOfId ((BitVec.ofNat 44 a).extractLsb' 40 4).toNat).map fun sp =>
      (sp, ((BitVec.ofNat 44 a).extractLsb' 3 37).toNat)
  else none

/-- The default `BUSMAP` (20_memory.md R71, log entry 8). -/
def defaultBusMap : BusMap where
  select := defaultSelect
  toBytes := fun _ v => slotBytes v
  ofBytes := fun _ bytes => slotValue bytes

/-- A bus read under a map; a refused one returns unspecified bytes (R68, U20). -/
def busRead (m : BusMap) (a size : Nat) (s : State) : State :=
  match m.select a size with
  | some (sp, i) => { memRead sp i s with busData := m.toBytes sp (memRead sp i s).hostData }
  | none => { s with busData := (List.range size).map (Config.anyByte s.nextFree), nextFree := s.nextFree + 1 }

/-- A bus write under a map; a refused one changes nothing (R68, U20). -/
def busWrite (m : BusMap) (a : Nat) (bytes : List Byte) (s : State) : State :=
  match m.select a bytes.length with
  | some (sp, i) => memWrite sp i (m.ofBytes sp bytes) s
  | none => s

/-! ### Faults, halt and return (60_exceptions.md R261 to R279) -/

/-- A fault a command raises: its code and what `ERRINFO` records (R261, R262). -/
structure Trap where
  code : FaultCode
  info : ErrInfo
  deriving DecidableEq, Repr

/-- A fault whose `ERRINFO` fields are all 0 (R262). -/
def plainTrap (c : FaultCode) : Trap := ⟨c, ⟨0, 0, 0⟩⟩

/-- A fault at an element of a bank (R262). -/
def trapAt (c : FaultCode) (b : BankId) (p : PlaneId) (i : ElemId) : Trap := ⟨c, ⟨b, p, i⟩⟩

/-- Fault entry (60_exceptions.md R275): four writes, and nothing else changes. -/
def takeFault (t : Trap) (word : Word) (s : State) : State :=
  { s with err := true, errcode := faultNumber t.code, errcmd := word, errinfo := t.info }

/-- The return from the halted state by `SRST` (60_exceptions.md R278, 40_config_commands.md R129): the reset values
of 10_state.md R44, the frame memories as they were, the model's own fields kept (log entry 14). -/
def softReset (s : State) : State :=
  { State.reset with
    src := s.src, cur := s.cur, ref := s.ref, pending := s.pending, pc := s.pc, nextFree := s.nextFree,
    hostData := s.hostData, busData := s.busData }

/-- Hardware reset (70_reset_and_hazards.md R290, 10_state.md R44): as `SRST`, but the frame memories become unspecified (log entry 15). -/
def hardReset (s : State) : State := (softReset s).forgetSrc.forgetFrames

/-- Fails with `t` unless `c` holds: `require c else raise` (00_scope.md R12). -/
def require (c : Bool) (t : Trap) : Option Trap := if c then none else some t

/-- `require REG.STATUS.STREAM = 1 else raise E_NOSTREAM` (R265). -/
def checkStream (s : State) : Option Trap := require s.stream (plainTrap .noStream)

/-- `require MBX < W div 16 and MBY < H div 16 else raise E_MBRANGE` (42_block_extract_recon.md R151, R267). -/
def checkMb (s : State) : Option Trap :=
  require (decide (s.mbx.toNat < s.w.toNat / Config.mbSize) && decide (s.mby.toNat < s.h.toNat / Config.mbSize))
    (plainTrap .mbRange)

/-- The checks common to `EXTRACT`, `RECON` and `COPYMB` (R151). -/
def checkPosition (s : State) : Option Trap := (checkStream s).or (checkMb s)

/-- `require REG.QUANT >= 1 else raise E_QUANT` (44_quant.md R191, R266). -/
def checkQuant (s : State) : Option Trap := require (decide (literals.quantMin ≤ s.quant.toNat)) (plainTrap .quant)

/-- The lowest plane of the list with a bad element, and the lowest such element in it (60_exceptions.md R262, R270). -/
def firstBad (ps : List PlaneId) (bad : PlaneId → ElemId → Bool) : Option (PlaneId × ElemId) :=
  ps.findSome? fun p => ((List.finRange 64).find? (bad p)).map fun i => (p, i)

/-- Every element of the planes written, else `E_UNWRITTEN` (10_state.md R35, 60_exceptions.md R268). -/
def checkWritten {n : Nat} (b : BankId) (ps : List PlaneId) (buf : Vector (Plane n) 6) : Option Trap :=
  (firstBad ps fun p i => buf[p][i].isNone).map fun pi => trapAt .unwritten b pi.1 pi.2

/-- Every plane tagged `want`, else `E_ORDER` (10_state.md R36, R269). -/
def checkOrder (b : BankId) (ps : List PlaneId) (fbord : Vector Order 6) (want : Order) : Option Trap :=
  (ps.find? fun p => fbord[p] != want).map fun p => trapAt .order b p 0

/-- Every value of the planes finite, else `E_NONFINITE` (43_transform.md R173, R271). -/
def checkFinite (b : BankId) (ps : List PlaneId) (vals : PlaneId → Vector F64 64) : Option Trap :=
  (firstBad ps fun p i => !f64Finite (vals p)[i]).map fun pi => trapAt .nonFinite b pi.1 pi.2

/-! ### The frame of every command (40_config_commands.md R120, 30_encoding.md R91) -/

/-- The outcome of a command. -/
abbrev Result := Host.Outcome State Fault Refusal

/-- After a command completes without a fault, `CMDCNT` counts it (R120, 10_state.md R26). -/
def countCommand (s : State) : State := { s with cmdcnt := s.cmdcnt + 1 }

/-- A command other than `SRST` (R120): discarded while halted (60_exceptions.md R276); else its checks, the first that
fails deciding the fault (R270), with the whole command word in `ERRCMD` (R262, log entry 11); else all its writes. -/
def runCommand (i : Instr) (check : State → Option Trap) (effect : State → State) (s : State) : Result :=
  if s.err then .next s
  else match check s with
    | some t => .next (takeFault t (encode i) s)
    | none => .next (countCommand (effect s))

/-- A command word that decodes as illegal (30_encoding.md R95, 60_exceptions.md R263, R276). -/
def runIllegal (word : Word) (s : State) : State :=
  if s.err then s else takeFault (plainTrap .illegal) word s

/-! ### What the host does next (20_memory.md R70, log entry 1) -/

/-- The state as a command word leaves the host's queue: the word is taken and the model's `pc` advances (10_state.md R26). -/
def State.popCommand (s : State) (rest : List HostStep) : State := { s with pending := rest, pc := s.pc + 1 }

/-- The state as a host access leaves the queue. -/
def State.popAccess (s : State) (rest : List HostStep) : State := { s with pending := rest }

/-- The effect of a host step that is not a command, under a bus map. -/
def hostAccess (m : BusMap) (a : HostStep) (s : State) : State :=
  match a with
  | .command _ => s
  | .memRead sp i => memRead sp i s
  | .memWrite sp i v => memWrite sp i v s
  | .busRead addr size => busRead m addr size s
  | .busWrite addr bytes => busWrite m addr bytes s
  | .rst => hardReset s

end Sys2Proof.Machine
end

