-- ==== Sys2Proof/Machine/Blocks.lean ====
section
/-! DEFINITION. The block extractor and reconstructor: EXTRACT, RECON, COPYMB (42_block_extract_recon.md). -/

namespace Sys2Proof.Machine

/-- `px(F, x, y)`: pixel `(x, y)` of the macroblock at `MBPOS` in the frame memory `F` (42_block_extract_recon.md R151). -/
def State.mbPx (s : State) (f : FrameMem 24) (x y : Nat) : Pixel := f.read (s.mbIndex x y)

/-- The chroma sample at row `r`, column `c`: the sum over the 2 by 2 footprint divided by 4, nothing added (R153). -/
def boxAverage (comp : Pixel → Nat) (px : Nat → Nat → Pixel) (r c : Nat) : Nat :=
  (comp (px (2 * c) (2 * r)) + comp (px (2 * c + 1) (2 * r)) + comp (px (2 * c) (2 * r + 1))
    + comp (px (2 * c + 1) (2 * r + 1))) / 4

/-- `ext(F)[p][i]` from the pixels of a macroblock (R153). -/
def extSample (px : Nat → Nat → Pixel) (p : PlaneId) (i : ElemId) : Nat :=
  let r := (rowOf i).val
  let c := (colOf i).val
  match p with
  | 0 => pixY (px c r)
  | 1 => pixY (px (c + 8) r)
  | 2 => pixY (px c (r + 8))
  | 3 => pixY (px (c + 8) (r + 8))
  | 4 => boxAverage pixU px r c
  | 5 => boxAverage pixV px r c

/-- `ext(CUR)[p][i]` at `MBPOS`. -/
def State.extCur (s : State) (p : PlaneId) (i : ElemId) : Nat := extSample (s.mbPx s.cur) p i

/-- `ext(REF)[p][i]` at `MBPOS`. -/
def State.extRef (s : State) (p : PlaneId) (i : ElemId) : Nat := extSample (s.mbPx s.ref) p i

/-- All 384 elements of a bank's `SB` written with the exact `f64` of an integer sample (R152). -/
def storeSamples (b : BankId) (f : PlaneId → ElemId → Int) (s : State) : State :=
  s.setBank b { s.bank b with sb := Vector.ofFn fun p => fullPlane fun i => f64OfInt (f p i) }

/-- `EXTRACT bank, CUR` (42_block_extract_recon.md R152). -/
def execExtractCur (b : BankId) (s : State) : Result :=
  runCommand (.extractCur b) checkPosition (fun s => storeSamples b (fun p i => s.extCur p i) s) s

/-- `EXTRACT bank, REF` (R152). -/
def execExtractRef (b : BankId) (s : State) : Result :=
  runCommand (.extractRef b) checkPosition (fun s => storeSamples b (fun p i => s.extRef p i) s) s

/-- `EXTRACT bank, DIFF`: the difference of the two extracted macroblocks, sample by sample (R152). -/
def execExtractDiff (b : BankId) (s : State) : Result :=
  runCommand (.extractDiff b) checkPosition
    (fun s => storeSamples b (fun p i => (s.extCur p i : Int) - (s.extRef p i : Int)) s) s

/-- `T[p][i]`: the rounded sample, the reference added back in `INTER` mode, then the clip (R156). -/
def reconSample (mode : ReconMode) (ref : Nat) (x : F64) : Int :=
  match mode with
  | .intra => clip (f64Round x) literals.pixMin literals.pixMax
  | .inter => clip (f64Round x + ref) literals.pixMin literals.pixMax

/-- The luma plane of pixel `(x, y)` of a macroblock (R156, R158). -/
def lumaPlane (x y : Nat) : PlaneId := Fin.ofNat 6 ((if 8 ≤ x then 1 else 0) + (if 8 ≤ y then 2 else 0))

/-- The element of that plane: `8*(y mod 8) + (x mod 8)`. -/
def lumaElem (x y : Nat) : ElemId := Fin.ofNat 64 (8 * (y % 8) + x % 8)

/-- The element of the chroma planes that covers pixel `(x, y)`: `8*(y div 2) + (x div 2)`. -/
def chromaElem (x y : Nat) : ElemId := Fin.ofNat 64 (8 * (y / 2) + x / 2)

/-- Pixel `(x, y)` of a macroblock from its six planes of samples: `T[5] || T[4] || Yv` (R156). -/
def assemblePixel (t : PlaneId → ElemId → Int) (x y : Nat) : Pixel :=
  packPixel (t (lumaPlane x y) (lumaElem x y)) (t 4 (chromaElem x y)) (t 5 (chromaElem x y))

/-- Writes the 256 pixels of the macroblock at `MBPOS` in `CUR`. -/
def writeMb (f : Nat → Nat → Pixel) (s : State) : State :=
  { s with cur := s.cur.writeList (mbPixels.map fun xy => (s.mbIndex xy.1 xy.2, f xy.1 xy.2)) }

/-- The samples `T` of `RECON` (R156). -/
def State.reconT (s : State) (b : BankId) (mode : ReconMode) (p : PlaneId) (i : ElemId) : Int :=
  reconSample mode (s.extRef p i) ((planeVals (s.bank b).sb[p])[i])

/-- The checks of `RECON` (R156): position, then every element of the bank's `SB` written, then every one finite. -/
def checkRecon (b : BankId) (s : State) : Option Trap :=
  (checkPosition s).or
    ((checkWritten b allPlanes (s.bank b).sb).or
      (checkFinite b allPlanes fun p => planeVals (s.bank b).sb[p]))

/-- `RECON bank, mode` (42_block_extract_recon.md R156). -/
def execRecon (b : BankId) (mode : ReconMode) (s : State) : Result :=
  runCommand (.recon b mode) (checkRecon b) (fun s => writeMb (assemblePixel (s.reconT b mode)) s) s

/-- `COPYMB`: the 256 pixels of `REF` copied whole (42_block_extract_recon.md R159). -/
def execCopymb (s : State) : Result :=
  runCommand .copymb checkPosition (fun s => writeMb (s.mbPx s.ref) s) s

end Sys2Proof.Machine
end

