-- ==== Sys2Proof/Machine/Configure.lean ====
section
/-! DEFINITION. The configuration and stream commands: NOP, SETW, SETH, SETQ, SETMB, CREATE, FRAMEEND, SRST (40_config_commands.md). -/

namespace Sys2Proof.Machine

/-- `NOP` (40_config_commands.md R121): it only counts. -/
def execNop (s : State) : Result := runCommand .nop (fun _ => none) (fun s => s) s

/-- `WREQ` takes `imm16`; a change of its value leaves the content of `SRC` unspecified (R122, U5). -/
def setWreq (imm16 : BitVec 16) (s : State) : State :=
  if imm16 = s.wreq then s else { s.forgetSrc with wreq := imm16 }

/-- `HREQ` takes `imm16`; a change of its value leaves the content of `SRC` unspecified (R123, U5). -/
def setHreq (imm16 : BitVec 16) (s : State) : State :=
  if imm16 = s.hreq then s else { s.forgetSrc with hreq := imm16 }

/-- `SETW imm16` (40_config_commands.md R122). -/
def execSetw (imm16 : BitVec 16) (s : State) : Result := runCommand (.setw imm16) (fun _ => none) (setWreq imm16) s

/-- `SETH imm16` (R123). -/
def execSeth (imm16 : BitVec 16) (s : State) : Result := runCommand (.seth imm16) (fun _ => none) (setHreq imm16) s

/-- `SETQ q`: a step of 0 faults `E_QUANT` (R124, 30_encoding.md R96). -/
def execSetq (q : BitVec 5) (s : State) : Result :=
  runCommand (.setq q) (fun _ => require (decide (literals.quantMin ≤ q.toNat)) (plainTrap .quant)) (fun s => { s with quant := q }) s

/-- `SETMB x, y` (R125). -/
def execSetmb (x y : BitVec 12) (s : State) : Result :=
  runCommand (.setmb x y) (fun _ => none) (fun s => { s with mbx := x, mby := y }) s

/-- A requested dimension rounded down to a multiple of 16 (R127, 10_state.md R25). -/
def effectiveDim (v : BitVec 16) : BitVec 16 := v - v % 16#16

/-- `require w >= 16 and h >= 16 else raise E_CONFIG` (R127, 60_exceptions.md R264). -/
def checkConfig (s : State) : Option Trap :=
  require (decide (16 ≤ (effectiveDim s.wreq).toNat) && decide (16 ≤ (effectiveDim s.hreq).toNat)) (plainTrap .config)

/-- A new stream: the effective dimensions, frame index 0, frame contents unspecified (R127, U4). -/
def createStream (s : State) : State :=
  { s.forgetFrames with
    w := effectiveDim s.wreq, h := effectiveDim s.hreq, frameidx := 0, stream := true }

/-- `CREATE` (40_config_commands.md R127). -/
def execCreate (s : State) : Result := runCommand .create checkConfig createStream s

/-- The end of a frame: every pixel of `REF` takes that of `CUR`, unspecified ones as they are (R128, log entry 5), and
`FRAMEIDX` counts modulo `2^32`. -/
def endFrame (s : State) : State := { s with ref := s.cur, frameidx := s.frameidx + 1 }

/-- `FRAMEEND` (40_config_commands.md R128). -/
def execFrameend (s : State) : Result := runCommand .frameend checkStream endFrame s

/-- `SRST` (40_config_commands.md R129): the one command that runs while halted, and it is not counted. -/
def execSrst (s : State) : Result := .next (softReset s)

end Sys2Proof.Machine
end

