-- ==== Sys2Proof/Machine/Convert.lean ====
section
/-! DEFINITION. The colour-space converter: CSC (41_csc.md). -/

namespace Sys2Proof.Machine

/-- Clips a converted component to an 8-bit intensity (41_csc.md R142). -/
def clipPixel (v : Int) : Int := clip v literals.pixMin literals.pixMax

/-- One source pixel converted: `V || U || Y` of `rgb2yuv`, the fourth channel ignored (41_csc.md R141, R142). -/
def convertPixel (v : SrcPixel) : Pixel :=
  packPixel (clipPixel (cscY (srcR v) (srcG v) (srcB v))) (clipPixel (cscU (srcR v) (srcG v) (srcB v)))
    (clipPixel (cscV (srcR v) (srcG v) (srcB v)))

/-- The whole frame converted: `CUR[y][x] <- rgb2yuv(SRC[y][x])` for every pixel of the `W` by `H` frame (R141).
The number of the free values it read where `SRC` has no element is used up (log entry 17). -/
def convertFrame (s : State) : State :=
  { s with
    cur := s.cur.writeList
      ((framePixels s.w.toNat s.h.toNat).map fun xy =>
        (pixelIndex s.w.toNat xy.1 xy.2, convertPixel (s.srcPx xy.1 xy.2)))
    nextFree := s.nextFree + 1 }

/-- `CSC` (41_csc.md R141). -/
def execCsc (s : State) : Result := runCommand .csc checkStream convertFrame s

end Sys2Proof.Machine
end

