-- ==== Sys2Proof/Machine/Quant.lean ====
section
/-! DEFINITION. The quantizer and dequantizer: QNT, DQNT (44_quant.md). -/

namespace Sys2Proof.Machine

/-- `qdc(c)`: the DC level and whether it saturated (44_quant.md R193). -/
def qdc (c : F64) : Int × Bool :=
  let v := f64TruncDiv c literals.dcDiv
  if v < 0 then (1, true)
  else if v = 0 then (literals.dcZeroSub, false)
  else if v = literals.dcRsvIn then (literals.dcRsvOut, false)
  else if literals.dcMax < v then (literals.dcMax, true)
  else (v, false)

/-- `qac(c, q)`: the AC level and whether it saturated (44_quant.md R194). -/
def qac (c : F64) (q : Nat) : Int × Bool :=
  let m := f64FloorAbsDiv c (2 * q)
  let sat := decide (literals.acLevelMax < m)
  let m' := if literals.acLevelMax < m then literals.acLevelMax else m
  (if f64Negative c then -(m' : Int) else (m' : Int), sat)

/-- The levels of a plane and their saturation flags: index 0 goes through `qdc` when `dc = 1`, every other index through `qac` (R192). -/
def quantPlane (dc : Bool) (q : Nat) (cs : Vector F64 64) : Vector (Int × Bool) 64 :=
  Vector.ofFn fun k => if dc = true ∧ k = 0 then qdc cs[k] else qac cs[k] q

/-- The levels `L[p]` of a plane of a bank. -/
def Bank.levelsOf (k : Bank) (dc : Bool) (q : Nat) (p : PlaneId) : Vector Int 64 :=
  Vector.ofFn fun i => ((quantPlane dc q (planeVals k.fb[p]))[i]).1

/-- Whether some level of a plane saturated. -/
def Bank.saturates (k : Bank) (dc : Bool) (q : Nat) (p : PlaneId) : Bool :=
  (List.finRange 64).any fun i => ((quantPlane dc q (planeVals k.fb[p]))[i]).2

/-- The checks of `QNT` (R192): `QUANT`, then planes written, tagged `ZZ`, finite. -/
def checkQnt (b : BankId) (m : PlaneMask) (s : State) : Option Trap :=
  (checkQuant s).or
    ((checkWritten b (planesOf m) (s.bank b).fb).or
      ((checkOrder b (planesOf m) (s.bank b).fbord .zz).or
        (checkFinite b (planesOf m) fun p => planeVals (s.bank b).fb[p])))

/-- The writes of `QNT` (R192, R195): the levels, the coded flags of the planes in the mask, and the sticky `SAT`. -/
def quantize (b : BankId) (m : PlaneMask) (dc : Bool) (s : State) : State :=
  let k := s.bank b
  let q := s.quant.toNat
  { s.setBank b
      { k with
        qb := overPlanes m k.qb fun p => fullPlane fun i => BitVec.ofInt 16 (k.levelsOf dc q p)[i]
        cbp := updateCbp m k.cbp fun p => codedFlag dc (k.levelsOf dc q p) } with
    sat := s.sat || (planesOf m).any fun p => k.saturates dc q p }

/-- `QNT bank, pmask, dc` (44_quant.md R192). -/
def execQnt (b : BankId) (m : PlaneMask) (dc : Bool) (s : State) : Result :=
  runCommand (.qnt b m dc) (checkQnt b m) (quantize b m dc) s

/-- `ddc(L)`: times 8, with 255 standing for 128 (44_quant.md R198). -/
def ddc (l : Int) : Int := if l = literals.dcRsvOut then literals.dcRsvIn * literals.dcDiv else l * literals.dcDiv

/-- The magnitude before the sign and the clip: `q*(2*abs(L)+1)`, one less for an even step (44_quant.md R199). -/
def dacMagnitude (l : Int) (q : Nat) : Int :=
  let r : Int := q * (2 * l.natAbs + 1)
  if q % 2 = 0 then r - 1 else r

/-- `dac(L, q)`: level 0 gives 0; the sign is re-applied after, and the clip acts after the sign (44_quant.md R199). -/
def dac (l : Int) (q : Nat) : Int :=
  if l = 0 then 0
  else clip (if l < 0 then -dacMagnitude l q else dacMagnitude l q) literals.recMin literals.recMax

/-- Whether a level is a legal DC level: 1 to 255 and not 128 (44_quant.md R197, R198). -/
def dcLevelOk (l : Int) : Bool := decide (1 ≤ l) && decide (l ≤ literals.dcRsvOut) && decide (l ≠ literals.dcRsvIn)

/-- With `dc = 1`, a legal DC level at index 0 of every plane, else `E_DCLEVEL` (R197, 60_exceptions.md R272). -/
def checkDcLevels (b : BankId) (ps : List PlaneId) (dc : Bool) (qb : Vector (Plane 16) 6) : Option Trap :=
  if dc then
    (ps.find? fun p => !dcLevelOk (planeLevels qb[p])[0]).map fun p => trapAt .dcLevel b p 0
  else none

/-- The checks of `DQNT` (R197): `QUANT`, then planes written, then the DC levels. -/
def checkDqnt (b : BankId) (m : PlaneMask) (dc : Bool) (s : State) : Option Trap :=
  (checkQuant s).or
    ((checkWritten b (planesOf m) (s.bank b).qb).or (checkDcLevels b (planesOf m) dc (s.bank b).qb))

/-- The reconstruction levels of a plane (R197). -/
def dequantPlane (dc : Bool) (q : Nat) (l : Vector Int 64) : Vector Int 64 :=
  Vector.ofFn fun k => if dc = true ∧ k = 0 then ddc l[k] else dac l[k] q

/-- `DQNT bank, pmask, dc` (44_quant.md R197). -/
def execDqnt (b : BankId) (m : PlaneMask) (dc : Bool) (s : State) : Result :=
  runCommand (.dqnt b m dc) (checkDqnt b m dc)
    (fun s => s.setBank b
      { s.bank b with
        fb := overPlanes m (s.bank b).fb fun p =>
          fullPlane fun k => f64OfInt (dequantPlane dc s.quant.toNat (planeLevels (s.bank b).qb[p]))[k]
        fbord := overPlanes m (s.bank b).fbord fun _ => .zz }) s

end Sys2Proof.Machine
end

