-- ==== Sys2Proof/Machine/RunLevel.lean ====
section
/-! DEFINITION. The run-level coefficient coder and cost estimator: RLCOST, RLEMIT (45_runlevel.md). The functions take
the code tables as an argument, as 00_scope.md R8 asks; the commands use the open tables of Config. -/

namespace Sys2Proof.Machine

/-- An event `(run, L, last, k)` of a plane's scan (45_runlevel.md R213). -/
structure RlEvent where
  run : Nat
  level : Int
  last : Bool
  index : ElemId
  deriving DecidableEq, Repr

/-- The scanned indexes whose level is not zero, ascending: `nz` (R213). -/
def nonZeroIndexes (l : Vector Int 64) (dc : Bool) : List ElemId :=
  (List.finRange 64).filter fun k => decide (scanStart dc ≤ k.val) && l[k] != 0

/-- The events of the indexes left, the next index to scan being `next`: `run` counts the zeros passed over (R213). -/
def eventsFrom (l : Vector Int 64) : Nat → List ElemId → List RlEvent
  | _, [] => []
  | next, k :: ks => ⟨k.val - next, l[k], ks.isEmpty, k⟩ :: eventsFrom l (k.val + 1) ks

/-- `events(Q, dc)` (45_runlevel.md R213). -/
def events (l : Vector Int 64) (dc : Bool) : List RlEvent := eventsFrom l (scanStart dc) (nonZeroIndexes l dc)

/-- A field of the bitstream: its value and its width (10_state.md R41). -/
abbrev BitField := Nat × Nat

/-- The sign bit of a level (R214). -/
def signBit (l : Int) : Nat := if l < 0 then literals.signNeg else literals.signPos

/-- The bits of one event: its code and sign where the table has one, else the escape fields (45_runlevel.md R214). -/
def eventFields (t : Config.Vlc) (e : RlEvent) : List BitField :=
  match t.table e.last e.run e.level.natAbs with
  | some c => [(c.code, c.len), (signBit e.level, 1)]
  | none =>
    [(t.escape.code, t.escape.len), (e.last.toNat, literals.escLastBits), (e.run, literals.escRunBits),
      ((e.level % 256).toNat, literals.escLevelBits)]

/-- The fields of one plane: its DC field when `dc = 1`, then the fields of its events when its `cmask` bit is 1 (R215). -/
def planeFields (t : Config.Vlc) (coded dc : Bool) (l : Vector Int 64) : List BitField :=
  (if dc then [((l[0]).toNat, literals.dcBits)] else [])
    ++ (if coded then (events l dc).flatMap (eventFields t) else [])

/-- `mb_fields(b, cmask, dc)`: the planes in ascending order (45_runlevel.md R215). -/
def mbFields (t : Config.Vlc) (cmask : PlaneMask) (dc : Bool) (qb : Vector (Plane 16) 6) : List BitField :=
  allPlanes.flatMap fun (p : PlaneId) => planeFields t (cmask.getLsbD p) dc (planeLevels qb[p])

/-- The sum of the widths of a list of fields (R217). -/
def totalWidth (fs : List BitField) : Nat := (fs.map Prod.snd).sum

/-- `BsPut` of every field, in order (R218). -/
def putFields (bs : List Bool) (fs : List BitField) : List Bool := fs.foldl (fun acc f => bsPut acc f.1 f.2) bs

/-- Whether the escape path can carry a level (45_runlevel.md R220). -/
def escapable (l : Int) : Bool := decide (literals.escLevelMin ≤ l) && decide (l ≤ literals.escLevelMax)

/-- The two-way check of a plane's coded flag: `E_EMPTY` where it is set and the scan is empty, `E_CBP` at the first event
where it is clear and the scan is not empty (R212, R216). -/
def checkCoded (b : BankId) (p : PlaneId) (coded : Bool) (ev : List RlEvent) : Option Trap :=
  if coded then require (!ev.isEmpty) (trapAt .empty b p 0)
  else (ev.head?).map fun e => trapAt .cbp b p e.index

/-- Every event without a table entry has an escapable level, else `E_LEVEL` (R216, R220). -/
def checkEscapes (t : Config.Vlc) (b : BankId) (p : PlaneId) (ev : List RlEvent) : Option Trap :=
  (ev.find? fun e => (t.table e.last e.run e.level.natAbs).isNone && !escapable e.level).map fun e =>
    trapAt .level b p e.index

/-- The checks of one plane, in the order of R216. -/
def checkPlaneCoding (t : Config.Vlc) (b : BankId) (p : PlaneId) (coded dc : Bool) (l : Vector Int 64) : Option Trap :=
  (if dc then require (dcLevelOk l[0]) (trapAt .dcLevel b p 0) else none).or
    ((checkCoded b p coded (events l dc)).or (checkEscapes t b p (events l dc)))

/-- The checks of `RLCOST` and `RLEMIT`: all six planes written, then plane by plane (45_runlevel.md R216). -/
def checkRunLevel (t : Config.Vlc) (b : BankId) (cmask : PlaneMask) (dc : Bool) (s : State) : Option Trap :=
  (checkWritten b allPlanes (s.bank b).qb).or
    (allPlanes.findSome? fun (p : PlaneId) => checkPlaneCoding t b p (cmask.getLsbD p) dc (planeLevels (s.bank b).qb[p]))

/-- The fields of the macroblock in bank `b` under given tables. -/
def State.mbFieldsOf (s : State) (t : Config.Vlc) (b : BankId) (cmask : PlaneMask) (dc : Bool) : List BitField :=
  mbFields t cmask dc (s.bank b).qb

/-- The write of `RLCOST` (R217). -/
def costMb (t : Config.Vlc) (b : BankId) (cmask : PlaneMask) (dc : Bool) (s : State) : State :=
  { s with bitcnt := BitVec.ofNat 32 (totalWidth (s.mbFieldsOf t b cmask dc)) }

/-- The writes of `RLEMIT` (R218). -/
def emitMb (t : Config.Vlc) (b : BankId) (cmask : PlaneMask) (dc : Bool) (s : State) : State :=
  { s with
    bs := putFields s.bs (s.mbFieldsOf t b cmask dc)
    bslen := s.bslen + BitVec.ofNat 32 (totalWidth (s.mbFieldsOf t b cmask dc))
    bitcnt := BitVec.ofNat 32 (totalWidth (s.mbFieldsOf t b cmask dc)) }

/-- `RLCOST bank, cmask, dc` (45_runlevel.md R217). -/
def execRlcost (b : BankId) (cmask : PlaneMask) (dc : Bool) (s : State) : Result :=
  runCommand (.rlcost b cmask dc) (checkRunLevel Config.vlc b cmask dc) (costMb Config.vlc b cmask dc) s

/-- `RLEMIT bank, cmask, dc` (45_runlevel.md R218). -/
def execRlemit (b : BankId) (cmask : PlaneMask) (dc : Bool) (s : State) : Result :=
  runCommand (.rlemit b cmask dc) (checkRunLevel Config.vlc b cmask dc) (emitMb Config.vlc b cmask dc) s

end Sys2Proof.Machine
end

