-- ==== Sys2Proof/Machine/Transform.lean ====
section
/-! DEFINITION. The transform engine: FDCT, IDCT, ZZ, IZZ (43_transform.md). -/

namespace Sys2Proof.Machine

/-- `dot8(a, s)`: eight products accumulated from `+0.0` in ascending index (43_transform.md R172). -/
def dot8 (a s : Fin 8 → F64) : F64 :=
  (List.finRange 8).foldl (fun acc k => f64Add acc (f64Mul (a k) (s k))) 0

/-- The row pass of the forward transform: `t[8*r + u] = dot8(B[u], row r)` (R174). -/
def fdctRows (s : Vector F64 64) : Vector F64 64 :=
  Vector.ofFn fun j => dot8 (fun x => basis (colOf j) x) (fun x => s[elemAt (rowOf j) x])

/-- The column pass of the forward transform and its normalization: `F[8*v + u] = dot8(B[v], column u) (*) 0.25` (R174). -/
def fdctCols (t : Vector F64 64) : Vector F64 64 :=
  Vector.ofFn fun j => f64Mul (dot8 (fun r => basis (rowOf j) r) (fun r => t[elemAt r (colOf j)])) literals.kFwd

/-- The forward transform of one plane (R174). -/
def fdctPlane (s : Vector F64 64) : Vector F64 64 := fdctCols (fdctRows s)

/-- The row pass of the inverse transform: `t[8*y + x] = dot8(column x of B, row y)` (R176). -/
def idctRows (f : Vector F64 64) : Vector F64 64 :=
  Vector.ofFn fun j => dot8 (fun u => basis u (colOf j)) (fun u => f[elemAt (rowOf j) u])

/-- A result multiplied by a normalization factor, or by nothing (00_scope.md R7 `K_INV`). -/
def normalize (k : Option F64) (x : F64) : F64 :=
  match k with
  | some c => f64Mul x c
  | none => x

/-- The column pass of the inverse transform: `s[8*y + x] = dot8(column y of B, column x)`, `K_INV` multiplying by nothing (R176). -/
def idctCols (t : Vector F64 64) : Vector F64 64 :=
  Vector.ofFn fun j => normalize literals.kInv (dot8 (fun v => basis v (rowOf j)) (fun v => t[elemAt v (colOf j)]))

/-- The inverse transform of one plane; no normalization factor is applied (R176). -/
def idctPlane (f : Vector F64 64) : Vector F64 64 := idctCols (idctRows f)

/-- The results of `FDCT` for a plane of a bank. -/
def Bank.fdctOf (k : Bank) (p : PlaneId) : Vector F64 64 := fdctPlane (planeVals k.sb[p])

/-- The results of `IDCT` for a plane of a bank. -/
def Bank.idctOf (k : Bank) (p : PlaneId) : Vector F64 64 := idctPlane (planeVals k.fb[p])

/-- The checks of `FDCT` (R174): inputs written, inputs finite, results finite. -/
def checkFdct (b : BankId) (m : PlaneMask) (s : State) : Option Trap :=
  (checkWritten b (planesOf m) (s.bank b).sb).or
    ((checkFinite b (planesOf m) fun p => planeVals (s.bank b).sb[p]).or
      (checkFinite b (planesOf m) (s.bank b).fdctOf))

/-- `FDCT bank, pmask` (43_transform.md R174). -/
def execFdct (b : BankId) (m : PlaneMask) (s : State) : Result :=
  runCommand (.fdct b m) (checkFdct b m)
    (fun s => s.setBank b
      { s.bank b with
        fb := overPlanes m (s.bank b).fb fun p => fullPlane fun j => ((s.bank b).fdctOf p)[j]
        fbord := overPlanes m (s.bank b).fbord fun _ => .nat }) s

/-- The checks of `IDCT` (R176): inputs written, tagged `NAT`, finite; results finite. -/
def checkIdct (b : BankId) (m : PlaneMask) (s : State) : Option Trap :=
  (checkWritten b (planesOf m) (s.bank b).fb).or
    ((checkOrder b (planesOf m) (s.bank b).fbord .nat).or
      ((checkFinite b (planesOf m) fun p => planeVals (s.bank b).fb[p]).or
        (checkFinite b (planesOf m) (s.bank b).idctOf)))

/-- `IDCT bank, pmask` (43_transform.md R176); the results are stored unrounded. -/
def execIdct (b : BankId) (m : PlaneMask) (s : State) : Result :=
  runCommand (.idct b m) (checkIdct b m)
    (fun s => s.setBank b
      { s.bank b with sb := overPlanes m (s.bank b).sb fun p => fullPlane fun i => ((s.bank b).idctOf p)[i] }) s

/-- The checks of `ZZ` and `IZZ` (R179, R180): planes written, then tagged `want`. -/
def checkReorder (b : BankId) (m : PlaneMask) (want : Order) (s : State) : Option Trap :=
  (checkWritten b (planesOf m) (s.bank b).fb).or (checkOrder b (planesOf m) (s.bank b).fbord want)

/-- Reorders the `FB` planes of a mask: element `k` of the new plane is element `pos k` of the snapshot, its pattern
unchanged; the planes take the tag `tag` (R179, R180). -/
def reorder (b : BankId) (m : PlaneMask) (pos : ElemId → ElemId) (tag : Order) (s : State) : State :=
  s.setBank b
    { s.bank b with
      fb := overPlanes m (s.bank b).fb fun p => Vector.ofFn fun k => ((s.bank b).fb[p])[pos k]
      fbord := overPlanes m (s.bank b).fbord fun _ => tag }

/-- `ZZ bank, pmask`: `FB[k] <- old[ZIGZAG[k]]` (43_transform.md R179). -/
def execZz (b : BankId) (m : PlaneMask) (s : State) : Result :=
  runCommand (.zz b m) (checkReorder b m .nat) (reorder b m zigzag .zz) s

/-- `IZZ bank, pmask`: `FB[ZIGZAG[k]] <- old[k]`, so element `j` takes the element at the place of `j` in the scan (43_transform.md R180). -/
def execIzz (b : BankId) (m : PlaneMask) (s : State) : Result :=
  runCommand (.izz b m) (checkReorder b m .zz) (reorder b m zigzagPos .nat) s

end Sys2Proof.Machine
end

