-- ==== Sys2Proof/Machine/Dispatch.lean ====
section
/-! DEFINITION. One arm for each command: its meaning (30_encoding.md R94). -/

namespace Sys2Proof.Machine

/-- The meaning of a command (30_encoding.md R91). -/
def exec (i : Instr) (s : State) : Host.Outcome State Fault Refusal :=
  match i with
  | .nop => Sys2Proof.Machine.execNop s
  | .setw imm16 => Sys2Proof.Machine.execSetw imm16 s
  | .seth imm16 => Sys2Proof.Machine.execSeth imm16 s
  | .setq q => Sys2Proof.Machine.execSetq q s
  | .setmb x y => Sys2Proof.Machine.execSetmb x y s
  | .create => Sys2Proof.Machine.execCreate s
  | .csc => Sys2Proof.Machine.execCsc s
  | .extractCur b => Sys2Proof.Machine.execExtractCur b s
  | .extractRef b => Sys2Proof.Machine.execExtractRef b s
  | .extractDiff b => Sys2Proof.Machine.execExtractDiff b s
  | .fdct b m => Sys2Proof.Machine.execFdct b m s
  | .zz b m => Sys2Proof.Machine.execZz b m s
  | .qnt b m dc => Sys2Proof.Machine.execQnt b m dc s
  | .rlcost b m dc => Sys2Proof.Machine.execRlcost b m dc s
  | .rlemit b m dc => Sys2Proof.Machine.execRlemit b m dc s
  | .dqnt b m dc => Sys2Proof.Machine.execDqnt b m dc s
  | .izz b m => Sys2Proof.Machine.execIzz b m s
  | .idct b m => Sys2Proof.Machine.execIdct b m s
  | .recon b mode => Sys2Proof.Machine.execRecon b mode s
  | .copymb => Sys2Proof.Machine.execCopymb s
  | .frameend => Sys2Proof.Machine.execFrameend s
  | .srst => Sys2Proof.Machine.execSrst s

end Sys2Proof.Machine
end

