-- ==== Sys2Proof/Machine/Step.lean ====
section
/-! DEFINITION. One step of the machine: the next thing the host does (20_memory.md R70). -/

namespace Sys2Proof.Machine

/-- A command word presented to the block: decoded and performed, or an illegal word (30_encoding.md R91, R101). -/
def presentWord (w : Word) (s : State) : Host.Outcome State Fault Refusal :=
  match decode w with
  | some i => exec i s
  | none => .next (runIllegal w s)

/-- One step on a platform with the bus map `m` (00_scope.md R8): the oldest host step is taken from the queue and
performed; with none, the block is idle (log entry 2). -/
def stepWith (m : BusMap) (s : State) : Host.Outcome State Fault Refusal :=
  match s.pending with
  | [] => .next s
  | .command w :: rest => presentWord w (s.popCommand rest)
  | a :: rest => .next (hostAccess m a (s.popAccess rest))

/-- One step on the platform that takes the default bus map (20_memory.md R71, log entry 8). -/
def step (s : State) : Host.Outcome State Fault Refusal := stepWith defaultBusMap s

/-- The state in which the host presents next the command word whose bits are `w` (log entry 1). -/
def State.withFetchWord (s : State) (nbits w : Nat) : State :=
  { s with pending := .command (BitVec.ofNat 32 (w % 2 ^ nbits)) :: s.pending }

end Sys2Proof.Machine
end

