-- ==== Sys2Proof/Machine/Sequences.lean ====
section
/-! DEFINITION. Lists of commands the spec names: the pseudo-commands (30_encoding.md R99) and the block's part of the
host's macroblock sequences (48_host_sequences.md); and the assembler form of a command (30_encoding.md R98). They have
no encoding and no meaning of their own. -/

namespace Sys2Proof.Machine

/-- `SETDIM w, h` (30_encoding.md R99). -/
def setDim (w h : BitVec 16) : List Instr := [.setw w, .seth h, .create]

/-- `ENC bank, mask, dc` (R99). -/
def enc (b : BankId) (m : PlaneMask) (dc : Bool) : List Instr := [.fdct b m, .zz b m, .qnt b m dc]

/-- `DEC bank, mask, dc` (R99). -/
def dec (b : BankId) (m : PlaneMask) (dc : Bool) : List Instr := [.dqnt b m dc, .izz b m, .idct b m]

/-- The mask `ALL` (30_encoding.md R98). -/
def maskAll : PlaneMask := 0x3F

/-- The commands of an I-frame macroblock in bank 0 at `(mx, my)`, `cbp0` being what the host read from `CBP0` (48_host_sequences.md R233). -/
def intraMacroblock (mx my : BitVec 12) (cbp0 : PlaneMask) : List Instr :=
  [.setmb mx my, .extractCur 0] ++ enc 0 maskAll true ++ [.rlemit 0 cbp0 true] ++ dec 0 maskAll true ++ [.recon 0 .intra]

/-- The two candidates of a P-frame macroblock, one in each bank (R236). -/
def interCandidates : List Instr :=
  [.extractCur 0] ++ enc 0 maskAll true ++ [.extractDiff 1] ++ enc 1 maskAll false

/-- The emission and reconstruction of the winning candidate (R238, R239). -/
def finishWinner (inter : Bool) (cbp : PlaneMask) : List Instr :=
  if inter then [.rlemit 1 cbp false] ++ dec 1 maskAll false ++ [.recon 1 .inter]
  else [.rlemit 0 cbp true] ++ dec 0 maskAll true ++ [.recon 0 .intra]

/-- A bank operand in assembler form. -/
def asmBank (b : BankId) : String := "b" ++ toString b.val

/-- A mask operand. -/
def asmMask (m : PlaneMask) : String := toString m.toNat

/-- The `DC` or `NODC` operand. -/
def asmDc (dc : Bool) : String := if dc then "DC" else "NODC"

/-- The assembler form of a command (30_encoding.md R98). -/
def asm : Instr → String
  | .nop => "NOP"
  | .setw v => "SETW " ++ toString v.toNat
  | .seth v => "SETH " ++ toString v.toNat
  | .setq q => "SETQ " ++ toString q.toNat
  | .setmb x y => "SETMB " ++ toString x.toNat ++ ", " ++ toString y.toNat
  | .create => "CREATE"
  | .csc => "CSC"
  | .extractCur b => "EXTRACT " ++ asmBank b ++ ", CUR"
  | .extractRef b => "EXTRACT " ++ asmBank b ++ ", REF"
  | .extractDiff b => "EXTRACT " ++ asmBank b ++ ", DIFF"
  | .fdct b m => "FDCT " ++ asmBank b ++ ", " ++ asmMask m
  | .zz b m => "ZZ " ++ asmBank b ++ ", " ++ asmMask m
  | .qnt b m dc => "QNT " ++ asmBank b ++ ", " ++ asmMask m ++ ", " ++ asmDc dc
  | .rlcost b m dc => "RLCOST " ++ asmBank b ++ ", " ++ asmMask m ++ ", " ++ asmDc dc
  | .rlemit b m dc => "RLEMIT " ++ asmBank b ++ ", " ++ asmMask m ++ ", " ++ asmDc dc
  | .dqnt b m dc => "DQNT " ++ asmBank b ++ ", " ++ asmMask m ++ ", " ++ asmDc dc
  | .izz b m => "IZZ " ++ asmBank b ++ ", " ++ asmMask m
  | .idct b m => "IDCT " ++ asmBank b ++ ", " ++ asmMask m
  | .recon b .intra => "RECON " ++ asmBank b ++ ", INTRA"
  | .recon b .inter => "RECON " ++ asmBank b ++ ", INTER"
  | .copymb => "COPYMB"
  | .frameend => "FRAMEEND"
  | .srst => "SRST"

end Sys2Proof.Machine
end

