-- ==== Sys2Proof/Safety.lean ====
section
/-! DEFINITION. What the claims about the machine are stated in: the invariant every step keeps, what a command names,
and the lowest offending element of a fault. -/

namespace Sys2Proof.Machine

/-- The frame memories are in canonical form (log entry 3). -/
abbrev State.memoryWf (s : State) : Prop := s.src.wf ∧ s.cur.wf ∧ s.ref.wf

/-- Every unspecified content in use has its own number below the counter of fresh ones (log entry 3). -/
abbrev State.freeFresh (s : State) : Prop :=
  s.src.fill < s.nextFree ∧ s.cur.fill < s.nextFree ∧ s.ref.fill < s.nextFree

/-- The invariant of the machine: it holds after reset and every step keeps it. -/
structure State.Inv (s : State) : Prop where
  /-- The frame memories are in canonical form. -/
  memory : s.memoryWf
  /-- The numbers of unspecified contents are below the counter. -/
  fresh : s.freeFresh
  /-- `W` and `H` are always multiples of 16 (10_state.md R21). -/
  aligned : s.w.toNat % 16 = 0 ∧ s.h.toNat % 16 = 0
  /-- A stream has a macroblock; without one the frame is empty (40_config_commands.md R127, 10_state.md R44). -/
  geometry : if s.stream then 16 ≤ s.w.toNat ∧ 16 ≤ s.h.toNat else s.w = 0 ∧ s.h = 0
  /-- `ERRCODE`, `ERRCMD` and `ERRINFO` are 0 while `ERR = 0`; else the code is one of 1 to 12 (10_state.md R23, R24, 60_exceptions.md R261). -/
  errors : if s.err then 1 ≤ s.errcode.toNat ∧ s.errcode.toNat ≤ 12
    else s.errcode = 0 ∧ s.errcmd = 0 ∧ s.errinfo = ⟨0, 0, 0⟩
  /-- `BSLEN` is the number of bits in `BS` modulo `2^32` (10_state.md R31). -/
  sinkLength : s.bslen = BitVec.ofNat 32 s.bs.length

/-- Every register, block buffer, tag and the bit sink hold what reset leaves (10_state.md R44, 60_exceptions.md R280). -/
def State.holdsResetValues (s : State) : Prop :=
  (∀ k, s.regRead k = if k = 0 then 0x47324701 else 0) ∧
    (∀ b p i, s.sbAt b p i = none ∧ s.fbAt b p i = none ∧ s.qbAt b p i = none ∧ s.tagAt b p = .nat) ∧
    s.bs = [] ∧ s.errIrq = false

/-- The bank a command names (10_state.md R37). -/
def instrBank : Instr → Option BankId
  | .nop => none
  | .setw _ => none
  | .seth _ => none
  | .setq _ => none
  | .setmb _ _ => none
  | .create => none
  | .csc => none
  | .extractCur b => some b
  | .extractRef b => some b
  | .extractDiff b => some b
  | .fdct b _ => some b
  | .zz b _ => some b
  | .qnt b _ _ => some b
  | .rlcost b _ _ => some b
  | .rlemit b _ _ => some b
  | .dqnt b _ _ => some b
  | .izz b _ => some b
  | .idct b _ => some b
  | .recon b _ => some b
  | .copymb => none
  | .frameend => none
  | .srst => none

/-- `(p, i)` is where a scan of the planes that satisfy `sel`, ascending plane then ascending index, first meets a bad
element (60_exceptions.md R262, R270). -/
def LowestBad (sel : PlaneId → Prop) (bad : PlaneId → ElemId → Prop) (p : PlaneId) (i : ElemId) : Prop :=
  sel p ∧ bad p i ∧ (∀ i', i' < i → ¬ bad p i') ∧ ∀ p', p' < p → sel p' → ∀ i', ¬ bad p' i'

/-- The position of `MBPOS` is inside the macroblock grid of a stream (42_block_extract_recon.md R151). -/
def State.onGrid (s : State) : Prop :=
  s.stream = true ∧ s.mbx.toNat < s.w.toNat / 16 ∧ s.mby.toNat < s.h.toNat / 16

/-- The state after a fault whose `ERRINFO` fields are all 0 (60_exceptions.md R262, R275). -/
def State.faulted (s : State) (code : Nat) (word : Word) : State :=
  { s with err := true, errcode := BitVec.ofNat 8 code, errcmd := word, errinfo := ⟨0, 0, 0⟩ }

/-- The state after a fault at an element of a bank (60_exceptions.md R262, R275). -/
def State.faultedAt (s : State) (code : Nat) (word : Word) (b : BankId) (p : PlaneId) (i : ElemId) : State :=
  { s with err := true, errcode := BitVec.ofNat 8 code, errcmd := word, errinfo := ⟨b, p, i⟩ }

/-- The element width of a space in bits (20_memory.md R60). -/
def spaceWidth : Space → Nat
  | .reg => 32
  | .sb => 64
  | .fb => 64
  | .qb => 16
  | .src => 32
  | .cur => 24
  | .ref => 24
  | .bs => 1

/-- A value cut to the element width of a space and zero-extended (20_memory.md R62). -/
def cutTo (sp : Space) (v : BitVec 64) : BitVec 64 := BitVec.ofNat 64 (v.toNat % 2 ^ spaceWidth sp)

/-- The forward coefficient of vertical frequency `v` and horizontal frequency `u` of a plane of samples, in one
expression (43_transform.md R174). -/
def fdctValue (x : ElemId → F64) (v u : Fin 8) : F64 :=
  f64Mul (dot8 (basis v) fun r => dot8 (basis u) fun c => x (elemAt r c)) literals.kFwd

/-- The inverse sample at row `y`, column `x` of a plane of coefficients, in one expression (43_transform.md R176). -/
def idctValue (f : ElemId → F64) (y x : Fin 8) : F64 :=
  dot8 (fun v => basis v y) fun v => dot8 (fun u => basis u x) fun u => f (elemAt v u)

/-- `z` is the binary64 number nearest to `exact`, and its fraction is even where another number is as near
(00_scope.md R11). Values count least units, `exact` counts parts of `scale` to the least unit. -/
def NearestEven (z : F64) (exact : Int) (scale : Nat) : Prop :=
  ∀ w : F64, f64Finite w = true →
    (f64Val z * scale - exact).natAbs ≤ (f64Val w * scale - exact).natAbs ∧
      ((f64Val z * scale - exact).natAbs = (f64Val w * scale - exact).natAbs → f64Val w = f64Val z ∨ f64Frac z % 2 = 0)

/-- The least magnitude, in least units, that rounds to infinity: half a last place above the largest finite number. -/
@[irreducible] def f64OverflowAt : Nat := (2 ^ 54 - 1) * 2 ^ 2044

/-- The level `QNT` gives a coefficient, and whether it saturated (44_quant.md R192). -/
def levelOf (dc : Bool) (q : Nat) (k : ElemId) (c : F64) : Int × Bool := if dc = true ∧ k = 0 then qdc c else qac c q

/-- The reconstruction level `DQNT` gives a level (44_quant.md R197 to R199). -/
def reconstructionOf (dc : Bool) (q : Nat) (k : ElemId) (l : Int) : Int :=
  if dc = true ∧ k = 0 then (if l = 255 then 1024 else 8 * l)
  else if l = 0 then 0
  else max (-2048) (min 2047 (l.sign * (q * (2 * l.natAbs + 1) - (if q % 2 = 0 then 1 else 0))))

/-- The widths of the fields of an event: a table code and its sign, or the escape and its three fields (45_runlevel.md R214). -/
def eventBits (t : Config.Vlc) (e : RlEvent) : Nat :=
  match t.table e.last e.run e.level.natAbs with
  | some c => c.len + 1
  | none => t.escape.len + 15

/-- The bits a plane contributes (45_runlevel.md R215). -/
def planeBits (t : Config.Vlc) (coded dc : Bool) (l : Vector Int 64) : Nat :=
  (if dc then 8 else 0) + (if coded then ((events l dc).map (eventBits t)).sum else 0)

/-- The bits of an event, in the order they are emitted (45_runlevel.md R214): a table code and the sign bit (1 for a
negative level), or the escape code, the terminal flag, the run and the level's byte. -/
def eventStream (t : Config.Vlc) (e : RlEvent) : List Bool :=
  match t.table e.last e.run e.level.natAbs with
  | some c => fieldBits c.code c.len ++ [decide (e.level < 0)]
  | none =>
    fieldBits t.escape.code t.escape.len ++ [e.last] ++ fieldBits e.run 6 ++ fieldBits (e.level % 256).toNat 8

/-- The bits a plane contributes, in the order they are emitted (45_runlevel.md R215). -/
def planeStream (t : Config.Vlc) (coded dc : Bool) (l : Vector Int 64) : List Bool :=
  (if dc then fieldBits (l[0]).toNat 8 else []) ++ (if coded then (events l dc).flatMap (eventStream t) else [])

/-- A scanned level of the plane is not zero (44_quant.md R195). -/
def HasCoded (dc : Bool) (l : Vector Int 64) : Prop := ∃ k : ElemId, scanStart dc ≤ k.val ∧ l[k] ≠ 0

/-- The DC level of a plane is legal where the command looks at it (45_runlevel.md R216). -/
def DcLegal (dc : Bool) (l : Vector Int 64) : Prop := dc = true → 1 ≤ l[0] ∧ l[0] ≤ 255 ∧ l[0] ≠ 128

/-- An event the tables cannot carry: no entry, and a level outside the escape range (45_runlevel.md R220). -/
def Uncodable (t : Config.Vlc) (e : RlEvent) : Prop :=
  t.table e.last e.run e.level.natAbs = none ∧ (e.level < -127 ∨ 127 < e.level)

/-- A plane passes the checks of the run-level coder (45_runlevel.md R216). -/
def PlaneCodes (t : Config.Vlc) (coded dc : Bool) (l : Vector Int 64) : Prop :=
  DcLegal dc l ∧ (coded = true ↔ HasCoded dc l) ∧ ∀ e ∈ events l dc, ¬ Uncodable t e

/-- The levels of the six planes of a bank: all written, with these values (45_runlevel.md R216). -/
def State.holdsLevels (s : State) (b : BankId) (l : PlaneId → Vector Int 64) : Prop :=
  ∀ p i, ∃ v : Level, s.qbAt b p i = some v ∧ (l p)[i] = v.toInt

end Sys2Proof.Machine
end

