-- ==== Sys2Proof/Certificates/Slice0/Obligations.lean ====
section
/-! DEFINITION. The statements about the machine that the provers settle. -/

open Sys2Proof Sys2Proof.Machine

/-! ### Encoding (30_encoding.md) -/

/-- Decoding the encoding of any command gives the command back: no operand bit is dropped (R92, R94, R101). Every term
of `Instr` is well-formed, since its operand types are the fields of R92. -/
def Obligations.DecodeOfEncode : Prop := ∀ i : Instr, decode (encode i) = some i

/-- A word that decodes is the encoding of what it decodes to: no bit of a legal word is ignored (R92, R94, R95). -/
def Obligations.EncodeOfDecode : Prop := ∀ (w : Word) (i : Instr), decode w = some i → encode i = w

/-- The decoder, written from the match and mask columns of R94, accepts exactly the words that the formats and the
must-be-zero bits of R92 and R95 allow. -/
def Obligations.DecodeAcceptsExactlyLegalWords : Prop := ∀ w : Word, (decode w).isSome = legalWord w

/-- The worked encodings of R100, both ways. -/
def Obligations.WorkedEncodings : Prop :=
  ∀ p ∈ ([ (.setw 17, 0x01000011), (.seth 16, 0x02000010), (.setq 31, 0x0300001F), (.setmb 3 2, 0x04003002),
      (.extractCur 0, 0x20000000), (.extractDiff 1, 0x20800002), (.fdct 0 0x3F, 0x213F0000), (.zz 1 0x21, 0x22A10000),
      (.qnt 0 0x3F true, 0x233F0001), (.qnt 1 0x3F false, 0x23BF0000), (.rlcost 0 0 true, 0x24000001),
      (.rlemit 1 0x25 false, 0x25A50000), (.dqnt 0 0x3F true, 0x283F0001), (.izz 0 0x3F, 0x293F0000),
      (.idct 0 0x3F, 0x2A3F0000), (.recon 1 .inter, 0x2B800001) ] : List (Instr × Word)),
    decode p.2 = some p.1 ∧ encode p.1 = p.2

/-! ### The step, faults and the halted state (30_encoding.md R91, 60_exceptions.md) -/

/-- When the host presents a word that decodes to a command, the step is the command's meaning in the state whose
queue has let the word go and whose `pc` has advanced (R91, R26). -/
def Obligations.StepRunsDecodedCommand : Prop :=
  ∀ (s : State) (w : Word) (rest : List HostStep) (i : Instr),
    s.pending = .command w :: rest → decode w = some i →
      step s = exec i { s with pending := rest, pc := s.pc + 1 }

/-- In a block that is not halted, a presented word that matches no row faults `E_ILLEGAL` (R263): `ERR` is set, the word is
in `ERRCMD`, `ERRINFO` is 0 (R262) and nothing else changes (R275); the queue and `pc` are the model's (log entry 1). A
halted block discards the word (R276, HaltedBlockDiscards). -/
def Obligations.IllegalWordFaults : Prop :=
  ∀ (s : State) (w : Word) (rest : List HostStep),
    s.pending = .command w :: rest → s.err = false → legalWord w = false →
      step s = .next (({ s with pending := rest, pc := s.pc + 1 } : State).faulted 1 w)

/-- While halted every command but `SRST` changes nothing, and so does every word presented but that of `SRST`, legal or
not, but for the model's queue and `pc` (R276). -/
def Obligations.HaltedBlockDiscards : Prop :=
  (∀ (i : Instr) (s : State), s.err = true → i ≠ .srst → exec i s = .next s) ∧
  (∀ (s : State) (w : Word) (rest : List HostStep),
    s.pending = .command w :: rest → s.err = true → w ≠ 0x3F000000 →
      step s = .next { s with pending := rest, pc := s.pc + 1 })

/-- Every command, in every state, ends in a next state, and so does every step: the model never stops. -/
def Obligations.EveryStepAnswersNext : Prop :=
  (∀ (i : Instr) (s : State), ∃ t, exec i s = .next t) ∧ ∀ s : State, ∃ t, step s = .next t

/-- Faults are precise: a command that faults changes `ERR`, `ERRCODE`, `ERRCMD` and `ERRINFO` and nothing else, and
leaves its own word in `ERRCMD` (R275, R262). -/
def Obligations.FaultEntryIsPrecise : Prop :=
  ∀ (i : Instr) (s t : State), s.err = false → exec i s = .next t → t.err = true →
    t = { s with err := true, errcode := t.errcode, errcmd := encode i, errinfo := t.errinfo } ∧
      1 ≤ t.errcode.toNat ∧ t.errcode.toNat ≤ 12

/-- `CMDCNT` counts exactly the commands that complete without a fault, modulo `2^32`; `SRST` is not counted (R26, R120). -/
def Obligations.CompletedCommandsAreCounted : Prop :=
  ∀ (i : Instr) (s t : State), i ≠ .srst → s.err = false → exec i s = .next t →
    t.cmdcnt = if t.err then s.cmdcnt else s.cmdcnt + 1

/-- The two banks are independent: a command that names a bank leaves the other bank's buffers, tags and `CBP` register
as they were, and a command that names none but `SRST` leaves both (R37). -/
def Obligations.BanksAreIndependent : Prop :=
  ∀ (i : Instr) (s t : State) (b : BankId), i ≠ .srst → instrBank i ≠ some b → exec i s = .next t →
    t.bank b = s.bank b

/-- No command but `SRST` makes a written element unwritten (R35). -/
def Obligations.WrittenElementsStayWritten : Prop :=
  ∀ (i : Instr) (s t : State) (b : BankId) (p : PlaneId) (k : ElemId), i ≠ .srst → exec i s = .next t →
    ((s.sbAt b p k).isSome → (t.sbAt b p k).isSome) ∧ ((s.fbAt b p k).isSome → (t.fbAt b p k).isSome) ∧
      ((s.qbAt b p k).isSome → (t.qbAt b p k).isSome)

/-- Who writes the frame memories, the bit sink and the frame index: `REF` only `CREATE` and `FRAMEEND`; `CUR` only
`CREATE`, `CSC`, `RECON` and `COPYMB`; `SRC` only `SETW` and `SETH`; `BS` only `RLEMIT` and `SRST`; `FRAMEIDX` only
`CREATE`, `FRAMEEND` and `SRST` (R29, R38, R39, R61, R122, R123, R127, R129). -/
def Obligations.MemoriesChangeOnlyByTheirCommands : Prop :=
  ∀ (i : Instr) (s t : State), exec i s = .next t →
    (i ≠ .create → i ≠ .frameend → t.ref = s.ref) ∧
    (i ≠ .create → i ≠ .csc → i ≠ .copymb → (∀ b mode, i ≠ .recon b mode) → t.cur = s.cur) ∧
    ((∀ v, i ≠ .setw v) → (∀ v, i ≠ .seth v) → t.src = s.src) ∧
    ((∀ b m dc, i ≠ .rlemit b m dc) → i ≠ .srst → t.bs = s.bs) ∧
    (i ≠ .create → i ≠ .frameend → i ≠ .srst → t.frameidx = s.frameidx)

/-- The invariant `State.Inv`, kept by every step from every state that has it: frame dimensions (R21, R25, R127), clear
error registers while not halted and a fault code of 1 to 12 while halted (R23, R24, R261), `BSLEN` the length of `BS`
(R31); and two clauses that are the model's own choice, log entry 3: canonical frame memories and fresh fill numbers. -/
def Obligations.InvariantKeptByEveryStep : Prop := ∀ s t : State, s.Inv → step s = .next t → t.Inv

/-- The invariant holds after reset. Its clauses about registers rest on the reset table (R44); that the frame memories are
canonical and their fill numbers below `nextFree` there is the model's own choice of reset values (log entry 3). -/
def Obligations.InvariantHoldsAtReset : Prop := State.reset.Inv

/-- `E_CONFIG`: `CREATE` with `WREQ < 16` or `HREQ < 16` (R264). -/
def Obligations.ConfigFault : Prop :=
  ∀ s : State, s.err = false → (s.wreq.toNat < 16 ∨ s.hreq.toNat < 16) →
    exec .create s = .next (s.faulted 2 (encode .create))

/-- `E_NOSTREAM`: `CSC`, `EXTRACT`, `RECON`, `COPYMB` or `FRAMEEND` while `STREAM = 0` (R265). -/
def Obligations.NoStreamFault : Prop :=
  ∀ s : State, s.err = false → s.stream = false →
    ∀ (b : BankId) (mode : ReconMode), ∀ i ∈ [Instr.csc, .extractCur b, .extractRef b, .extractDiff b, .recon b mode,
      .copymb, .frameend], exec i s = .next (s.faulted 3 (encode i))

/-- `E_QUANT`: `SETQ 0`, and `QNT` or `DQNT` while `QUANT = 0` (R266). -/
def Obligations.QuantFault : Prop :=
  ∀ (s : State) (b : BankId) (m : PlaneMask) (dc : Bool), s.err = false →
    exec (.setq 0) s = .next (s.faulted 4 (encode (.setq 0))) ∧
    (s.quant = 0 → exec (.qnt b m dc) s = .next (s.faulted 4 (encode (.qnt b m dc))) ∧
      exec (.dqnt b m dc) s = .next (s.faulted 4 (encode (.dqnt b m dc))))

/-- `E_MBRANGE`: `EXTRACT`, `RECON` or `COPYMB` with `MBX >= W/16` or `MBY >= H/16` (R267). -/
def Obligations.PositionFault : Prop :=
  ∀ s : State, s.err = false → s.stream = true →
    (s.w.toNat / 16 ≤ s.mbx.toNat ∨ s.h.toNat / 16 ≤ s.mby.toNat) →
    ∀ (b : BankId) (mode : ReconMode), ∀ i ∈ [Instr.extractCur b, .extractRef b, .extractDiff b, .recon b mode, .copymb],
      exec i s = .next (s.faulted 5 (encode i))

/-- `E_UNWRITTEN` at the lowest plane, then the lowest index, that is unwritten among the planes the command reads (R268, R262). -/
def Obligations.UnwrittenFault : Prop :=
  ∀ (s : State) (b : BankId) (m : PlaneMask) (dc : Bool) (mode : ReconMode) (p : PlaneId) (k : ElemId), s.err = false →
    (LowestBad (fun p => m.getLsbD p = true) (fun p k => s.sbAt b p k = none) p k →
      exec (.fdct b m) s = .next (s.faultedAt 6 (encode (.fdct b m)) b p k)) ∧
    (LowestBad (fun p => m.getLsbD p = true) (fun p k => s.fbAt b p k = none) p k →
      exec (.zz b m) s = .next (s.faultedAt 6 (encode (.zz b m)) b p k) ∧
      exec (.izz b m) s = .next (s.faultedAt 6 (encode (.izz b m)) b p k) ∧
      exec (.idct b m) s = .next (s.faultedAt 6 (encode (.idct b m)) b p k) ∧
      (s.quant ≠ 0 → exec (.qnt b m dc) s = .next (s.faultedAt 6 (encode (.qnt b m dc)) b p k))) ∧
    (LowestBad (fun p => m.getLsbD p = true) (fun p k => s.qbAt b p k = none) p k → s.quant ≠ 0 →
      exec (.dqnt b m dc) s = .next (s.faultedAt 6 (encode (.dqnt b m dc)) b p k)) ∧
    (LowestBad (fun _ => True) (fun p k => s.qbAt b p k = none) p k →
      exec (.rlcost b m dc) s = .next (s.faultedAt 6 (encode (.rlcost b m dc)) b p k) ∧
      exec (.rlemit b m dc) s = .next (s.faultedAt 6 (encode (.rlemit b m dc)) b p k)) ∧
    (LowestBad (fun _ => True) (fun p k => s.sbAt b p k = none) p k → s.onGrid →
      exec (.recon b mode) s = .next (s.faultedAt 6 (encode (.recon b mode)) b p k))

/-- `E_ORDER` at the lowest plane of the mask whose tag is wrong, once all its planes are written: `ZZ` and `IDCT` on a
plane tagged `ZZ`, `QNT` and `IZZ` on one tagged `NAT` (R269, R262). -/
def Obligations.OrderFault : Prop :=
  ∀ (s : State) (b : BankId) (m : PlaneMask) (dc : Bool) (p : PlaneId), s.err = false → m.getLsbD p = true →
    (∀ p' k, m.getLsbD p'.val = true → (s.fbAt b p' k).isSome) →
    (s.tagAt b p = .zz → (∀ p', p' < p → m.getLsbD p'.val = true → s.tagAt b p' = .nat) →
      exec (.zz b m) s = .next (s.faultedAt 7 (encode (.zz b m)) b p 0) ∧
      exec (.idct b m) s = .next (s.faultedAt 7 (encode (.idct b m)) b p 0)) ∧
    (s.tagAt b p = .nat → (∀ p', p' < p → m.getLsbD p'.val = true → s.tagAt b p' = .zz) →
      exec (.izz b m) s = .next (s.faultedAt 7 (encode (.izz b m)) b p 0) ∧
      (s.quant ≠ 0 → exec (.qnt b m dc) s = .next (s.faultedAt 7 (encode (.qnt b m dc)) b p 0)))

/-- `E_NONFINITE` at the lowest plane, then index, of a value that is an infinity or a NaN: among the inputs of `FDCT`,
`IDCT`, `QNT` and `RECON`; among the results of `FDCT` and `IDCT` when every input is finite (R271, R262). -/
def Obligations.NonFiniteFault : Prop :=
  ∀ (s : State) (b : BankId) (m : PlaneMask) (dc : Bool) (mode : ReconMode) (x : PlaneId → ElemId → F64) (p : PlaneId)
    (k : ElemId), s.err = false →
    ((∀ p k, m.getLsbD p.val = true → s.sbAt b p k = some (x p k)) →
      (LowestBad (fun p => m.getLsbD p = true) (fun p k => f64Finite (x p k) = false) p k →
        exec (.fdct b m) s = .next (s.faultedAt 8 (encode (.fdct b m)) b p k)) ∧
      ((∀ p k, m.getLsbD p.val = true → f64Finite (x p k) = true) →
        LowestBad (fun p => m.getLsbD p = true)
          (fun p k => f64Finite (fdctValue (x p) (rowOf k) (colOf k)) = false) p k →
        exec (.fdct b m) s = .next (s.faultedAt 8 (encode (.fdct b m)) b p k))) ∧
    ((∀ p k, m.getLsbD p.val = true → s.fbAt b p k = some (x p k)) →
      ((∀ p, m.getLsbD p.val = true → s.tagAt b p = .nat) →
        (LowestBad (fun p => m.getLsbD p = true) (fun p k => f64Finite (x p k) = false) p k →
          exec (.idct b m) s = .next (s.faultedAt 8 (encode (.idct b m)) b p k)) ∧
        ((∀ p k, m.getLsbD p.val = true → f64Finite (x p k) = true) →
          LowestBad (fun p => m.getLsbD p = true)
            (fun p k => f64Finite (idctValue (x p) (rowOf k) (colOf k)) = false) p k →
          exec (.idct b m) s = .next (s.faultedAt 8 (encode (.idct b m)) b p k))) ∧
      ((∀ p, m.getLsbD p.val = true → s.tagAt b p = .zz) → s.quant ≠ 0 →
        LowestBad (fun p => m.getLsbD p = true) (fun p k => f64Finite (x p k) = false) p k →
        exec (.qnt b m dc) s = .next (s.faultedAt 8 (encode (.qnt b m dc)) b p k))) ∧
    ((∀ p k, s.sbAt b p k = some (x p k)) → s.onGrid →
      LowestBad (fun _ => True) (fun p k => f64Finite (x p k) = false) p k →
      exec (.recon b mode) s = .next (s.faultedAt 8 (encode (.recon b mode)) b p k))

/-- `E_DCLEVEL` of `DQNT`: with `dc = 1`, at the lowest plane of the mask whose level at index 0 is outside 1 to 255 or is 128 (R272, R197). -/
def Obligations.DequantizeDcLevelFault : Prop :=
  ∀ (s : State) (b : BankId) (m : PlaneMask) (l : PlaneId → ElemId → Level) (p : PlaneId), s.err = false →
    s.quant ≠ 0 → (∀ p k, m.getLsbD p.val = true → s.qbAt b p k = some (l p k)) →
    m.getLsbD p.val = true → ¬ (1 ≤ (l p 0).toInt ∧ (l p 0).toInt ≤ 255 ∧ (l p 0).toInt ≠ 128) →
    (∀ p', p' < p → m.getLsbD p'.val = true →
      1 ≤ (l p' 0).toInt ∧ (l p' 0).toInt ≤ 255 ∧ (l p' 0).toInt ≠ 128) →
    exec (.dqnt b m true) s = .next (s.faultedAt 9 (encode (.dqnt b m true)) b p 0)

/-- The faults of `RLCOST` and `RLEMIT` at the lowest plane that fails, in the order `E_DCLEVEL`, `E_EMPTY` or `E_CBP`,
`E_LEVEL`; `E_CBP` and `E_LEVEL` name the scanned index; `E_LEVEL` is said of the check under any code tables, those of the
block among them (R216, R272, R273, R274, R277). -/
def Obligations.RunLevelFaults : Prop :=
  ∀ (s : State) (b : BankId) (cmask : PlaneMask) (dc : Bool) (l : PlaneId → Vector Int 64) (p : PlaneId),
    s.err = false → s.holdsLevels b l → (∀ p', p' < p → PlaneCodes Config.vlc (cmask.getLsbD p'.val) dc (l p')) →
    ∀ i ∈ [Instr.rlcost b cmask dc, .rlemit b cmask dc],
      (¬ DcLegal dc (l p) → exec i s = .next (s.faultedAt 9 (encode i) b p 0)) ∧
      (DcLegal dc (l p) → cmask.getLsbD p.val = true → ¬ HasCoded dc (l p) →
        exec i s = .next (s.faultedAt 11 (encode i) b p 0)) ∧
      (∀ k : ElemId, DcLegal dc (l p) → cmask.getLsbD p.val = false → scanStart dc ≤ k.val → (l p)[k] ≠ 0 →
        (∀ k' : ElemId, k' < k → scanStart dc ≤ k'.val → (l p)[k'] = 0) →
        exec i s = .next (s.faultedAt 12 (encode i) b p k)) ∧
      (∀ (t : Config.Vlc) (before after : List RlEvent) (e : RlEvent),
        (∀ p', p' < p → PlaneCodes t (cmask.getLsbD p'.val) dc (l p')) → DcLegal dc (l p) → cmask.getLsbD p.val = true →
        events (l p) dc = before ++ e :: after → (∀ e' ∈ before, ¬ Uncodable t e') → Uncodable t e →
        checkRunLevel t b cmask dc s = some (trapAt .level b p e.index) ∧
          (t = Config.vlc → exec i s = .next (s.faultedAt 10 (encode i) b p e.index)))

/-! ### Configuration and stream commands (40_config_commands.md) -/

/-- `NOP`, the word `0x00000000`, completes, counts, and changes nothing else; while halted it is discarded (R121). -/
def Obligations.NopOnlyCounts : Prop :=
  encode .nop = 0x00000000 ∧ decode 0x00000000 = some .nop ∧
    ∀ s : State, exec .nop s = .next (if s.err then s else { s with cmdcnt := s.cmdcnt + 1 })

/-- `SETW` and `SETH` complete: the requested dimension takes the operand, and `SRC` keeps its content when the value does
not change and holds fresh unspecified content when it does (R122, R123; how unspecified content is held is log entry 3). -/
def Obligations.RequestedSizeIsSet : Prop :=
  ∀ (v : BitVec 16) (s : State), s.err = false →
    exec (.setw v) s = .next { s with
      wreq := v, cmdcnt := s.cmdcnt + 1, src := if v = s.wreq then s.src else .unspecified s.nextFree,
      nextFree := if v = s.wreq then s.nextFree else s.nextFree + 1 } ∧
    exec (.seth v) s = .next { s with
      hreq := v, cmdcnt := s.cmdcnt + 1, src := if v = s.hreq then s.src else .unspecified s.nextFree,
      nextFree := if v = s.hreq then s.nextFree else s.nextFree + 1 }

/-- `SETQ` with a step of 1 to 31 and `SETMB` with any 12-bit pair complete, stream or not: `QUANT` alone takes the step, or
the fields of `MBPOS` alone take the pair, and `CMDCNT` counts (R124, R125, R27). -/
def Obligations.StepAndPositionAreSet : Prop :=
  ∀ s : State, s.err = false →
    (∀ q : BitVec 5, q ≠ 0 → exec (.setq q) s = .next { s with quant := q, cmdcnt := s.cmdcnt + 1 }) ∧
    ∀ x y : BitVec 12, exec (.setmb x y) s = .next { s with mbx := x, mby := y, cmdcnt := s.cmdcnt + 1 }

/-- `CREATE` with both requested dimensions at least 16 completes: `W` and `H` are the requests rounded down to a multiple
of 16, `FRAMEIDX` is 0, `STREAM` is 1, `CUR` and `REF` become unspecified, each under a fresh fill number of its own (the
model's way, log entry 3), and all else is kept (R127). -/
def Obligations.CreateStartsAStream : Prop :=
  ∀ s : State, s.err = false → 16 ≤ s.wreq.toNat → 16 ≤ s.hreq.toNat →
    exec .create s = .next { s with
      w := BitVec.ofNat 16 (s.wreq.toNat / 16 * 16), h := BitVec.ofNat 16 (s.hreq.toNat / 16 * 16),
      frameidx := 0, stream := true, cur := .unspecified s.nextFree, ref := .unspecified (s.nextFree + 1),
      nextFree := s.nextFree + 2, cmdcnt := s.cmdcnt + 1 }

/-- `FRAMEEND` with a stream completes: every element of `REF` reads as that of `CUR`, `FRAMEIDX` counts modulo `2^32`,
`CUR` and all else are kept (R128). -/
def Obligations.FrameEndCopiesCurrent : Prop :=
  ∀ s : State, s.err = false → s.stream = true →
    ∃ t, exec .frameend s = .next t ∧ (∀ i, t.ref.read i = s.cur.read i) ∧
      t.frameidx.toNat = (s.frameidx.toNat + 1) % 2 ^ 32 ∧
      t = { s with ref := t.ref, frameidx := t.frameidx, cmdcnt := s.cmdcnt + 1 }

/-- `SRST` completes in every state, halted or not: every register reads its reset value, every block-buffer element is
unwritten, every tag `NAT`, `BS` empty, the frame memories as they were (R129, R44, R278). -/
def Obligations.SoftResetRestores : Prop :=
  ∀ s : State, ∃ t, exec .srst s = .next t ∧ t.holdsResetValues ∧ t.src = s.src ∧ t.cur = s.cur ∧ t.ref = s.ref

/-- The state after hardware reset, and raising `rst` in any state, halted or not: every register at its reset value,
every block-buffer element unwritten, every tag `NAT`, `BS` empty, `err_irq` low (R44, R290; `rst` as a host step is log entry 15). -/
def Obligations.HardwareResetRestores : Prop :=
  State.reset.holdsResetValues ∧
  ∀ (s : State) (rest : List HostStep), s.pending = .rst :: rest →
    ∃ t, step s = .next t ∧ t.holdsResetValues ∧ t.pending = rest

/-! ### Colour conversion (41_csc.md) -/

/-- `CSC` with a stream completes: every pixel of the `W` by `H` frame takes the converted source pixel at the same
place, by the formulas of R142 with their clips (a place `SRC` no longer has reads as a free value, log entry 17); no
other element of `CUR` and nothing else changes, the model's counter of free values apart (R141, R142). -/
def Obligations.FrameIsConverted : Prop :=
  ∀ s : State, s.err = false → s.stream = true →
    ∃ t, exec .csc s = .next t ∧
      (∀ x y, x < s.w.toNat → y < s.h.toNat →
        let r : Int := srcR (s.srcPx x y)
        let g : Int := srcG (s.srcPx x y)
        let b : Int := srcB (s.srcPx x y)
        (pixY (t.curPx x y) : Int) = max 0 (min 255 ((77 * r + 150 * g + 29 * b) / 256)) ∧
        (pixU (t.curPx x y) : Int) = max 0 (min 255 ((-43 * r - 85 * g + 128 * b) / 256 + 128)) ∧
        (pixV (t.curPx x y) : Int) = max 0 (min 255 ((128 * r - 107 * g - 21 * b) / 256 + 128))) ∧
      (∀ i, (∀ x y, x < s.w.toNat → y < s.h.toNat → i ≠ pixelIndex s.w.toNat x y) → t.cur.read i = s.cur.read i) ∧
      t = { s with cur := t.cur, cmdcnt := s.cmdcnt + 1, nextFree := t.nextFree }

/-- The clips of the converter never act, and where the extremes are reached (R143). -/
def Obligations.ColourClipsNeverAct : Prop :=
  (∀ r g b : Nat, r ≤ 255 → g ≤ 255 → b ≤ 255 →
    0 ≤ cscY r g b ∧ cscY r g b ≤ 255 ∧
    -128 ≤ cscSum (-43) (-85) 128 r g b ∧ cscSum (-43) (-85) 128 r g b ≤ 127 ∧
    -128 ≤ cscSum 128 (-107) (-21) r g b ∧ cscSum 128 (-107) (-21) r g b ≤ 127 ∧
    0 ≤ cscU r g b ∧ cscU r g b ≤ 255 ∧ 0 ≤ cscV r g b ∧ cscV r g b ≤ 255) ∧
  cscY 255 255 255 = 255 ∧ cscU 0 0 255 = 255 ∧ cscU 255 255 0 = 0 ∧ cscV 255 0 0 = 255 ∧ cscV 0 255 255 = 0

/-! ### Blocks (42_block_extract_recon.md) -/

/-- The three `EXTRACT` commands complete on the grid: the six planes of the bank's `SB` hold, as exact `f64`, the luma
tiles and the truncated 2 by 2 chroma averages of the macroblock in `CUR` or `REF`, or their differences; nothing else changes (R151 to R153). -/
def Obligations.MacroblockIsExtracted : Prop :=
  ∀ (s : State) (b : BankId), s.err = false → s.onGrid →
    let px : FrameMem 24 → Nat → Nat → Pixel := fun f x y =>
      f.read (pixelIndex s.w.toNat (16 * s.mbx.toNat + x) (16 * s.mby.toNat + y))
    let chroma : (Pixel → Nat) → FrameMem 24 → Fin 8 → Fin 8 → Nat := fun comp f r c =>
      (comp (px f (2 * c.val) (2 * r.val)) + comp (px f (2 * c.val + 1) (2 * r.val)) +
        comp (px f (2 * c.val) (2 * r.val + 1)) + comp (px f (2 * c.val + 1) (2 * r.val + 1))) / 4
    let ext : FrameMem 24 → PlaneId → Fin 8 → Fin 8 → Nat := fun f p r c =>
      if p = 4 then chroma pixU f r c else if p = 5 then chroma pixV f r c
      else pixY (px f (c.val + 8 * (p.val % 2)) (r.val + 8 * (p.val / 2)))
    ∀ i ∈ [(Instr.extractCur b, fun p r c => (ext s.cur p r c : Int)), (.extractRef b, fun p r c => (ext s.ref p r c : Int)),
        (.extractDiff b, fun p r c => (ext s.cur p r c : Int) - (ext s.ref p r c : Int))],
      ∃ t, exec i.1 s = .next t ∧
        (∀ p r c, t.sbAt b p (elemAt r c) = some (f64OfInt (i.2 p r c))) ∧
        t.bank b = { s.bank b with sb := (t.bank b).sb } ∧ (∀ b', b' ≠ b → t.bank b' = s.bank b') ∧
        t = { s with banks := t.banks, cmdcnt := s.cmdcnt + 1 }

/-- `RECON` on the grid, with every element of the bank's `SB` written and finite, completes: each of the 256 pixels takes
its luma from its own tile and its chroma from its 2 by 2 footprint, rounded on the exact value, the reference added in
`INTER` mode before the clip; no other element of `CUR` and nothing else changes (R156 to R158). -/
def Obligations.MacroblockIsReconstructed : Prop :=
  ∀ (s : State) (b : BankId) (mode : ReconMode) (v : PlaneId → ElemId → F64), s.err = false → s.onGrid →
    (∀ p k, s.sbAt b p k = some (v p k)) → (∀ p k, f64Finite (v p k) = true) →
    let sample : PlaneId → Nat → Nat → Int := fun p r c =>
      let k : ElemId := Fin.ofNat 64 (8 * r + c)
      max 0 (min 255 (f64Round (v p k) + (if mode = .inter then (s.extRef p k : Int) else 0)))
    ∃ t, exec (.recon b mode) s = .next t ∧
      (∀ x y, x < 16 → y < 16 →
        (pixY (t.cur.read (s.mbIndex x y)) : Int) = sample (Fin.ofNat 6 (x / 8 + 2 * (y / 8))) (y % 8) (x % 8) ∧
        (pixU (t.cur.read (s.mbIndex x y)) : Int) = sample 4 (y / 2) (x / 2) ∧
        (pixV (t.cur.read (s.mbIndex x y)) : Int) = sample 5 (y / 2) (x / 2)) ∧
      (∀ i, (∀ x y, x < 16 → y < 16 → i ≠ s.mbIndex x y) → t.cur.read i = s.cur.read i) ∧
      t = { s with cur := t.cur, cmdcnt := s.cmdcnt + 1 }

/-- `COPYMB` on the grid completes: the 256 pixels of the macroblock in `CUR` read as those of `REF`; no other element of
`CUR` and nothing else changes (R159). -/
def Obligations.MacroblockIsCopied : Prop :=
  ∀ s : State, s.err = false → s.onGrid →
    ∃ t, exec .copymb s = .next t ∧
      (∀ x y, x < 16 → y < 16 → t.cur.read (s.mbIndex x y) = s.ref.read (s.mbIndex x y)) ∧
      (∀ i, (∀ x y, x < 16 → y < 16 → i ≠ s.mbIndex x y) → t.cur.read i = s.cur.read i) ∧
      t = { s with cur := t.cur, cmdcnt := s.cmdcnt + 1 }

/-- The rounding of `RECON` is to nearest with halves up on the exact value, at every finite number (R157). -/
def Obligations.RoundingIsNearestHalvesUp : Prop :=
  ∀ x : F64, f64Finite x = true →
    2 * f64Round x * f64Unit - f64Unit ≤ 2 * f64Val x ∧ 2 * f64Val x < 2 * f64Round x * f64Unit + f64Unit

/-- `EXTRACT b, CUR` then `RECON b, INTRA` at one position: every luma component of the macroblock is unchanged, every
chroma component is the truncated average of its 2 by 2 footprint before the pair (R155). -/
def Obligations.ExtractThenReconstruct : Prop :=
  ∀ (s : State) (b : BankId), s.err = false → s.onGrid →
    ∃ t u, exec (.extractCur b) s = .next t ∧ exec (.recon b .intra) t = .next u ∧ u.err = false ∧
      ∀ x y, x < 16 → y < 16 →
        pixY (u.cur.read (s.mbIndex x y)) = pixY (s.cur.read (s.mbIndex x y)) ∧
        ∀ comp ∈ [pixU, pixV], comp (u.cur.read (s.mbIndex x y)) =
          (comp (s.cur.read (s.mbIndex (2 * (x / 2)) (2 * (y / 2)))) +
            comp (s.cur.read (s.mbIndex (2 * (x / 2) + 1) (2 * (y / 2)))) +
            comp (s.cur.read (s.mbIndex (2 * (x / 2)) (2 * (y / 2) + 1))) +
            comp (s.cur.read (s.mbIndex (2 * (x / 2) + 1) (2 * (y / 2) + 1)))) / 4

/-! ### Transform (43_transform.md) -/

/-- The arithmetic of the transforms, at every pair of finite operands: a sum and a product are each the nearest binary64
number to the exact result, ties to even, subnormals kept; they are finite exactly while the exact result is below the
overflow bound; a product has the sign of its operands, and a zero sum is `+0.0` unless both operands have the sign bit
(R11, R172). With an operand that is an infinity or a NaN neither result is finite, whatever the other operand (R173). -/
def Obligations.ArithmeticRoundsToNearestEven : Prop :=
  (∀ x y : F64, f64Finite x = true → f64Finite y = true →
    ((f64Finite (f64Add x y) = true ↔ (f64Val x + f64Val y).natAbs < f64OverflowAt) ∧
      (f64Finite (f64Add x y) = true → NearestEven (f64Add x y) (f64Val x + f64Val y) 1) ∧
      (f64Val x + f64Val y = 0 → f64Sign (f64Add x y) = (f64Sign x && f64Sign y))) ∧
    ((f64Finite (f64Mul x y) = true ↔ (f64Val x * f64Val y).natAbs < f64OverflowAt * f64Unit) ∧
      (f64Finite (f64Mul x y) = true → NearestEven (f64Mul x y) (f64Val x * f64Val y) f64Unit) ∧
      f64Sign (f64Mul x y) = (f64Sign x != f64Sign y))) ∧
  ∀ x y : F64, f64Finite x = false ∨ f64Finite y = false →
    f64Finite (f64Add x y) = false ∧ f64Finite (f64Mul x y) = false

/-- `FDCT` with the planes of its mask written and finite, and its results finite, completes: each plane of `FB` holds
the coefficients of R174 in natural order and is tagged `NAT`; planes not in the mask and everything else keep their content. -/
def Obligations.ForwardTransform : Prop :=
  ∀ (s : State) (b : BankId) (m : PlaneMask) (x : PlaneId → ElemId → F64), s.err = false →
    (∀ p k, m.getLsbD p.val = true → s.sbAt b p k = some (x p k) ∧ f64Finite (x p k) = true) →
    (∀ p v u, m.getLsbD p.val = true → f64Finite (fdctValue (x p) v u) = true) →
    ∃ t, exec (.fdct b m) s = .next t ∧
      (∀ p v u, m.getLsbD p.val = true → t.fbAt b p (elemAt v u) = some (fdctValue (x p) v u) ∧ t.tagAt b p = .nat) ∧
      (∀ p k, m.getLsbD p.val = false → t.fbAt b p k = s.fbAt b p k ∧ t.tagAt b p = s.tagAt b p) ∧
      t.bank b = { s.bank b with fb := (t.bank b).fb, fbord := (t.bank b).fbord } ∧
      (∀ b', b' ≠ b → t.bank b' = s.bank b') ∧ t = { s with banks := t.banks, cmdcnt := s.cmdcnt + 1 }

/-- `IDCT` with the planes of its mask written, tagged `NAT` and finite, and its results finite, completes: each plane of
`SB` holds the samples of R176, unrounded; `FB`, its tags, planes not in the mask and everything else keep their content. -/
def Obligations.InverseTransform : Prop :=
  ∀ (s : State) (b : BankId) (m : PlaneMask) (x : PlaneId → ElemId → F64), s.err = false →
    (∀ p k, m.getLsbD p.val = true → s.fbAt b p k = some (x p k) ∧ f64Finite (x p k) = true ∧ s.tagAt b p = .nat) →
    (∀ p y c, m.getLsbD p.val = true → f64Finite (idctValue (x p) y c) = true) →
    ∃ t, exec (.idct b m) s = .next t ∧
      (∀ p y c, m.getLsbD p.val = true → t.sbAt b p (elemAt y c) = some (idctValue (x p) y c)) ∧
      (∀ p k, m.getLsbD p.val = false → t.sbAt b p k = s.sbAt b p k) ∧
      t.bank b = { s.bank b with sb := (t.bank b).sb } ∧
      (∀ b', b' ≠ b → t.bank b' = s.bank b') ∧ t = { s with banks := t.banks, cmdcnt := s.cmdcnt + 1 }

/-- A plane written by `EXTRACT`, `FDCT`, `IDCT` or `DQNT` never holds a non-finite value (R173). -/
def Obligations.CommandsStoreFiniteValues : Prop :=
  ∀ (s t : State) (b : BankId) (m : PlaneMask) (dc : Bool) (p : PlaneId) (k : ElemId) (v : F64), s.err = false →
    t.err = false →
    ((exec (.extractCur b) s = .next t ∨ exec (.extractRef b) s = .next t ∨ exec (.extractDiff b) s = .next t) →
      t.sbAt b p k = some v → f64Finite v = true) ∧
    (m.getLsbD p.val = true → exec (.idct b m) s = .next t → t.sbAt b p k = some v → f64Finite v = true) ∧
    (m.getLsbD p.val = true → (exec (.fdct b m) s = .next t ∨ exec (.dqnt b m dc) s = .next t) →
      t.fbAt b p k = some v → f64Finite v = true)

/-- `ZZ` with the planes of its mask written and tagged `NAT` completes: position `k` takes, bit for bit, the pattern at
`ZIGZAG[k]`, the tag becomes `ZZ`; planes not in the mask and everything else keep their content (R179). -/
def Obligations.ZigzagReorders : Prop :=
  ∀ (s : State) (b : BankId) (m : PlaneMask), s.err = false →
    (∀ p k, m.getLsbD p.val = true → (s.fbAt b p k).isSome ∧ s.tagAt b p = .nat) →
    ∃ t, exec (.zz b m) s = .next t ∧
      (∀ p k, m.getLsbD p.val = true → t.fbAt b p k = s.fbAt b p (zigzag k) ∧ t.tagAt b p = .zz) ∧
      (∀ p k, m.getLsbD p.val = false → t.fbAt b p k = s.fbAt b p k ∧ t.tagAt b p = s.tagAt b p) ∧
      t.bank b = { s.bank b with fb := (t.bank b).fb, fbord := (t.bank b).fbord } ∧
      (∀ b', b' ≠ b → t.bank b' = s.bank b') ∧ t = { s with banks := t.banks, cmdcnt := s.cmdcnt + 1 }

/-- `IZZ` with the planes of its mask written and tagged `ZZ` completes: the element at `ZIGZAG[k]` takes, bit for bit,
the pattern at position `k`, the tag becomes `NAT`; planes not in the mask and everything else keep their content (R180). -/
def Obligations.InverseZigzagReorders : Prop :=
  ∀ (s : State) (b : BankId) (m : PlaneMask), s.err = false →
    (∀ p k, m.getLsbD p.val = true → (s.fbAt b p k).isSome ∧ s.tagAt b p = .zz) →
    ∃ t, exec (.izz b m) s = .next t ∧
      (∀ p k, m.getLsbD p.val = true → t.fbAt b p (zigzag k) = s.fbAt b p k ∧ t.tagAt b p = .nat) ∧
      (∀ p k, m.getLsbD p.val = false → t.fbAt b p k = s.fbAt b p k ∧ t.tagAt b p = s.tagAt b p) ∧
      t.bank b = { s.bank b with fb := (t.bank b).fb, fbord := (t.bank b).fbord } ∧
      (∀ b', b' ≠ b → t.bank b' = s.bank b') ∧ t = { s with banks := t.banks, cmdcnt := s.cmdcnt + 1 }

/-- `ZZ` followed by `IZZ` on the same planes restores every pattern and every tag, and so does `IZZ` followed by `ZZ`:
the two commands together change `CMDCNT` alone (R181). -/
def Obligations.ZigzagRoundTrip : Prop :=
  ∀ (s : State) (b : BankId) (m : PlaneMask), s.err = false →
    (∀ p k, m.getLsbD p.val = true → (s.fbAt b p k).isSome) →
    ((∀ p : PlaneId, m.getLsbD p.val = true → s.tagAt b p = .nat) →
      ∃ t, exec (.zz b m) s = .next t ∧ exec (.izz b m) t = .next { s with cmdcnt := s.cmdcnt + 1 + 1 }) ∧
    ((∀ p : PlaneId, m.getLsbD p.val = true → s.tagAt b p = .zz) →
      ∃ t, exec (.izz b m) s = .next t ∧ exec (.zz b m) t = .next { s with cmdcnt := s.cmdcnt + 1 + 1 })

/-! ### Quantizer (44_quant.md) -/

/-- `QNT` with `QUANT >= 1` and the planes of its mask written, tagged `ZZ` and finite, completes: `QB` holds the levels
of R193 and R194, bit `p` of `CBP<b>` says whether a scanned level is not zero, `SAT` is set when a level was clamped
and never cleared; planes not in the mask, their `CBP` bits, `FB` and everything else keep their content (R192, R195, R30). -/
def Obligations.PlanesAreQuantized : Prop :=
  ∀ (s : State) (b : BankId) (m : PlaneMask) (dc : Bool) (x : PlaneId → ElemId → F64), s.err = false → s.quant ≠ 0 →
    (∀ p k, m.getLsbD p.val = true → s.fbAt b p k = some (x p k) ∧ f64Finite (x p k) = true ∧ s.tagAt b p = .zz) →
    let q := s.quant.toNat
    ∃ t, exec (.qnt b m dc) s = .next t ∧
      (∀ p k, m.getLsbD p.val = true → ∃ l : Level, t.qbAt b p k = some l ∧ l.toInt = (levelOf dc q k (x p k)).1) ∧
      (∀ p k, m.getLsbD p.val = false → t.qbAt b p k = s.qbAt b p k) ∧
      (∀ p : PlaneId, m.getLsbD p.val = true → ((t.cbpAt b).getLsbD p.val = true ↔
        ∃ k : ElemId, scanStart dc ≤ k.val ∧ (levelOf dc q k (x p k)).1 ≠ 0)) ∧
      (∀ p : PlaneId, m.getLsbD p.val = false → (t.cbpAt b).getLsbD p.val = (s.cbpAt b).getLsbD p.val) ∧
      (t.sat = true ↔ s.sat = true ∨ ∃ (p : PlaneId) (k : ElemId), m.getLsbD p.val = true ∧ (levelOf dc q k (x p k)).2 = true) ∧
      t.bank b = { s.bank b with qb := (t.bank b).qb, cbp := (t.bank b).cbp } ∧
      (∀ b', b' ≠ b → t.bank b' = s.bank b') ∧ t = { s with banks := t.banks, sat := t.sat, cmdcnt := s.cmdcnt + 1 }

/-- The DC quantizer at every finite coefficient: which level each interval of values gives and when it saturates; the
level is always in 1 to 255 and never 128 (R193). -/
def Obligations.DcQuantizerByInterval : Prop :=
  ∀ c : F64, f64Finite c = true →
    let v := f64Val c
    let u : Int := f64Unit
    (v ≤ -8 * u → qdc c = (1, true)) ∧
    (-8 * u < v → v < 8 * u → qdc c = (1, false)) ∧
    (1024 * u ≤ v → v < 1032 * u → qdc c = (255, false)) ∧
    (2040 * u ≤ v → qdc c = (254, true)) ∧
    (8 * u ≤ v → v < 2040 * u → ¬ (1024 * u ≤ v ∧ v < 1032 * u) →
      (qdc c).2 = false ∧ 8 * (qdc c).1 * u ≤ v ∧ v < 8 * ((qdc c).1 + 1) * u) ∧
    1 ≤ (qdc c).1 ∧ (qdc c).1 ≤ 255 ∧ (qdc c).1 ≠ 128

/-- The AC quantizer at every finite coefficient and step: the level's magnitude is the largest `m` with
`m * 2 * q <= abs(c)`, clipped to 127 with the report, its sign that of the coefficient (R194). -/
def Obligations.AcQuantizerTruncates : Prop :=
  ∀ (c : F64) (q : Nat), f64Finite c = true → 1 ≤ q → q ≤ 31 →
    let l := (qac c q).1
    let unit := 2 * q * f64Unit
    l.natAbs ≤ 127 ∧ ((qac c q).2 = true ↔ 128 * unit ≤ f64Mag c) ∧
    ((qac c q).2 = true → l.natAbs = 127) ∧
    ((qac c q).2 = false → l.natAbs * unit ≤ f64Mag c ∧ f64Mag c < (l.natAbs + 1) * unit) ∧
    (f64Val c < 0 → l ≤ 0) ∧ (0 ≤ f64Val c → 0 ≤ l)

/-- `DQNT` with `QUANT >= 1`, the planes of its mask written and, with `dc = 1`, their DC levels legal, completes: `FB`
holds the exact `f64` of the reconstruction levels of R198 and R199 and is tagged `ZZ`; planes not in the mask and everything else keep their content (R197). -/
def Obligations.PlanesAreDequantized : Prop :=
  ∀ (s : State) (b : BankId) (m : PlaneMask) (dc : Bool) (l : PlaneId → ElemId → Level), s.err = false → s.quant ≠ 0 →
    (∀ p k, m.getLsbD p.val = true → s.qbAt b p k = some (l p k)) →
    (dc = true → ∀ p : PlaneId, m.getLsbD p.val = true →
      1 ≤ (l p 0).toInt ∧ (l p 0).toInt ≤ 255 ∧ (l p 0).toInt ≠ 128) →
    ∃ t, exec (.dqnt b m dc) s = .next t ∧
      (∀ p k, m.getLsbD p.val = true →
        t.fbAt b p k = some (f64OfInt (reconstructionOf dc s.quant.toNat k (l p k).toInt)) ∧ t.tagAt b p = .zz) ∧
      (∀ p k, m.getLsbD p.val = false → t.fbAt b p k = s.fbAt b p k ∧ t.tagAt b p = s.tagAt b p) ∧
      t.bank b = { s.bank b with fb := (t.bank b).fb, fbord := (t.bank b).fbord } ∧
      (∀ b', b' ≠ b → t.bank b' = s.bank b') ∧ t = { s with banks := t.banks, cmdcnt := s.cmdcnt + 1 }

/-- The DC round trip: a finite coefficient returns as itself exactly when it is a multiple of 8 from 8 to 2032; 1024
travels as level 255; 0 returns as 8 (level 1) and 2040 as 2032 (level 254); for a coefficient from 8 up to, not at, 2040 the
error is at least 0 and below 8; the step plays no part, `qdc` and `ddc` having no such argument (R202). -/
def Obligations.DcRoundTrip : Prop :=
  (∀ c : F64, f64Finite c = true →
    (f64Val c = ddc (qdc c).1 * f64Unit ↔ ∃ n : Nat, 1 ≤ n ∧ n ≤ 254 ∧ f64Val c = 8 * n * f64Unit)) ∧
    (qdc (f64OfInt 1024)).1 = 255 ∧ ddc 255 = 1024 ∧ (qdc (f64OfInt 0)).1 = 1 ∧ ddc (qdc (f64OfInt 0)).1 = 8 ∧
    (qdc (f64OfInt 2040)).1 = 254 ∧ ddc (qdc (f64OfInt 2040)).1 = 2032 ∧
    ∀ c : F64, f64Finite c = true → 8 * (f64Unit : Int) ≤ f64Val c → f64Val c < 2040 * (f64Unit : Int) →
      0 ≤ f64Val c - ddc (qdc c).1 * f64Unit ∧ f64Val c - ddc (qdc c).1 * f64Unit < 8 * f64Unit

/-- The AC round trip at every finite coefficient and step: magnitudes below `2*q` return as 0; where neither clip acts
the error is at most `q` for an odd step, and in `[-(q-1), q+1)` in magnitude for an even one; a result that is not 0 has the coefficient's sign (R201). -/
def Obligations.AcRoundTrip : Prop :=
  ∀ (x : F64) (q : Nat), f64Finite x = true → 1 ≤ q → q ≤ 31 →
    let l := (qac x q).1
    let y := dac l q
    let u : Int := f64Unit
    let err : Int := f64Mag x - y.natAbs * u
    ((f64Mag x : Int) < 2 * q * u → y = 0) ∧
    (2 * q * u ≤ f64Mag x → (f64Mag x : Int) < 256 * q * u → (y.natAbs : Int) = dacMagnitude l q →
      (q % 2 = 1 → -(q * u) ≤ err ∧ err ≤ q * u) ∧
      (q % 2 = 0 → -((q - 1) * u) ≤ err ∧ err < (q + 1) * u)) ∧
    (0 < y → 0 < f64Val x) ∧ (y < 0 → f64Val x < 0)

/-! ### Run-level coder (45_runlevel.md) -/

/-- The events of a plane: one for each scanned level that is not zero, in ascending index; its run counts the zeros
since the event before it (or since the start), its flag marks the final one; a run fits the 6-bit escape field (R213). -/
def Obligations.EventsOfAPlane : Prop :=
  ∀ (l : Vector Int 64) (dc : Bool),
    let nz := (List.finRange 64).filter fun k => decide (scanStart dc ≤ k.val) && decide (l[k] ≠ 0)
    ∃ hlen : (events l dc).length = nz.length,
      (∀ (j : Nat) (h : j < (events l dc).length),
        (events l dc)[j].index = nz[j]'(hlen ▸ h) ∧ (events l dc)[j].level = l[nz[j]'(hlen ▸ h)] ∧
        ((events l dc)[j].last = true ↔ j + 1 = nz.length) ∧
        (events l dc)[j].run + (if j = 0 then scanStart dc else ((nz[j - 1]'(by omega)).val + 1)) = (nz[j]'(hlen ▸ h)).val) ∧
      ∀ e ∈ events l dc, e.run + scanStart dc ≤ 63

/-- `RLCOST` on a bank whose six planes are written and pass the checks of R216 completes: `BITCNT` takes the sum of the
field widths, and nothing but it and `CMDCNT` changes, `BS` least of all (R217, R215). -/
def Obligations.CostIsCounted : Prop :=
  ∀ (s : State) (b : BankId) (cmask : PlaneMask) (dc : Bool) (l : PlaneId → Vector Int 64), s.err = false →
    s.holdsLevels b l → (∀ p : PlaneId, PlaneCodes Config.vlc (cmask.getLsbD p.val) dc (l p)) →
    exec (.rlcost b cmask dc) s = .next { s with
      bitcnt := BitVec.ofNat 32 ((List.finRange 6).map fun p : PlaneId =>
        planeBits Config.vlc (cmask.getLsbD p.val) dc (l p)).sum,
      cmdcnt := s.cmdcnt + 1 }

/-- `RLEMIT` on the same states completes: the bits of the planes in ascending order are appended to `BS`, `BSLEN` grows
by their number modulo `2^32`, `BITCNT` takes it, and nothing else but `CMDCNT` changes (R218, R214, R215, R41). -/
def Obligations.BitsAreEmitted : Prop :=
  ∀ (s : State) (b : BankId) (cmask : PlaneMask) (dc : Bool) (l : PlaneId → Vector Int 64), s.err = false →
    s.holdsLevels b l → (∀ p : PlaneId, PlaneCodes Config.vlc (cmask.getLsbD p.val) dc (l p)) →
    let n := ((List.finRange 6).map fun p : PlaneId => planeBits Config.vlc (cmask.getLsbD p.val) dc (l p)).sum
    exec (.rlemit b cmask dc) s = .next { s with
      bs := s.bs ++ (List.finRange 6).flatMap fun p : PlaneId => planeStream Config.vlc (cmask.getLsbD p.val) dc (l p),
      bslen := s.bslen + BitVec.ofNat 32 n, bitcnt := BitVec.ofNat 32 n, cmdcnt := s.cmdcnt + 1 }

/-- The cost estimate equals the bits emitted: on the same input `RLCOST` and `RLEMIT` write the same `BITCNT`, fault
together, and where they complete `RLEMIT` appends exactly that many bits (R219). -/
def Obligations.CostEqualsEmission : Prop :=
  ∀ (s t u : State) (b : BankId) (cmask : PlaneMask) (dc : Bool), s.err = false →
    exec (.rlcost b cmask dc) s = .next t → exec (.rlemit b cmask dc) s = .next u →
    t.bitcnt = u.bitcnt ∧ t.err = u.err ∧ t.errcode = u.errcode ∧ t.errinfo = u.errinfo ∧
      (u.err = false → ∃ added, u.bs = s.bs ++ added ∧ added.length = t.bitcnt.toNat)

/-- What the block produces it can code: after a completed `QNT` of all six planes, `RLCOST` and `RLEMIT` with the `CBP`
register as mask and the same `dc` complete, whatever the code tables are (R220, R195, R212). -/
def Obligations.QuantizedMacroblockIsCodable : Prop :=
  ∀ (s t : State) (b : BankId) (dc : Bool), s.err = false → exec (.qnt b maskAll dc) s = .next t → t.err = false →
    ∃ u v, exec (.rlcost b (t.cbpAt b) dc) t = .next u ∧ u.err = false ∧
      exec (.rlemit b (t.cbpAt b) dc) t = .next v ∧ v.err = false

/-! ### Host access (20_memory.md) -/

/-- `MemWrite`, halted or not. Inside a block buffer or a frame memory: the element then reads as the value cut to the
element width, every other element of these spaces reads as before, an `FB` write sets its plane's tag to `NAT` and no
other tag changes, and no register changes but the views `TAGS`, `VALID0` and `VALID1` of R32, which follow the tags and the
written elements. To `REG` or `BS`, or outside a space: nothing changes but the queue (R62, R63). -/
def Obligations.HostWritesOneElement : Prop :=
  ∀ (s : State) (sp : Space) (i : Nat) (v : BitVec 64) (rest : List HostStep), s.pending = .memWrite sp i v :: rest →
    (sp ≠ .reg → sp ≠ .bs → i < s.spaceSize sp →
      ∃ t, step s = .next t ∧ t.spaceRead sp i = some (cutTo sp v) ∧
        (∀ sp' j, sp' ≠ .reg → (sp', j) ≠ (sp, i) → t.spaceRead sp' j = s.spaceRead sp' j) ∧
        (∀ b p, t.tagAt b p = if sp = .fb ∧ b = blockBank i ∧ p = blockPlane i then .nat else s.tagAt b p) ∧
        (∀ k, k ≠ 16 → k ≠ 17 → k ≠ 18 → t.regRead k = s.regRead k) ∧
        t = { s with pending := rest, banks := t.banks, src := t.src, cur := t.cur, ref := t.ref }) ∧
    ((sp = .reg ∨ sp = .bs ∨ s.spaceSize sp ≤ i) → step s = .next { s with pending := rest })

/-- `MemRead` hands over the element where the spec gives it a value, and no read changes anything of the block: only the
model's own queue, counter and read value change (R62, R63). -/
def Obligations.HostReadHasNoSideEffect : Prop :=
  ∀ (s : State) (sp : Space) (i : Nat) (rest : List HostStep), s.pending = .memRead sp i :: rest →
    ∃ t, step s = .next t ∧ (∀ v, s.spaceRead sp i = some v → t.hostData = v) ∧
      t = { s with pending := rest, hostData := t.hostData, nextFree := t.nextFree }

/-- Bus accesses. Under any map `m` (R8) a bus read hands over the bytes of the element it selects, a refused one as many
free bytes as were asked for, and neither changes anything of the block (R63); a bus write is the `MemWrite` of the element
it selects, and a refused one changes nothing (R62, R68). The machine takes the default map (R71): an aligned 8-byte access
at `a[43:40] = n`, `a[39:3] = i` is one of element `i` of space `n`, its bytes least significant first; another size, another
alignment and (log entry 8) ids from 8 on are refused. -/
def Obligations.BusSlotsAreElements : Prop :=
  (∀ (m : BusMap) (s : State) (a size : Nat) (rest : List HostStep), s.pending = .busRead a size :: rest →
    ∃ t, stepWith m s = .next t ∧
      (∀ sp i v, m.select a size = some (sp, i) → s.spaceRead sp i = some v → t.busData = m.toBytes sp v) ∧
      (m.select a size = none → t.busData.length = size) ∧
      t = { s with pending := rest, hostData := t.hostData, busData := t.busData, nextFree := t.nextFree }) ∧
  (∀ (m : BusMap) (s : State) (a : Nat) (bytes : List Byte) (rest : List HostStep),
    s.pending = .busWrite a bytes :: rest →
      (∀ sp i, m.select a bytes.length = some (sp, i) →
        stepWith m s = stepWith m { s with pending := .memWrite sp i (m.ofBytes sp bytes) :: rest }) ∧
      (m.select a bytes.length = none → stepWith m s = .next { s with pending := rest })) ∧
  step = stepWith defaultBusMap ∧
  (∀ (n i : Nat) (sp : Space), spaceOfId n = some sp → i < 2 ^ 37 →
    defaultBusMap.select (n * 2 ^ 40 + i * 8) 8 = some (sp, i)) ∧
  (∀ a size : Nat, size ≠ 8 ∨ a % 8 ≠ 0 ∨ 8 * 2 ^ 40 ≤ a → defaultBusMap.select a size = none) ∧
  ∀ (sp : Space) (v : BitVec 64),
    defaultBusMap.toBytes sp v = (List.range 8).map (fun k => BitVec.ofNat 8 (v.toNat / 256 ^ k)) ∧
    defaultBusMap.ofBytes sp (defaultBusMap.toBytes sp v) = v

/-- What a register reads as, in every state: the fields of `STATUS`, `ERRINFO` and `MBPOS` in their places and 0 in every
other bit, `ID` and the plain registers, the views `TAGS` and `VALID<b>` computed from the tags and the written elements, 0
from register 19 on (R21 to R32); `MemRead` of `REG` hands over that value (R60), and `err_irq` is `STATUS.ERR` (R280). -/
def Obligations.RegistersRead : Prop :=
  ∀ s : State,
    s.regRead 0 = 0x47324701 ∧
    (s.regRead 1).toNat = s.stream.toNat + 2 * s.err.toNat + 4 * s.sat.toNat + 256 * s.errcode.toNat ∧
    s.regRead 2 = s.errcmd ∧
    (s.regRead 3).toNat = s.errinfo.plane.val + 256 * s.errinfo.index.val + 65536 * s.errinfo.bank.val ∧
    (s.regRead 4).toNat = s.wreq.toNat ∧ (s.regRead 5).toNat = s.hreq.toNat ∧
    (s.regRead 6).toNat = s.w.toNat ∧ (s.regRead 7).toNat = s.h.toNat ∧
    (s.regRead 8).toNat = s.mby.toNat + 4096 * s.mbx.toNat ∧ (s.regRead 9).toNat = s.quant.toNat ∧
    s.regRead 10 = s.frameidx ∧ s.regRead 11 = s.cmdcnt ∧
    (∀ b : BankId, (s.regRead (12 + b.val)).toNat = (s.cbpAt b).toNat) ∧
    s.regRead 14 = s.bitcnt ∧ s.regRead 15 = s.bslen ∧
    (∀ n, (s.regRead 16).getLsbD n = true ↔
      ∃ (b : BankId) (p : PlaneId), n = 8 * b.val + p.val ∧ s.tagAt b p = .zz) ∧
    (∀ (b : BankId) (n : Nat), (s.regRead (17 + b.val)).getLsbD n = true ↔
      ∃ p : PlaneId, (n = p.val ∧ ∀ i, (s.sbAt b p i).isSome) ∨ (n = 8 + p.val ∧ ∀ i, (s.fbAt b p i).isSome) ∨
        (n = 16 + p.val ∧ ∀ i, (s.qbAt b p i).isSome)) ∧
    (∀ k, 19 ≤ k → s.regRead k = 0) ∧
    (∀ k, k < 256 → s.spaceRead .reg k = some ((s.regRead k).setWidth 64)) ∧
    s.errIrq = (s.regRead 1).getLsbD 1
end

