-- ==== Sys2Proof/Laws/Literals.lean ====
section
/-! SUPPORT. The value of each parameter of the record of literals, true by unfolding; and that the quantizer field holds
no step above `QUANT_MAX`. -/

namespace Sys2Proof.Machine

@[simp] theorem literals_kFwd : literals.kFwd = 0x3FD0000000000000 := rfl
@[simp] theorem literals_kInv : literals.kInv = none := rfl
@[simp] theorem literals_basis : literals.basis = basisRows := rfl
@[simp] theorem literals_zigzag : literals.zigzag = zigzagTable := rfl
@[simp] theorem literals_dcDiv : literals.dcDiv = 8 := rfl
@[simp] theorem literals_dcZeroSub : literals.dcZeroSub = 1 := rfl
@[simp] theorem literals_dcRsvIn : literals.dcRsvIn = 128 := rfl
@[simp] theorem literals_dcRsvOut : literals.dcRsvOut = 255 := rfl
@[simp] theorem literals_dcMax : literals.dcMax = 254 := rfl
@[simp] theorem literals_acLevelMax : literals.acLevelMax = 127 := rfl
@[simp] theorem literals_quantMin : literals.quantMin = 1 := rfl
@[simp] theorem literals_quantMax : literals.quantMax = 31 := rfl
@[simp] theorem literals_recMin : literals.recMin = -2048 := rfl
@[simp] theorem literals_recMax : literals.recMax = 2047 := rfl
@[simp] theorem literals_pixMin : literals.pixMin = 0 := rfl
@[simp] theorem literals_pixMax : literals.pixMax = 255 := rfl
@[simp] theorem literals_chromaOffset : literals.chromaOffset = 128 := rfl
@[simp] theorem literals_cscY : literals.cscY = ⟨77, 150, 29⟩ := rfl
@[simp] theorem literals_cscU : literals.cscU = ⟨-43, -85, 128⟩ := rfl
@[simp] theorem literals_cscV : literals.cscV = ⟨128, -107, -21⟩ := rfl
@[simp] theorem literals_cscShift : literals.cscShift = 8 := rfl
@[simp] theorem literals_dcBits : literals.dcBits = 8 := rfl
@[simp] theorem literals_escLastBits : literals.escLastBits = 1 := rfl
@[simp] theorem literals_escRunBits : literals.escRunBits = 6 := rfl
@[simp] theorem literals_escLevelBits : literals.escLevelBits = 8 := rfl
@[simp] theorem literals_escLevelMin : literals.escLevelMin = -127 := rfl
@[simp] theorem literals_escLevelMax : literals.escLevelMax = 127 := rfl
@[simp] theorem literals_signPos : literals.signPos = 0 := rfl
@[simp] theorem literals_signNeg : literals.signNeg = 1 := rfl

/-- `QUANT_MAX` is enforced by the width of the field (40_config_commands.md R124). -/
theorem quant_le_max (q : BitVec 5) : q.toNat ≤ literals.quantMax := by
  rw [literals_quantMax]; omega

end Sys2Proof.Machine
end

