-- ==== Sys2Proof/Laws/State.lean ====
section
/-! SUPPORT. One lemma for each field and each named update of the state, each true by unfolding. -/

namespace Sys2Proof.Machine

/-! `takeFault` -/

@[simp] theorem takeFault_stream (t : Trap) (word : Word) (s : State) : (takeFault t word s).stream = s.stream := rfl
@[simp] theorem takeFault_err (t : Trap) (word : Word) (s : State) : (takeFault t word s).err = true := rfl
@[simp] theorem takeFault_sat (t : Trap) (word : Word) (s : State) : (takeFault t word s).sat = s.sat := rfl
@[simp] theorem takeFault_errcode (t : Trap) (word : Word) (s : State) : (takeFault t word s).errcode = faultNumber t.code := rfl
@[simp] theorem takeFault_errcmd (t : Trap) (word : Word) (s : State) : (takeFault t word s).errcmd = word := rfl
@[simp] theorem takeFault_errinfo (t : Trap) (word : Word) (s : State) : (takeFault t word s).errinfo = t.info := rfl
@[simp] theorem takeFault_wreq (t : Trap) (word : Word) (s : State) : (takeFault t word s).wreq = s.wreq := rfl
@[simp] theorem takeFault_hreq (t : Trap) (word : Word) (s : State) : (takeFault t word s).hreq = s.hreq := rfl
@[simp] theorem takeFault_w (t : Trap) (word : Word) (s : State) : (takeFault t word s).w = s.w := rfl
@[simp] theorem takeFault_h (t : Trap) (word : Word) (s : State) : (takeFault t word s).h = s.h := rfl
@[simp] theorem takeFault_mbx (t : Trap) (word : Word) (s : State) : (takeFault t word s).mbx = s.mbx := rfl
@[simp] theorem takeFault_mby (t : Trap) (word : Word) (s : State) : (takeFault t word s).mby = s.mby := rfl
@[simp] theorem takeFault_quant (t : Trap) (word : Word) (s : State) : (takeFault t word s).quant = s.quant := rfl
@[simp] theorem takeFault_frameidx (t : Trap) (word : Word) (s : State) : (takeFault t word s).frameidx = s.frameidx := rfl
@[simp] theorem takeFault_cmdcnt (t : Trap) (word : Word) (s : State) : (takeFault t word s).cmdcnt = s.cmdcnt := rfl
@[simp] theorem takeFault_bitcnt (t : Trap) (word : Word) (s : State) : (takeFault t word s).bitcnt = s.bitcnt := rfl
@[simp] theorem takeFault_bslen (t : Trap) (word : Word) (s : State) : (takeFault t word s).bslen = s.bslen := rfl
@[simp] theorem takeFault_banks (t : Trap) (word : Word) (s : State) : (takeFault t word s).banks = s.banks := rfl
@[simp] theorem takeFault_src (t : Trap) (word : Word) (s : State) : (takeFault t word s).src = s.src := rfl
@[simp] theorem takeFault_cur (t : Trap) (word : Word) (s : State) : (takeFault t word s).cur = s.cur := rfl
@[simp] theorem takeFault_ref (t : Trap) (word : Word) (s : State) : (takeFault t word s).ref = s.ref := rfl
@[simp] theorem takeFault_bs (t : Trap) (word : Word) (s : State) : (takeFault t word s).bs = s.bs := rfl
@[simp] theorem takeFault_pending (t : Trap) (word : Word) (s : State) : (takeFault t word s).pending = s.pending := rfl
@[simp] theorem takeFault_pc (t : Trap) (word : Word) (s : State) : (takeFault t word s).pc = s.pc := rfl
@[simp] theorem takeFault_nextFree (t : Trap) (word : Word) (s : State) : (takeFault t word s).nextFree = s.nextFree := rfl
@[simp] theorem takeFault_hostData (t : Trap) (word : Word) (s : State) : (takeFault t word s).hostData = s.hostData := rfl
@[simp] theorem takeFault_busData (t : Trap) (word : Word) (s : State) : (takeFault t word s).busData = s.busData := rfl

/-! `countCommand` -/

@[simp] theorem countCommand_stream (s : State) : (countCommand s).stream = s.stream := rfl
@[simp] theorem countCommand_err (s : State) : (countCommand s).err = s.err := rfl
@[simp] theorem countCommand_sat (s : State) : (countCommand s).sat = s.sat := rfl
@[simp] theorem countCommand_errcode (s : State) : (countCommand s).errcode = s.errcode := rfl
@[simp] theorem countCommand_errcmd (s : State) : (countCommand s).errcmd = s.errcmd := rfl
@[simp] theorem countCommand_errinfo (s : State) : (countCommand s).errinfo = s.errinfo := rfl
@[simp] theorem countCommand_wreq (s : State) : (countCommand s).wreq = s.wreq := rfl
@[simp] theorem countCommand_hreq (s : State) : (countCommand s).hreq = s.hreq := rfl
@[simp] theorem countCommand_w (s : State) : (countCommand s).w = s.w := rfl
@[simp] theorem countCommand_h (s : State) : (countCommand s).h = s.h := rfl
@[simp] theorem countCommand_mbx (s : State) : (countCommand s).mbx = s.mbx := rfl
@[simp] theorem countCommand_mby (s : State) : (countCommand s).mby = s.mby := rfl
@[simp] theorem countCommand_quant (s : State) : (countCommand s).quant = s.quant := rfl
@[simp] theorem countCommand_frameidx (s : State) : (countCommand s).frameidx = s.frameidx := rfl
@[simp] theorem countCommand_cmdcnt (s : State) : (countCommand s).cmdcnt = s.cmdcnt + 1 := rfl
@[simp] theorem countCommand_bitcnt (s : State) : (countCommand s).bitcnt = s.bitcnt := rfl
@[simp] theorem countCommand_bslen (s : State) : (countCommand s).bslen = s.bslen := rfl
@[simp] theorem countCommand_banks (s : State) : (countCommand s).banks = s.banks := rfl
@[simp] theorem countCommand_src (s : State) : (countCommand s).src = s.src := rfl
@[simp] theorem countCommand_cur (s : State) : (countCommand s).cur = s.cur := rfl
@[simp] theorem countCommand_ref (s : State) : (countCommand s).ref = s.ref := rfl
@[simp] theorem countCommand_bs (s : State) : (countCommand s).bs = s.bs := rfl
@[simp] theorem countCommand_pending (s : State) : (countCommand s).pending = s.pending := rfl
@[simp] theorem countCommand_pc (s : State) : (countCommand s).pc = s.pc := rfl
@[simp] theorem countCommand_nextFree (s : State) : (countCommand s).nextFree = s.nextFree := rfl
@[simp] theorem countCommand_hostData (s : State) : (countCommand s).hostData = s.hostData := rfl
@[simp] theorem countCommand_busData (s : State) : (countCommand s).busData = s.busData := rfl

/-! `setBank` -/

@[simp] theorem setBank_stream (s : State) (b : BankId) (k : Bank) : (s.setBank b k).stream = s.stream := rfl
@[simp] theorem setBank_err (s : State) (b : BankId) (k : Bank) : (s.setBank b k).err = s.err := rfl
@[simp] theorem setBank_sat (s : State) (b : BankId) (k : Bank) : (s.setBank b k).sat = s.sat := rfl
@[simp] theorem setBank_errcode (s : State) (b : BankId) (k : Bank) : (s.setBank b k).errcode = s.errcode := rfl
@[simp] theorem setBank_errcmd (s : State) (b : BankId) (k : Bank) : (s.setBank b k).errcmd = s.errcmd := rfl
@[simp] theorem setBank_errinfo (s : State) (b : BankId) (k : Bank) : (s.setBank b k).errinfo = s.errinfo := rfl
@[simp] theorem setBank_wreq (s : State) (b : BankId) (k : Bank) : (s.setBank b k).wreq = s.wreq := rfl
@[simp] theorem setBank_hreq (s : State) (b : BankId) (k : Bank) : (s.setBank b k).hreq = s.hreq := rfl
@[simp] theorem setBank_w (s : State) (b : BankId) (k : Bank) : (s.setBank b k).w = s.w := rfl
@[simp] theorem setBank_h (s : State) (b : BankId) (k : Bank) : (s.setBank b k).h = s.h := rfl
@[simp] theorem setBank_mbx (s : State) (b : BankId) (k : Bank) : (s.setBank b k).mbx = s.mbx := rfl
@[simp] theorem setBank_mby (s : State) (b : BankId) (k : Bank) : (s.setBank b k).mby = s.mby := rfl
@[simp] theorem setBank_quant (s : State) (b : BankId) (k : Bank) : (s.setBank b k).quant = s.quant := rfl
@[simp] theorem setBank_frameidx (s : State) (b : BankId) (k : Bank) : (s.setBank b k).frameidx = s.frameidx := rfl
@[simp] theorem setBank_cmdcnt (s : State) (b : BankId) (k : Bank) : (s.setBank b k).cmdcnt = s.cmdcnt := rfl
@[simp] theorem setBank_bitcnt (s : State) (b : BankId) (k : Bank) : (s.setBank b k).bitcnt = s.bitcnt := rfl
@[simp] theorem setBank_bslen (s : State) (b : BankId) (k : Bank) : (s.setBank b k).bslen = s.bslen := rfl
@[simp] theorem setBank_banks (s : State) (b : BankId) (k : Bank) : (s.setBank b k).banks = s.banks.set b k := rfl
@[simp] theorem setBank_src (s : State) (b : BankId) (k : Bank) : (s.setBank b k).src = s.src := rfl
@[simp] theorem setBank_cur (s : State) (b : BankId) (k : Bank) : (s.setBank b k).cur = s.cur := rfl
@[simp] theorem setBank_ref (s : State) (b : BankId) (k : Bank) : (s.setBank b k).ref = s.ref := rfl
@[simp] theorem setBank_bs (s : State) (b : BankId) (k : Bank) : (s.setBank b k).bs = s.bs := rfl
@[simp] theorem setBank_pending (s : State) (b : BankId) (k : Bank) : (s.setBank b k).pending = s.pending := rfl
@[simp] theorem setBank_pc (s : State) (b : BankId) (k : Bank) : (s.setBank b k).pc = s.pc := rfl
@[simp] theorem setBank_nextFree (s : State) (b : BankId) (k : Bank) : (s.setBank b k).nextFree = s.nextFree := rfl
@[simp] theorem setBank_hostData (s : State) (b : BankId) (k : Bank) : (s.setBank b k).hostData = s.hostData := rfl
@[simp] theorem setBank_busData (s : State) (b : BankId) (k : Bank) : (s.setBank b k).busData = s.busData := rfl

/-! `popCommand` -/

@[simp] theorem popCommand_stream (s : State) (rest : List HostStep) : (s.popCommand rest).stream = s.stream := rfl
@[simp] theorem popCommand_err (s : State) (rest : List HostStep) : (s.popCommand rest).err = s.err := rfl
@[simp] theorem popCommand_sat (s : State) (rest : List HostStep) : (s.popCommand rest).sat = s.sat := rfl
@[simp] theorem popCommand_errcode (s : State) (rest : List HostStep) : (s.popCommand rest).errcode = s.errcode := rfl
@[simp] theorem popCommand_errcmd (s : State) (rest : List HostStep) : (s.popCommand rest).errcmd = s.errcmd := rfl
@[simp] theorem popCommand_errinfo (s : State) (rest : List HostStep) : (s.popCommand rest).errinfo = s.errinfo := rfl
@[simp] theorem popCommand_wreq (s : State) (rest : List HostStep) : (s.popCommand rest).wreq = s.wreq := rfl
@[simp] theorem popCommand_hreq (s : State) (rest : List HostStep) : (s.popCommand rest).hreq = s.hreq := rfl
@[simp] theorem popCommand_w (s : State) (rest : List HostStep) : (s.popCommand rest).w = s.w := rfl
@[simp] theorem popCommand_h (s : State) (rest : List HostStep) : (s.popCommand rest).h = s.h := rfl
@[simp] theorem popCommand_mbx (s : State) (rest : List HostStep) : (s.popCommand rest).mbx = s.mbx := rfl
@[simp] theorem popCommand_mby (s : State) (rest : List HostStep) : (s.popCommand rest).mby = s.mby := rfl
@[simp] theorem popCommand_quant (s : State) (rest : List HostStep) : (s.popCommand rest).quant = s.quant := rfl
@[simp] theorem popCommand_frameidx (s : State) (rest : List HostStep) : (s.popCommand rest).frameidx = s.frameidx := rfl
@[simp] theorem popCommand_cmdcnt (s : State) (rest : List HostStep) : (s.popCommand rest).cmdcnt = s.cmdcnt := rfl
@[simp] theorem popCommand_bitcnt (s : State) (rest : List HostStep) : (s.popCommand rest).bitcnt = s.bitcnt := rfl
@[simp] theorem popCommand_bslen (s : State) (rest : List HostStep) : (s.popCommand rest).bslen = s.bslen := rfl
@[simp] theorem popCommand_banks (s : State) (rest : List HostStep) : (s.popCommand rest).banks = s.banks := rfl
@[simp] theorem popCommand_src (s : State) (rest : List HostStep) : (s.popCommand rest).src = s.src := rfl
@[simp] theorem popCommand_cur (s : State) (rest : List HostStep) : (s.popCommand rest).cur = s.cur := rfl
@[simp] theorem popCommand_ref (s : State) (rest : List HostStep) : (s.popCommand rest).ref = s.ref := rfl
@[simp] theorem popCommand_bs (s : State) (rest : List HostStep) : (s.popCommand rest).bs = s.bs := rfl
@[simp] theorem popCommand_pending (s : State) (rest : List HostStep) : (s.popCommand rest).pending = rest := rfl
@[simp] theorem popCommand_pc (s : State) (rest : List HostStep) : (s.popCommand rest).pc = s.pc + 1 := rfl
@[simp] theorem popCommand_nextFree (s : State) (rest : List HostStep) : (s.popCommand rest).nextFree = s.nextFree := rfl
@[simp] theorem popCommand_hostData (s : State) (rest : List HostStep) : (s.popCommand rest).hostData = s.hostData := rfl
@[simp] theorem popCommand_busData (s : State) (rest : List HostStep) : (s.popCommand rest).busData = s.busData := rfl

/-! `popAccess` -/

@[simp] theorem popAccess_stream (s : State) (rest : List HostStep) : (s.popAccess rest).stream = s.stream := rfl
@[simp] theorem popAccess_err (s : State) (rest : List HostStep) : (s.popAccess rest).err = s.err := rfl
@[simp] theorem popAccess_sat (s : State) (rest : List HostStep) : (s.popAccess rest).sat = s.sat := rfl
@[simp] theorem popAccess_errcode (s : State) (rest : List HostStep) : (s.popAccess rest).errcode = s.errcode := rfl
@[simp] theorem popAccess_errcmd (s : State) (rest : List HostStep) : (s.popAccess rest).errcmd = s.errcmd := rfl
@[simp] theorem popAccess_errinfo (s : State) (rest : List HostStep) : (s.popAccess rest).errinfo = s.errinfo := rfl
@[simp] theorem popAccess_wreq (s : State) (rest : List HostStep) : (s.popAccess rest).wreq = s.wreq := rfl
@[simp] theorem popAccess_hreq (s : State) (rest : List HostStep) : (s.popAccess rest).hreq = s.hreq := rfl
@[simp] theorem popAccess_w (s : State) (rest : List HostStep) : (s.popAccess rest).w = s.w := rfl
@[simp] theorem popAccess_h (s : State) (rest : List HostStep) : (s.popAccess rest).h = s.h := rfl
@[simp] theorem popAccess_mbx (s : State) (rest : List HostStep) : (s.popAccess rest).mbx = s.mbx := rfl
@[simp] theorem popAccess_mby (s : State) (rest : List HostStep) : (s.popAccess rest).mby = s.mby := rfl
@[simp] theorem popAccess_quant (s : State) (rest : List HostStep) : (s.popAccess rest).quant = s.quant := rfl
@[simp] theorem popAccess_frameidx (s : State) (rest : List HostStep) : (s.popAccess rest).frameidx = s.frameidx := rfl
@[simp] theorem popAccess_cmdcnt (s : State) (rest : List HostStep) : (s.popAccess rest).cmdcnt = s.cmdcnt := rfl
@[simp] theorem popAccess_bitcnt (s : State) (rest : List HostStep) : (s.popAccess rest).bitcnt = s.bitcnt := rfl
@[simp] theorem popAccess_bslen (s : State) (rest : List HostStep) : (s.popAccess rest).bslen = s.bslen := rfl
@[simp] theorem popAccess_banks (s : State) (rest : List HostStep) : (s.popAccess rest).banks = s.banks := rfl
@[simp] theorem popAccess_src (s : State) (rest : List HostStep) : (s.popAccess rest).src = s.src := rfl
@[simp] theorem popAccess_cur (s : State) (rest : List HostStep) : (s.popAccess rest).cur = s.cur := rfl
@[simp] theorem popAccess_ref (s : State) (rest : List HostStep) : (s.popAccess rest).ref = s.ref := rfl
@[simp] theorem popAccess_bs (s : State) (rest : List HostStep) : (s.popAccess rest).bs = s.bs := rfl
@[simp] theorem popAccess_pending (s : State) (rest : List HostStep) : (s.popAccess rest).pending = rest := rfl
@[simp] theorem popAccess_pc (s : State) (rest : List HostStep) : (s.popAccess rest).pc = s.pc := rfl
@[simp] theorem popAccess_nextFree (s : State) (rest : List HostStep) : (s.popAccess rest).nextFree = s.nextFree := rfl
@[simp] theorem popAccess_hostData (s : State) (rest : List HostStep) : (s.popAccess rest).hostData = s.hostData := rfl
@[simp] theorem popAccess_busData (s : State) (rest : List HostStep) : (s.popAccess rest).busData = s.busData := rfl

/-! `forgetSrc` -/

@[simp] theorem forgetSrc_stream (s : State) : (s.forgetSrc).stream = s.stream := rfl
@[simp] theorem forgetSrc_err (s : State) : (s.forgetSrc).err = s.err := rfl
@[simp] theorem forgetSrc_sat (s : State) : (s.forgetSrc).sat = s.sat := rfl
@[simp] theorem forgetSrc_errcode (s : State) : (s.forgetSrc).errcode = s.errcode := rfl
@[simp] theorem forgetSrc_errcmd (s : State) : (s.forgetSrc).errcmd = s.errcmd := rfl
@[simp] theorem forgetSrc_errinfo (s : State) : (s.forgetSrc).errinfo = s.errinfo := rfl
@[simp] theorem forgetSrc_wreq (s : State) : (s.forgetSrc).wreq = s.wreq := rfl
@[simp] theorem forgetSrc_hreq (s : State) : (s.forgetSrc).hreq = s.hreq := rfl
@[simp] theorem forgetSrc_w (s : State) : (s.forgetSrc).w = s.w := rfl
@[simp] theorem forgetSrc_h (s : State) : (s.forgetSrc).h = s.h := rfl
@[simp] theorem forgetSrc_mbx (s : State) : (s.forgetSrc).mbx = s.mbx := rfl
@[simp] theorem forgetSrc_mby (s : State) : (s.forgetSrc).mby = s.mby := rfl
@[simp] theorem forgetSrc_quant (s : State) : (s.forgetSrc).quant = s.quant := rfl
@[simp] theorem forgetSrc_frameidx (s : State) : (s.forgetSrc).frameidx = s.frameidx := rfl
@[simp] theorem forgetSrc_cmdcnt (s : State) : (s.forgetSrc).cmdcnt = s.cmdcnt := rfl
@[simp] theorem forgetSrc_bitcnt (s : State) : (s.forgetSrc).bitcnt = s.bitcnt := rfl
@[simp] theorem forgetSrc_bslen (s : State) : (s.forgetSrc).bslen = s.bslen := rfl
@[simp] theorem forgetSrc_banks (s : State) : (s.forgetSrc).banks = s.banks := rfl
@[simp] theorem forgetSrc_src (s : State) : (s.forgetSrc).src = .unspecified s.nextFree := rfl
@[simp] theorem forgetSrc_cur (s : State) : (s.forgetSrc).cur = s.cur := rfl
@[simp] theorem forgetSrc_ref (s : State) : (s.forgetSrc).ref = s.ref := rfl
@[simp] theorem forgetSrc_bs (s : State) : (s.forgetSrc).bs = s.bs := rfl
@[simp] theorem forgetSrc_pending (s : State) : (s.forgetSrc).pending = s.pending := rfl
@[simp] theorem forgetSrc_pc (s : State) : (s.forgetSrc).pc = s.pc := rfl
@[simp] theorem forgetSrc_nextFree (s : State) : (s.forgetSrc).nextFree = s.nextFree + 1 := rfl
@[simp] theorem forgetSrc_hostData (s : State) : (s.forgetSrc).hostData = s.hostData := rfl
@[simp] theorem forgetSrc_busData (s : State) : (s.forgetSrc).busData = s.busData := rfl

/-! `forgetFrames` -/

@[simp] theorem forgetFrames_stream (s : State) : (s.forgetFrames).stream = s.stream := rfl
@[simp] theorem forgetFrames_err (s : State) : (s.forgetFrames).err = s.err := rfl
@[simp] theorem forgetFrames_sat (s : State) : (s.forgetFrames).sat = s.sat := rfl
@[simp] theorem forgetFrames_errcode (s : State) : (s.forgetFrames).errcode = s.errcode := rfl
@[simp] theorem forgetFrames_errcmd (s : State) : (s.forgetFrames).errcmd = s.errcmd := rfl
@[simp] theorem forgetFrames_errinfo (s : State) : (s.forgetFrames).errinfo = s.errinfo := rfl
@[simp] theorem forgetFrames_wreq (s : State) : (s.forgetFrames).wreq = s.wreq := rfl
@[simp] theorem forgetFrames_hreq (s : State) : (s.forgetFrames).hreq = s.hreq := rfl
@[simp] theorem forgetFrames_w (s : State) : (s.forgetFrames).w = s.w := rfl
@[simp] theorem forgetFrames_h (s : State) : (s.forgetFrames).h = s.h := rfl
@[simp] theorem forgetFrames_mbx (s : State) : (s.forgetFrames).mbx = s.mbx := rfl
@[simp] theorem forgetFrames_mby (s : State) : (s.forgetFrames).mby = s.mby := rfl
@[simp] theorem forgetFrames_quant (s : State) : (s.forgetFrames).quant = s.quant := rfl
@[simp] theorem forgetFrames_frameidx (s : State) : (s.forgetFrames).frameidx = s.frameidx := rfl
@[simp] theorem forgetFrames_cmdcnt (s : State) : (s.forgetFrames).cmdcnt = s.cmdcnt := rfl
@[simp] theorem forgetFrames_bitcnt (s : State) : (s.forgetFrames).bitcnt = s.bitcnt := rfl
@[simp] theorem forgetFrames_bslen (s : State) : (s.forgetFrames).bslen = s.bslen := rfl
@[simp] theorem forgetFrames_banks (s : State) : (s.forgetFrames).banks = s.banks := rfl
@[simp] theorem forgetFrames_src (s : State) : (s.forgetFrames).src = s.src := rfl
@[simp] theorem forgetFrames_cur (s : State) : (s.forgetFrames).cur = .unspecified s.nextFree := rfl
@[simp] theorem forgetFrames_ref (s : State) : (s.forgetFrames).ref = .unspecified (s.nextFree + 1) := rfl
@[simp] theorem forgetFrames_bs (s : State) : (s.forgetFrames).bs = s.bs := rfl
@[simp] theorem forgetFrames_pending (s : State) : (s.forgetFrames).pending = s.pending := rfl
@[simp] theorem forgetFrames_pc (s : State) : (s.forgetFrames).pc = s.pc := rfl
@[simp] theorem forgetFrames_nextFree (s : State) : (s.forgetFrames).nextFree = s.nextFree + 2 := rfl
@[simp] theorem forgetFrames_hostData (s : State) : (s.forgetFrames).hostData = s.hostData := rfl
@[simp] theorem forgetFrames_busData (s : State) : (s.forgetFrames).busData = s.busData := rfl

/-! `softReset` -/

@[simp] theorem softReset_stream (s : State) : (softReset s).stream = State.reset.stream := rfl
@[simp] theorem softReset_err (s : State) : (softReset s).err = State.reset.err := rfl
@[simp] theorem softReset_sat (s : State) : (softReset s).sat = State.reset.sat := rfl
@[simp] theorem softReset_errcode (s : State) : (softReset s).errcode = State.reset.errcode := rfl
@[simp] theorem softReset_errcmd (s : State) : (softReset s).errcmd = State.reset.errcmd := rfl
@[simp] theorem softReset_errinfo (s : State) : (softReset s).errinfo = State.reset.errinfo := rfl
@[simp] theorem softReset_wreq (s : State) : (softReset s).wreq = State.reset.wreq := rfl
@[simp] theorem softReset_hreq (s : State) : (softReset s).hreq = State.reset.hreq := rfl
@[simp] theorem softReset_w (s : State) : (softReset s).w = State.reset.w := rfl
@[simp] theorem softReset_h (s : State) : (softReset s).h = State.reset.h := rfl
@[simp] theorem softReset_mbx (s : State) : (softReset s).mbx = State.reset.mbx := rfl
@[simp] theorem softReset_mby (s : State) : (softReset s).mby = State.reset.mby := rfl
@[simp] theorem softReset_quant (s : State) : (softReset s).quant = State.reset.quant := rfl
@[simp] theorem softReset_frameidx (s : State) : (softReset s).frameidx = State.reset.frameidx := rfl
@[simp] theorem softReset_cmdcnt (s : State) : (softReset s).cmdcnt = State.reset.cmdcnt := rfl
@[simp] theorem softReset_bitcnt (s : State) : (softReset s).bitcnt = State.reset.bitcnt := rfl
@[simp] theorem softReset_bslen (s : State) : (softReset s).bslen = State.reset.bslen := rfl
@[simp] theorem softReset_banks (s : State) : (softReset s).banks = State.reset.banks := rfl
@[simp] theorem softReset_src (s : State) : (softReset s).src = s.src := rfl
@[simp] theorem softReset_cur (s : State) : (softReset s).cur = s.cur := rfl
@[simp] theorem softReset_ref (s : State) : (softReset s).ref = s.ref := rfl
@[simp] theorem softReset_bs (s : State) : (softReset s).bs = State.reset.bs := rfl
@[simp] theorem softReset_pending (s : State) : (softReset s).pending = s.pending := rfl
@[simp] theorem softReset_pc (s : State) : (softReset s).pc = s.pc := rfl
@[simp] theorem softReset_nextFree (s : State) : (softReset s).nextFree = s.nextFree := rfl
@[simp] theorem softReset_hostData (s : State) : (softReset s).hostData = s.hostData := rfl
@[simp] theorem softReset_busData (s : State) : (softReset s).busData = s.busData := rfl

/-! Banks -/

@[simp] theorem bank_setBank_same (s : State) (b : BankId) (k : Bank) : (s.setBank b k).bank b = k := by
  simp [State.bank, State.setBank]

theorem bank_setBank_other (s : State) (b b' : BankId) (k : Bank) (h : b' ≠ b) : (s.setBank b k).bank b' = s.bank b' := by
  simp only [State.bank, State.setBank, Fin.getElem_fin]
  exact Vector.getElem_set_ne _ _ (fun e => h (Fin.ext e.symm))

/-- A state whose two banks agree with another's has the same banks. -/
theorem banks_eq_of_bank_eq (s t : State) (h : ∀ b, t.bank b = s.bank b) : t.banks = s.banks := by
  apply Vector.ext
  intro i hi
  exact h ⟨i, hi⟩

@[simp] theorem bank_takeFault (t : Trap) (word : Word) (s : State) (b : BankId) : (takeFault t word s).bank b = s.bank b := rfl
@[simp] theorem bank_countCommand (s : State) (b : BankId) : (countCommand s).bank b = s.bank b := rfl
@[simp] theorem bank_popCommand (s : State) (rest : List HostStep) (b : BankId) : (s.popCommand rest).bank b = s.bank b := rfl
@[simp] theorem bank_popAccess (s : State) (rest : List HostStep) (b : BankId) : (s.popAccess rest).bank b = s.bank b := rfl
@[simp] theorem bank_forgetSrc (s : State) (b : BankId) : s.forgetSrc.bank b = s.bank b := rfl
@[simp] theorem bank_forgetFrames (s : State) (b : BankId) : s.forgetFrames.bank b = s.bank b := rfl
@[simp] theorem bank_softReset (s : State) (b : BankId) : (softReset s).bank b = Bank.reset := by
  fin_cases b <;> rfl

/-- A faulted state, from the operation that takes the fault. -/
theorem takeFault_plainTrap (c : FaultCode) (word : Word) (s : State) :
    takeFault (plainTrap c) word s = s.faulted (faultNumber c).toNat word := by
  cases c <;> rfl

theorem takeFault_trapAt (c : FaultCode) (word : Word) (s : State) (b : BankId) (p : PlaneId) (i : ElemId) :
    takeFault (trapAt c b p i) word s = s.faultedAt (faultNumber c).toNat word b p i := by
  cases c <;> rfl

end Sys2Proof.Machine
end

