-- ==== Sys2Proof/Laws/Memory.lean ====
section
/-! SUPPORT. The laws of the frame memories: what a read gives after a write, that every operation keeps the canonical
form, and the pixel indexes. -/

namespace Sys2Proof.Machine

/-! ### Listed cells -/

theorem cellGet_cellSet {α : Type} (l : List (Nat × α)) (i k : Nat) (v : α) :
    cellGet (cellSet l i v) k = if k = i then some v else cellGet l k := by
  induction l with
  | nil => simp [cellSet, cellGet]
  | cons c rest ih =>
    obtain ⟨j, u⟩ := c
    simp only [cellSet]
    split
    · simp [cellGet]
    · split
      · subst_vars
        simp only [cellGet]
        split <;> simp_all
      · simp only [cellGet, ih]
        split <;> split <;> simp_all

theorem mem_keys_cellSet {α : Type} (l : List (Nat × α)) (i k : Nat) (v : α) :
    k ∈ (cellSet l i v).map Prod.fst ↔ k = i ∨ k ∈ l.map Prod.fst := by
  induction l with
  | nil => simp [cellSet]
  | cons c rest ih =>
    obtain ⟨j, u⟩ := c
    simp only [cellSet]
    split
    · simp
    · split
      · subst_vars; simp
      · rw [List.map_cons, List.mem_cons, ih, List.map_cons, List.mem_cons]; tauto

theorem cellSet_sorted {α : Type} (l : List (Nat × α)) (i : Nat) (v : α)
    (h : (l.map Prod.fst).Pairwise (· < ·)) : ((cellSet l i v).map Prod.fst).Pairwise (· < ·) := by
  induction l with
  | nil => simp [cellSet]
  | cons c rest ih =>
    obtain ⟨j, u⟩ := c
    simp only [List.map_cons, List.pairwise_cons] at h
    simp only [cellSet]
    split
    · rename_i hij
      simp only [List.map_cons, List.pairwise_cons, List.mem_cons, forall_eq_or_imp]
      exact ⟨⟨hij, fun a ha => hij.trans (h.1 a ha)⟩, h⟩
    · split
      · subst_vars
        simpa using h
      · rename_i h1 h2
        simp only [List.map_cons, List.pairwise_cons]
        refine ⟨fun a ha => ?_, ih h.2⟩
        rcases (mem_keys_cellSet rest i a v).1 ha with rfl | ha
        · omega
        · exact h.1 a ha

/-! ### Frame memories -/

theorem read_write {n : Nat} (m : FrameMem n) (i k : Nat) (v : BitVec n) :
    (m.write i v).read k = if k = i then v else m.read k := by
  simp only [FrameMem.read, FrameMem.write, cellGet_cellSet]
  split <;> rfl

@[simp] theorem read_write_same {n : Nat} (m : FrameMem n) (i : Nat) (v : BitVec n) : (m.write i v).read i = v := by
  simp [read_write]

theorem read_write_other {n : Nat} (m : FrameMem n) (i k : Nat) (v : BitVec n) (h : k ≠ i) :
    (m.write i v).read k = m.read k := by
  simp [read_write, h]

/-- An element that was never written since its content became unspecified reads as the free value of its number. -/
@[simp] theorem read_unspecified {n : Nat} (fill i : Nat) :
    (FrameMem.unspecified fill : FrameMem n).read i = (Config.anyPixel fill i).setWidth n := rfl

@[simp] theorem write_fill {n : Nat} (m : FrameMem n) (i : Nat) (v : BitVec n) : (m.write i v).fill = m.fill := rfl

theorem write_wf {n : Nat} (m : FrameMem n) (i : Nat) (v : BitVec n) (h : m.wf) : (m.write i v).wf :=
  cellSet_sorted _ _ _ h

theorem unspecified_wf {n : Nat} (fill : Nat) : (FrameMem.unspecified fill : FrameMem n).wf := by
  simp [FrameMem.wf, FrameMem.unspecified]

@[simp] theorem writeList_nil {n : Nat} (m : FrameMem n) : m.writeList [] = m := rfl

@[simp] theorem writeList_cons {n : Nat} (m : FrameMem n) (a : Nat × BitVec n) (ws : List (Nat × BitVec n)) :
    m.writeList (a :: ws) = (m.writeList ws).write a.1 a.2 := rfl

theorem writeList_wf {n : Nat} (m : FrameMem n) (ws : List (Nat × BitVec n)) (h : m.wf) : (m.writeList ws).wf := by
  induction ws with
  | nil => exact h
  | cons a ws ih => exact write_wf _ _ _ ih

@[simp] theorem writeList_fill {n : Nat} (m : FrameMem n) (ws : List (Nat × BitVec n)) : (m.writeList ws).fill = m.fill := by
  induction ws with
  | nil => rfl
  | cons a ws ih => simpa using ih

/-- Where no pair of the list names an element, it reads as before. -/
theorem read_writeList_other {n : Nat} {α : Type} (m : FrameMem n) (l : List α) (idx : α → Nat) (val : α → BitVec n)
    (k : Nat) (h : ∀ a ∈ l, k ≠ idx a) : (m.writeList (l.map fun a => (idx a, val a))).read k = m.read k := by
  induction l with
  | nil => rfl
  | cons a l ih =>
    rw [List.map_cons, writeList_cons, read_write_other _ _ _ _ (h a (by simp))]
    exact ih fun b hb => h b (by simp [hb])

/-- Where every pair that names an element gives it the same value, it reads as that value. -/
theorem read_writeList_mem {n : Nat} {α : Type} (m : FrameMem n) (l : List α) (idx : α → Nat) (val : α → BitVec n)
    (a : α) (ha : a ∈ l) (h : ∀ b ∈ l, idx b = idx a → val b = val a) :
    (m.writeList (l.map fun a => (idx a, val a))).read (idx a) = val a := by
  induction l with
  | nil => simp at ha
  | cons c l ih =>
    rw [List.map_cons, writeList_cons, read_write]
    split
    · rename_i e; exact h c (by simp) e.symm
    · rename_i e
      have : a ∈ l := by
        rcases List.mem_cons.1 ha with rfl | h'
        · exact absurd rfl e
        · exact h'
      exact ih this fun b hb => h b (by simp [hb])

/-! ### Pixel indexes -/

@[simp] theorem mem_framePixels (w h : Nat) (xy : Nat × Nat) : xy ∈ framePixels w h ↔ xy.1 < w ∧ xy.2 < h := by
  obtain ⟨x, y⟩ := xy
  simp only [framePixels, List.mem_flatMap, List.mem_map, List.mem_range, Prod.mk.injEq]
  constructor
  · rintro ⟨y', hy, x', hx, rfl, rfl⟩; exact ⟨hx, hy⟩
  · rintro ⟨hx, hy⟩; exact ⟨y, hy, x, hx, rfl, rfl⟩

theorem pixelIndex_inj {pitch x y x' y' : Nat} (hx : x < pitch) (hx' : x' < pitch)
    (h : pixelIndex pitch x y = pixelIndex pitch x' y') : x = x' ∧ y = y' := by
  simp only [pixelIndex] at h
  have hy : y = y' := by
    have h1 : (y * pitch + x) / pitch = y := by
      rw [Nat.mul_comm, Nat.mul_add_div (by omega), Nat.div_eq_of_lt hx]; omega
    have h2 : (y' * pitch + x') / pitch = y' := by
      rw [Nat.mul_comm, Nat.mul_add_div (by omega), Nat.div_eq_of_lt hx']; omega
    rw [← h1, ← h2, h]
  subst hy
  exact ⟨by omega, rfl⟩

/-- On the grid, different pixels of the macroblock are different elements. -/
theorem mbIndex_inj (s : State) (hg : s.onGrid) {x y x' y' : Nat} (hx : x < 16) (hx' : x' < 16)
    (h : s.mbIndex x y = s.mbIndex x' y') : x = x' ∧ y = y' := by
  obtain ⟨-, hmx, -⟩ := hg
  have := pixelIndex_inj (by simp only [Config.mbSize]; omega) (by simp only [Config.mbSize]; omega) h
  simp only [Config.mbSize] at this
  omega

/-! ### Every operation keeps the canonical form -/

theorem memoryWf_reset : State.reset.memoryWf := by decide

theorem memoryWf_memRead (sp : Space) (i : Nat) (s : State) (h : s.memoryWf) : (memRead sp i s).memoryWf := by
  unfold memRead; split <;> exact h

theorem memoryWf_memWrite (sp : Space) (i : Nat) (v : BitVec 64) (s : State) (h : s.memoryWf) :
    (memWrite sp i v s).memoryWf := by
  obtain ⟨h1, h2, h3⟩ := h
  unfold memWrite
  split
  · cases sp
    case src => exact ⟨write_wf _ _ _ h1, h2, h3⟩
    case cur => exact ⟨h1, write_wf _ _ _ h2, h3⟩
    case ref => exact ⟨h1, h2, write_wf _ _ _ h3⟩
    all_goals exact ⟨h1, h2, h3⟩
  · exact ⟨h1, h2, h3⟩

theorem memoryWf_busRead (m : BusMap) (a size : Nat) (s : State) (h : s.memoryWf) : (busRead m a size s).memoryWf := by
  unfold busRead; split
  · exact memoryWf_memRead _ _ _ h
  · exact h

theorem memoryWf_busWrite (m : BusMap) (a : Nat) (bytes : List Byte) (s : State) (h : s.memoryWf) :
    (busWrite m a bytes s).memoryWf := by
  unfold busWrite; split
  · exact memoryWf_memWrite _ _ _ _ h
  · exact h

theorem memoryWf_forgetSrc (s : State) (h : s.memoryWf) : s.forgetSrc.memoryWf := ⟨unspecified_wf _, h.2⟩

theorem memoryWf_forgetFrames (s : State) (h : s.memoryWf) : s.forgetFrames.memoryWf :=
  ⟨h.1, unspecified_wf _, unspecified_wf _⟩

theorem memoryWf_softReset (s : State) (h : s.memoryWf) : (softReset s).memoryWf := h

theorem memoryWf_hardReset (s : State) (h : s.memoryWf) : (hardReset s).memoryWf :=
  memoryWf_forgetFrames _ (memoryWf_forgetSrc _ h)

theorem memoryWf_setWreq (v : BitVec 16) (s : State) (h : s.memoryWf) : (setWreq v s).memoryWf := by
  unfold setWreq; split
  · exact h
  · exact memoryWf_forgetSrc s h

theorem memoryWf_setHreq (v : BitVec 16) (s : State) (h : s.memoryWf) : (setHreq v s).memoryWf := by
  unfold setHreq; split
  · exact h
  · exact memoryWf_forgetSrc s h

theorem memoryWf_createStream (s : State) (h : s.memoryWf) : (createStream s).memoryWf := memoryWf_forgetFrames s h

theorem memoryWf_endFrame (s : State) (h : s.memoryWf) : (endFrame s).memoryWf := ⟨h.1, h.2.1, h.2.1⟩

theorem memoryWf_convertFrame (s : State) (h : s.memoryWf) : (convertFrame s).memoryWf :=
  ⟨h.1, writeList_wf _ _ h.2.1, h.2.2⟩

theorem memoryWf_writeMb (f : Nat → Nat → Pixel) (s : State) (h : s.memoryWf) : (writeMb f s).memoryWf :=
  ⟨h.1, writeList_wf _ _ h.2.1, h.2.2⟩

theorem memoryWf_hostAccess (m : BusMap) (a : HostStep) (s : State) (h : s.memoryWf) : (hostAccess m a s).memoryWf := by
  cases a with
  | command w => exact h
  | memRead sp i => exact memoryWf_memRead sp i s h
  | memWrite sp i v => exact memoryWf_memWrite sp i v s h
  | busRead a size => exact memoryWf_busRead m a size s h
  | busWrite a bytes => exact memoryWf_busWrite m a bytes s h
  | rst => exact memoryWf_hardReset s h

end Sys2Proof.Machine
end

