-- ==== Sys2Proof/Laws/Ops.lean ====
section
/-! SUPPORT. What each shared operation can do, said once: the frame of a command, its checks and where they fault, the
planes of a mask, the bit sink. -/

namespace Sys2Proof.Machine

/-! ### Planes and masks -/

@[simp] theorem mem_planesOf (m : PlaneMask) (p : PlaneId) : p ∈ planesOf m ↔ m.getLsbD p.val = true := by
  simp [planesOf]

@[simp] theorem mem_allPlanes (p : PlaneId) : p ∈ allPlanes := by simp [allPlanes]

@[simp] theorem overPlanes_getElem {α : Type} (m : PlaneMask) (v : Vector α 6) (f : PlaneId → α) (p : Nat) (h : p < 6) :
    (overPlanes m v f)[p] = if m[p] then f ⟨p, h⟩ else v[p] := by
  simp [overPlanes]

@[simp] theorem fullPlane_getElem {n : Nat} (f : ElemId → BitVec n) (i : Nat) (h : i < 64) :
    (fullPlane f)[i] = some (f ⟨i, h⟩) := by
  simp [fullPlane]

@[simp] theorem planeVals_getElem {n : Nat} (pl : Plane n) (i : Nat) (h : i < 64) :
    (planeVals pl)[i] = (pl[i]).getD 0 := by
  simp [planeVals]

@[simp] theorem planeLevels_getElem (pl : Plane 16) (i : Nat) (h : i < 64) :
    (planeLevels pl)[i] = levelInt ((pl[i]).getD 0) := by
  simp [planeLevels]

/-! The same at an index of the bounded type, for rewriting before `simp` unfolds such an index. -/

theorem overPlanes_get {α : Type} (m : PlaneMask) (v : Vector α 6) (f : PlaneId → α) (p : PlaneId) :
    (overPlanes m v f)[p] = if m.getLsbD p.val then f p else v[p] := by
  simp [overPlanes]

theorem fullPlane_get {n : Nat} (f : ElemId → BitVec n) (i : ElemId) : (fullPlane f)[i] = some (f i) := by
  simp [fullPlane]

theorem planeVals_get {n : Nat} (pl : Plane n) (i : ElemId) : (planeVals pl)[i] = (pl[i]).getD 0 := by
  simp [planeVals]

theorem planeLevels_get (pl : Plane 16) (i : ElemId) : (planeLevels pl)[i] = levelInt ((pl[i]).getD 0) := by
  simp [planeLevels]

/-- Bit `p` of a mask built from a function. -/
theorem maskOf_getLsbD (f : PlaneId → Bool) (p : PlaneId) : (maskOf f).getLsbD p.val = f p := by
  simp only [maskOf]
  fin_cases p <;> simp only [BitVec.getLsbD_append, BitVec.getLsbD_ofBool] <;> simp

/-- Every bit of a mask built from a function. -/
theorem maskOf_bit (f : PlaneId → Bool) (n : Nat) : (maskOf f).getLsbD n = true ↔ ∃ p : PlaneId, n = p.val ∧ f p = true := by
  by_cases h : n < 6
  · have := maskOf_getLsbD f ⟨n, h⟩
    simp only at this
    rw [this]
    exact ⟨fun hf => ⟨⟨n, h⟩, rfl, hf⟩, by rintro ⟨p, rfl, hf⟩; exact hf⟩
  · rw [BitVec.getLsbD_of_ge _ _ (by omega)]
    exact ⟨by simp, by rintro ⟨p, rfl, -⟩; omega⟩

/-- When a plane counts as full in the `VALID<b>` views (10_state.md R32). -/
theorem planeFull_iff {n : Nat} (pl : Plane n) : planeFull pl = true ↔ ∀ i : ElemId, (pl[i]).isSome = true := by
  simp only [planeFull, List.all_eq_true, List.mem_finRange, true_implies]

/-- A register made of fields is the sum of the fields in their places. -/
theorem toNat_append_eq {m n : Nat} (x : BitVec m) (y : BitVec n) : (x ++ y).toNat = x.toNat * 2 ^ n + y.toNat := by
  rw [BitVec.toNat_append, Nat.shiftLeft_eq, mul_comm, Nat.two_pow_add_eq_or_of_lt y.isLt]

@[simp] theorem maskOf_getElem (f : PlaneId → Bool) (p : Nat) (h : p < 6) : (maskOf f)[p] = f ⟨p, h⟩ := by
  rw [← BitVec.getLsbD_eq_getElem]; exact maskOf_getLsbD f ⟨p, h⟩

theorem updateCbp_getLsbD (m old : PlaneMask) (f : PlaneId → Bool) (p : PlaneId) :
    (updateCbp m old f).getLsbD p.val = if m.getLsbD p.val then f p else old.getLsbD p.val := by
  rw [updateCbp, maskOf_getLsbD]

/-- Planes are equal when their elements are. -/
theorem plane_ext {α : Type} {v w : Vector α 64} (h : ∀ i : ElemId, v[i] = w[i]) : v = w := by
  apply Vector.ext
  intro i hi
  exact h ⟨i, hi⟩

/-- Six planes are equal when each is. -/
theorem planes_ext {α : Type} {v w : Vector α 6} (h : ∀ p : PlaneId, v[p] = w[p]) : v = w := by
  apply Vector.ext
  intro i hi
  exact h ⟨i, hi⟩

@[simp] theorem elemAt_row_col (i : ElemId) : elemAt (rowOf i) (colOf i) = i := by
  apply Fin.ext; simp only [elemAt, rowOf, colOf]; omega

@[simp] theorem rowOf_elemAt (r c : Fin 8) : rowOf (elemAt r c) = r := by
  apply Fin.ext; simp only [elemAt, rowOf]; omega

@[simp] theorem colOf_elemAt (r c : Fin 8) : colOf (elemAt r c) = c := by
  apply Fin.ext; simp only [elemAt, colOf]; omega

/-- The zigzag sequence visits every element, and `zigzagPos` says where. -/
@[simp] theorem zigzag_zigzagPos (j : ElemId) : zigzag (zigzagPos j) = j := by revert j; decide +kernel

@[simp] theorem zigzagPos_zigzag (k : ElemId) : zigzagPos (zigzag k) = k := by revert k; decide +kernel

/-! ### Where a scan stops -/

theorem firstBad_eq_none (ps : List PlaneId) (bad : PlaneId → ElemId → Bool) :
    firstBad ps bad = none ↔ ∀ p ∈ ps, ∀ i, bad p i = false := by
  simp [firstBad, List.findSome?_eq_none_iff]

theorem find_finRange_eq_some {n : Nat} (bad : Fin n → Bool) (i : Fin n) (hi : bad i = true)
    (h : ∀ j, j < i → bad j = false) : (List.finRange n).find? bad = some i := by
  rw [List.find?_eq_some_iff_getElem]
  refine ⟨hi, i.val, by simp, by simp, fun j hj => ?_⟩
  simp [h ⟨j, by omega⟩ (by simpa [Fin.lt_def] using hj)]

/-- A scan of the planes of a list in ascending order stops at the lowest bad element (60_exceptions.md R262, R270). -/
theorem firstBad_eq_some (sel : PlaneId → Bool) (bad : PlaneId → ElemId → Bool) (p : PlaneId) (i : ElemId)
    (h : LowestBad (fun p => sel p = true) (fun p i => bad p i = true) p i) :
    firstBad ((List.finRange 6).filter sel) bad = some (p, i) := by
  obtain ⟨hp, hi, hlow, hbelow⟩ := h
  have key : ∀ l : List PlaneId, p ∈ l → l.Pairwise (· < ·) →
      firstBad (l.filter sel) bad = some (p, i) := by
    intro l
    induction l with
    | nil => simp
    | cons a l ih =>
      intro hmem hs
      rw [List.pairwise_cons] at hs
      rcases List.mem_cons.1 hmem with rfl | hmem
      · have hf := find_finRange_eq_some (bad p) i hi fun j hj => by simpa using hlow j hj
        simp [firstBad, hp, hf]
      · have hlt := hs.1 p hmem
        by_cases ha : sel a = true
        · have hn : (List.finRange 64).find? (bad a) = none := by
            simp only [List.find?_eq_none, List.mem_finRange, forall_const]
            exact fun j => hbelow a hlt ha j
          have := ih hmem hs.2
          simp only [firstBad, List.filter_cons, ha, if_true, List.findSome?_cons, hn, Option.map_none] at this ⊢
          exact this
        · rw [List.filter_cons, if_neg ha]; exact ih hmem hs.2
  exact key _ (by simp) (by decide)

/-- The lowest plane of a mask with a property. -/
theorem find_planes_eq_some (sel bad : PlaneId → Bool) (p : PlaneId) (hs : sel p = true) (hb : bad p = true)
    (h : ∀ p', p' < p → sel p' = true → bad p' = false) :
    ((List.finRange 6).filter sel).find? bad = some p := by
  rw [List.find?_filter]
  apply find_finRange_eq_some
  · simp [hs, hb]
  · intro j hj
    by_cases hsj : sel j = true
    · simp [hsj, h j hj hsj]
    · simp [hsj]

/-! ### The checks of the commands -/

@[simp] theorem require_true (t : Trap) : require true t = none := rfl
@[simp] theorem require_false (t : Trap) : require false t = some t := rfl

theorem require_eq_none (c : Bool) (t : Trap) : require c t = none ↔ c = true := by cases c <;> simp

/-- A dimension rounded down (40_config_commands.md R127). -/
theorem effectiveDim_toNat (v : BitVec 16) : (effectiveDim v).toNat = v.toNat / 16 * 16 := by
  have h : (v % 16#16).toNat = v.toNat % 16 := by simp
  rw [effectiveDim, BitVec.toNat_sub_of_le (by rw [BitVec.le_def, h]; omega), h]
  omega

/-- Every fault a check can raise has a code of 1 to 12. -/
theorem faultNumber_range (c : FaultCode) : 1 ≤ (faultNumber c).toNat ∧ (faultNumber c).toNat ≤ 12 := by
  cases c <;> decide

theorem checkStream_of_stream (s : State) (h : s.stream = true) : checkStream s = none := by simp [checkStream, h]

theorem checkStream_of_no_stream (s : State) (h : s.stream = false) : checkStream s = some (plainTrap .noStream) := by
  simp [checkStream, h]

theorem checkPosition_eq_none (s : State) : checkPosition s = none ↔ s.onGrid := by
  simp only [checkPosition, checkStream, checkMb, require_eq_none, State.onGrid, Option.or_eq_none_iff,
    Bool.and_eq_true, decide_eq_true_eq]

theorem checkPosition_of_no_stream (s : State) (h : s.stream = false) :
    checkPosition s = some (plainTrap .noStream) := by simp [checkPosition, checkStream_of_no_stream s h]

theorem checkPosition_off_grid (s : State) (h : s.stream = true)
    (hp : s.w.toNat / 16 ≤ s.mbx.toNat ∨ s.h.toNat / 16 ≤ s.mby.toNat) :
    checkPosition s = some (plainTrap .mbRange) := by
  have : (decide (s.mbx.toNat < s.w.toNat / 16) && decide (s.mby.toNat < s.h.toNat / 16)) = false := by
    rcases hp with hp | hp <;> simp <;> omega
  rw [checkPosition, checkStream_of_stream s h, Option.none_or, checkMb, Config.mbSize, this, require_false]

theorem one_le_toNat_of_ne_zero {n : Nat} (v : BitVec n) (h : v ≠ 0#n) : 1 ≤ v.toNat := by
  rcases Nat.eq_zero_or_pos v.toNat with h0 | h0
  · exact absurd (BitVec.eq_of_toNat_eq (by simpa using h0)) h
  · exact h0

theorem checkQuant_of_ne_zero (s : State) (h : s.quant ≠ 0) : checkQuant s = none := by
  simp [checkQuant, one_le_toNat_of_ne_zero _ h]

theorem checkQuant_of_zero (s : State) (h : s.quant = 0) : checkQuant s = some (plainTrap .quant) := by
  simp [checkQuant, h]

theorem checkWritten_eq_none {n : Nat} (b : BankId) (ps : List PlaneId) (buf : Vector (Plane n) 6) :
    checkWritten b ps buf = none ↔ ∀ p ∈ ps, ∀ i : ElemId, (buf[p][i]).isSome = true := by
  simp [checkWritten, firstBad_eq_none, Option.isSome_iff_ne_none]

theorem checkWritten_eq_some {n : Nat} (b : BankId) (m : PlaneMask) (buf : Vector (Plane n) 6) (p : PlaneId) (i : ElemId)
    (h : LowestBad (fun p => m.getLsbD p = true) (fun p i => buf[p][i] = none) p i) :
    checkWritten b (planesOf m) buf = some (trapAt .unwritten b p i) := by
  have := firstBad_eq_some (fun p => m.getLsbD p) (fun p i => (buf[p][i]).isNone) p i (by simpa using h)
  simp only [checkWritten, planesOf, this, Option.map_some]

theorem checkWritten_all_eq_some {n : Nat} (b : BankId) (buf : Vector (Plane n) 6) (p : PlaneId) (i : ElemId)
    (h : LowestBad (fun _ => True) (fun p i => buf[p][i] = none) p i) :
    checkWritten b allPlanes buf = some (trapAt .unwritten b p i) := by
  have := firstBad_eq_some (fun _ => true) (fun p i => (buf[p][i]).isNone) p i (by simpa using h)
  rw [List.filter_true] at this
  simp only [checkWritten, allPlanes, this, Option.map_some]

theorem checkOrder_eq_none (b : BankId) (ps : List PlaneId) (tags : Vector Order 6) (want : Order) :
    checkOrder b ps tags want = none ↔ ∀ p ∈ ps, tags[p] = want := by
  simp [checkOrder]

theorem checkOrder_eq_some (b : BankId) (m : PlaneMask) (tags : Vector Order 6) (want : Order) (p : PlaneId)
    (hm : m.getLsbD p.val = true) (hp : tags[p] ≠ want)
    (h : ∀ p', p' < p → m.getLsbD p'.val = true → tags[p'] = want) :
    checkOrder b (planesOf m) tags want = some (trapAt .order b p 0) := by
  have := find_planes_eq_some (fun p => m.getLsbD p) (fun p => tags[p] != want) p hm (by simpa using hp)
    (by simpa using h)
  simp only [checkOrder, planesOf, this, Option.map_some]

theorem checkFinite_eq_none (b : BankId) (ps : List PlaneId) (vals : PlaneId → Vector F64 64) :
    checkFinite b ps vals = none ↔ ∀ p ∈ ps, ∀ i : ElemId, f64Finite (vals p)[i] = true := by
  simp [checkFinite, firstBad_eq_none]

theorem checkFinite_eq_some (b : BankId) (m : PlaneMask) (vals : PlaneId → Vector F64 64) (p : PlaneId) (i : ElemId)
    (h : LowestBad (fun p => m.getLsbD p = true) (fun p i => f64Finite (vals p)[i] = false) p i) :
    checkFinite b (planesOf m) vals = some (trapAt .nonFinite b p i) := by
  have := firstBad_eq_some (fun p => m.getLsbD p) (fun p i => !f64Finite (vals p)[i]) p i (by simpa using h)
  simp only [checkFinite, planesOf, this, Option.map_some]

theorem checkFinite_all_eq_some (b : BankId) (vals : PlaneId → Vector F64 64) (p : PlaneId) (i : ElemId)
    (h : LowestBad (fun _ => True) (fun p i => f64Finite (vals p)[i] = false) p i) :
    checkFinite b allPlanes vals = some (trapAt .nonFinite b p i) := by
  have := firstBad_eq_some (fun _ => true) (fun p i => !f64Finite (vals p)[i]) p i (by simpa using h)
  rw [List.filter_true] at this
  simp only [checkFinite, allPlanes, this, Option.map_some]

/-! ### The frame of a command -/

theorem runCommand_halted (i : Instr) (check : State → Option Trap) (effect : State → State) (s : State)
    (h : s.err = true) : runCommand i check effect s = .next s := by simp [runCommand, h]

theorem runCommand_fault (i : Instr) (check : State → Option Trap) (effect : State → State) (s : State) (t : Trap)
    (h : s.err = false) (hc : check s = some t) : runCommand i check effect s = .next (takeFault t (encode i) s) := by
  simp [runCommand, h, hc]

theorem runCommand_done (i : Instr) (check : State → Option Trap) (effect : State → State) (s : State)
    (h : s.err = false) (hc : check s = none) : runCommand i check effect s = .next (countCommand (effect s)) := by
  simp [runCommand, h, hc]

/-- All that a command other than `SRST` can do: be discarded, fault, or make its writes and be counted. -/
theorem runCommand_cases {i : Instr} {check : State → Option Trap} {effect : State → State} {s t : State}
    (h : runCommand i check effect s = .next t) :
    (s.err = true ∧ t = s) ∨ (∃ tr, s.err = false ∧ check s = some tr ∧ t = takeFault tr (encode i) s) ∨
      (s.err = false ∧ check s = none ∧ t = countCommand (effect s)) := by
  unfold runCommand at h
  split at h
  · rename_i he; left; exact ⟨he, by simpa using h.symm⟩
  · rename_i he
    right
    split at h
    · rename_i tr hc; left; exact ⟨tr, by simpa using he, hc, by simpa using h.symm⟩
    · rename_i hc; right; exact ⟨by simpa using he, hc, by simpa using h.symm⟩

theorem runCommand_next (i : Instr) (check : State → Option Trap) (effect : State → State) (s : State) :
    ∃ t, runCommand i check effect s = .next t := by
  unfold runCommand; split
  · exact ⟨_, rfl⟩
  · split <;> exact ⟨_, rfl⟩

/-! ### The bit sink -/

@[simp] theorem fieldBits_length (v n : Nat) : (fieldBits v n).length = n := by simp [fieldBits]

theorem putFields_eq (bs : List Bool) (fs : List BitField) :
    putFields bs fs = bs ++ fs.flatMap fun f => fieldBits f.1 f.2 := by
  unfold putFields
  induction fs generalizing bs with
  | nil => simp
  | cons f fs ih => rw [List.foldl_cons, ih, bsPut, List.flatMap_cons, List.append_assoc]

theorem putFields_length (bs : List Bool) (fs : List BitField) :
    (putFields bs fs).length = bs.length + totalWidth fs := by
  rw [putFields_eq]
  simp [List.length_flatMap, totalWidth]

@[simp] theorem totalWidth_nil : totalWidth [] = 0 := rfl
@[simp] theorem totalWidth_cons (f : BitField) (fs : List BitField) : totalWidth (f :: fs) = f.2 + totalWidth fs := by
  simp [totalWidth]
@[simp] theorem totalWidth_append (fs gs : List BitField) : totalWidth (fs ++ gs) = totalWidth fs + totalWidth gs := by
  simp [totalWidth]

/-! ### The bus -/

/-- A field of an address that fits 44 bits. -/
theorem addressField (a lo len : Nat) (ha : a < 2 ^ 44) :
    ((BitVec.ofNat 44 a).extractLsb' lo len).toNat = a / 2 ^ lo % 2 ^ len := by
  rw [BitVec.extractLsb'_toNat, BitVec.toNat_ofNat, Nat.mod_eq_of_lt ha, Nat.shiftRight_eq_div_pow]

/-- The ids of the spaces (20_memory.md R60). -/
theorem spaceOfId_lt {n : Nat} {sp : Space} (h : spaceOfId n = some sp) : n < 8 := by
  by_contra hc
  obtain ⟨k, rfl⟩ : ∃ k, n = k + 8 := ⟨n - 8, by omega⟩
  simp [spaceOfId] at h

/-- The default map by the fields of the address (20_memory.md R68, R71, log entry 8). -/
theorem defaultSelect_eq (a size : Nat) :
    defaultSelect a size = if size = 8 ∧ a % 8 = 0 ∧ a < 8 * 2 ^ 40 then
      (spaceOfId (a / 2 ^ 40)).map fun sp => (sp, a % 2 ^ 40 / 8) else none := by
  unfold defaultSelect
  by_cases ha : a < 2 ^ 44
  · have h : busAccessWf (BitVec.ofNat 44 a) size = true ↔ size = 8 ∧ a % 8 = 0 ∧ a < 8 * 2 ^ 40 := by
      simp only [busAccessWf, Bool.and_eq_true, beq_iff_eq, decide_eq_true_eq, addressField a _ _ ha,
        ← BitVec.toNat_inj (y := 0#3), BitVec.toNat_ofNat]
      omega
    simp only [ha, true_and, h, addressField a _ _ ha]
    split
    · rw [show a / 2 ^ 40 % 2 ^ 4 = a / 2 ^ 40 by omega, show a / 2 ^ 3 % 2 ^ 37 = a % 2 ^ 40 / 8 by omega]
    · rfl
  · rw [if_neg (by tauto), if_neg (by omega)]

/-- The default map selects the element of an aligned 8-byte slot (20_memory.md R71). -/
theorem defaultSelect_slot (n i : Nat) (sp : Space) (hn : spaceOfId n = some sp) (hi : i < 2 ^ 37) :
    defaultSelect (n * 2 ^ 40 + i * 8) 8 = some (sp, i) := by
  have h8 := spaceOfId_lt hn
  obtain ⟨a, ha⟩ : ∃ a, n * 2 ^ 40 + i * 8 = a := ⟨_, rfl⟩
  rw [ha, defaultSelect_eq, if_pos (by omega), show a / 2 ^ 40 = n by omega, show a % 2 ^ 40 / 8 = i by omega, hn,
    Option.map_some]

/-- The default map refuses a wrong size, a wrong alignment and the space ids from 8 on (20_memory.md R68, log entry 8). -/
theorem defaultSelect_refused (a size : Nat) (h : size ≠ 8 ∨ a % 8 ≠ 0 ∨ 8 * 2 ^ 40 ≤ a) : defaultSelect a size = none := by
  rw [defaultSelect_eq, if_neg (by omega)]

/-- A read by `MemRead` or over the bus changes only the model's own record of it (20_memory.md R63). -/
theorem memRead_frame (sp : Space) (i : Nat) (s : State) :
    memRead sp i s = { s with hostData := (memRead sp i s).hostData, nextFree := (memRead sp i s).nextFree } := by
  unfold memRead; split <;> rfl

theorem busRead_frame (m : BusMap) (a size : Nat) (s : State) :
    busRead m a size s = { s with
      hostData := (busRead m a size s).hostData, busData := (busRead m a size s).busData,
      nextFree := (busRead m a size s).nextFree } := by
  unfold busRead; split
  · rw [memRead_frame]
  · rfl

/-- What a bus read of an element that has a value hands over. -/
theorem busRead_busData (m : BusMap) (a size : Nat) (s : State) (sp : Space) (i : Nat) (v : BitVec 64)
    (hs : m.select a size = some (sp, i)) (hv : s.spaceRead sp i = some v) : (busRead m a size s).busData = m.toBytes sp v := by
  simp only [busRead, hs, memRead, hv]

end Sys2Proof.Machine
end

