-- ==== Sys2Proof/Laws/Float.lean ====
section
/-! SUPPORT. The laws of binary64 patterns: their fields, the position of a top bit, small integers. -/

namespace Sys2Proof.Machine

/-- The halving search finds the top bit. -/
theorem topBitBelow_eq_log2 (k n : Nat) (h : n < 2 ^ 2 ^ k) : topBitBelow k n = Nat.log2 n := by
  induction k generalizing n with
  | zero =>
    have : n = 0 ∨ n = 1 := by simp at h; omega
    rcases this with rfl | rfl <;> decide
  | succ k ih =>
    unfold topBitBelow
    split
    · rename_i h0
      exact ih n (by rcases Nat.div_eq_zero_iff.1 h0 with h0 | h0
                     · exact absurd h0 (by positivity)
                     · exact h0)
    · rename_i h0
      have hlt : n / 2 ^ 2 ^ k < 2 ^ 2 ^ k := by
        rw [Nat.div_lt_iff_lt_mul (by positivity), ← pow_add, ← two_mul, ← pow_succ']; exact h
      rw [ih _ hlt]
      have hn : n ≠ 0 := by rintro rfl; simp at h0
      have h2 := (Nat.le_log2 h0 (k := (n / 2 ^ 2 ^ k).log2)).1 le_rfl
      have h3 := Nat.lt_log2_self (n := n / 2 ^ 2 ^ k)
      have e : n / 2 ^ 2 ^ k < 2 ^ ((n / 2 ^ 2 ^ k).log2 + 1) := h3
      symm
      rw [Nat.log2_eq_iff hn]
      rw [Nat.le_div_iff_mul_le (by positivity), ← pow_add, add_comm] at h2
      rw [Nat.div_lt_iff_lt_mul (by positivity), ← pow_add] at e
      exact ⟨h2, lt_of_lt_of_le e (Nat.pow_le_pow_right (by norm_num) (by omega))⟩

theorem topBit_eq_log2 (n : Nat) (h : n < 2 ^ 2 ^ 13) : topBit n = Nat.log2 n := topBitBelow_eq_log2 13 n h

theorem f64Frac_lt (x : F64) : f64Frac x < 2 ^ 52 := Nat.mod_lt _ (by positivity)

theorem f64Exp_lt (x : F64) : f64Exp x < 2 ^ 11 := Nat.mod_lt _ (by positivity)

theorem f64Unit_pos : 0 < f64Unit := by unfold f64Unit; positivity

/-- The magnitude of a pattern is that of its value. -/
theorem natAbs_f64Val (x : F64) : (f64Val x).natAbs = f64Mag x := by
  unfold f64Val; split <;> simp

theorem f64Val_neg_iff (x : F64) : f64Val x < 0 ↔ f64Sign x = true ∧ f64Mag x ≠ 0 := by
  unfold f64Val; split <;> simp_all; omega

@[simp] theorem f64OfInt_zero : f64OfInt 0 = 0 := by decide +kernel

/-- A pattern built from a sign and an exponent and fraction field reads back as those fields. -/
theorem f64Pack_fields (sign : Bool) (e f : Nat) (he : e < 2 ^ 11) (hf : f < 2 ^ 52) :
    f64Sign (f64Pack sign (e * 2 ^ 52 + f)) = sign ∧ f64Exp (f64Pack sign (e * 2 ^ 52 + f)) = e ∧
      f64Frac (f64Pack sign (e * 2 ^ 52 + f)) = f := by
  unfold f64Sign f64Exp f64Frac f64Pack
  refine ⟨?_, ?_, ?_⟩
  · rw [BitVec.msb_eq_decide]
    cases sign <;> simp <;> omega
  · cases sign <;> simp <;> omega
  · cases sign <;> simp <;> omega

/-- `f64Unit` as a power whose exponent stays folded. -/
theorem f64Unit_eq_pow : ∃ K, K = 1074 ∧ f64Unit = 2 ^ K := ⟨1074, rfl, by unfold f64Unit; rfl⟩

/-- A positive integer below `2^53` is rounded to itself. -/
theorem roundMag_int (m : Nat) (h0 : m ≠ 0) (h : m < 2 ^ 53) :
    ∃ e f, e < 2047 ∧ f < 2 ^ 52 ∧ roundMag (m * f64Unit) 0 = e * 2 ^ 52 + f ∧ e ≠ 0 ∧
      (2 ^ 52 + f) * 2 ^ (e - 1) = m * f64Unit := by
  obtain ⟨K, hK, hU⟩ := f64Unit_eq_pow
  have hl : m.log2 < 53 := (Nat.log2_lt h0).2 h
  have h1 : 2 ^ m.log2 ≤ m := (Nat.le_log2 h0).1 le_rfl
  have h2 : m < 2 ^ (m.log2 + 1) := Nat.lt_log2_self
  set L := m.log2 with hL
  have htop : topBit (m * f64Unit) = L + K := by
    have hlt : m * f64Unit < 2 ^ (L + 1 + K) := by
      rw [hU, pow_add]; exact Nat.mul_lt_mul_of_pos_right h2 (by positivity)
    have hne : m * f64Unit ≠ 0 := Nat.mul_ne_zero h0 f64Unit_pos.ne'
    rw [topBit_eq_log2 _ (lt_of_lt_of_le hlt (Nat.pow_le_pow_right (by norm_num) (by omega))), Nat.log2_eq_iff hne]
    refine ⟨?_, hlt.trans_eq (congrArg (2 ^ ·) (by omega))⟩
    rw [hU, pow_add]; exact Nat.mul_le_mul_right _ h1
  have hstep : roundStep (m * f64Unit) 0 = L + (K - 52) := by unfold roundStep; omega
  have hsplit : m * f64Unit = m * 2 ^ (52 - L) * 2 ^ (L + (K - 52)) := by
    rw [hU, mul_assoc, ← pow_add]; exact congrArg (fun e => m * 2 ^ e) (by omega)
  have hge : 2 ^ 52 ≤ m * 2 ^ (52 - L) := by
    calc 2 ^ 52 = 2 ^ L * 2 ^ (52 - L) := by rw [← pow_add]; exact congrArg (2 ^ ·) (by omega)
      _ ≤ m * 2 ^ (52 - L) := Nat.mul_le_mul_right _ h1
  have hlt : m * 2 ^ (52 - L) < 2 ^ 53 := by
    calc m * 2 ^ (52 - L) < 2 ^ (L + 1) * 2 ^ (52 - L) := Nat.mul_lt_mul_of_pos_right h2 (by positivity)
      _ = 2 ^ 53 := by rw [← pow_add]; exact congrArg (2 ^ ·) (by omega)
  have hshift : roundShift (m * f64Unit) (L + (K - 52)) = m * 2 ^ (52 - L) := by
    have hp : 0 < 2 ^ (L + (K - 52)) := by positivity
    unfold roundShift
    rw [hsplit, Nat.mul_mod_left, Nat.mul_div_cancel _ hp, if_neg]
    rintro (h' | h') <;> omega
  refine ⟨L + (K - 51), m * 2 ^ (52 - L) - 2 ^ 52, by omega, by omega, ?_, by omega, ?_⟩
  · unfold roundMag f64InfMag
    rw [hstep, Nat.add_zero, hshift]
    clear_value L
    clear hshift hsplit hstep htop hU
    generalize m * 2 ^ (52 - L) = r at *
    omega
  · rw [Nat.add_sub_cancel' hge, hsplit]
    exact congrArg (fun e => m * 2 ^ (52 - L) * 2 ^ e) (by omega)

/-- `f64(n)` is exact and finite (00_scope.md R11). -/
theorem f64OfInt_exact (n : Int) (h : n.natAbs < 2 ^ 53) :
    f64Finite (f64OfInt n) = true ∧ f64Val (f64OfInt n) = n * f64Unit := by
  by_cases h0 : n = 0
  · subst h0; decide +kernel
  · obtain ⟨e, f, he, hf, hr, he0, hv⟩ := roundMag_int n.natAbs (by simpa using h0) h
    obtain ⟨hs, hE, hF⟩ := f64Pack_fields (decide (n < 0)) e f (by omega) hf
    have hm : f64Mag (f64OfInt n) = n.natAbs * f64Unit := by
      unfold f64OfInt f64Mag; rw [hr, hE, hF, if_neg he0, hv]
    constructor
    · unfold f64Finite f64OfInt; rw [hr, hE]; simp; omega
    · have hs' : f64Sign (f64OfInt n) = decide (n < 0) := by unfold f64OfInt; rw [hr, hs]
      unfold f64Val
      rw [hm, hs']
      rcases lt_or_ge n 0 with hn | hn
      · simp only [hn, decide_true, if_true]
        push_cast
        rw [abs_of_neg hn]; ring
      · simp only [not_lt.2 hn, decide_false, Bool.false_eq_true, if_false]
        push_cast
        rw [abs_of_nonneg hn]

theorem f64OfInt_finite (n : Int) (h1 : -2048 ≤ n) (h2 : n ≤ 2047) : f64Finite (f64OfInt n) = true :=
  (f64OfInt_exact n (by omega)).1

theorem f64Val_f64OfInt (n : Int) (h1 : -2048 ≤ n) (h2 : n ≤ 2047) : f64Val (f64OfInt n) = n * f64Unit :=
  (f64OfInt_exact n (by omega)).2

/-- The rounding of `RECON` gives an integer sample back. -/
theorem f64Round_of_val (x : F64) (n : Int) (h : f64Val x = n * f64Unit) : f64Round x = n := by
  have hu := f64Unit_pos
  have hf : f64Floor x = n := by
    unfold f64Floor
    rw [h, Int.mul_fdiv_cancel _ (by exact_mod_cast hu.ne')]
  unfold f64Round
  rw [hf, h, sub_self, mul_zero, if_pos (by exact_mod_cast hu)]

theorem f64Round_f64OfInt (n : Int) (h1 : -2048 ≤ n) (h2 : n ≤ 2047) : f64Round (f64OfInt n) = n :=
  f64Round_of_val _ _ (f64Val_f64OfInt n h1 h2)

/-- The NaN of the arithmetic is not finite. -/
theorem f64NaN_not_finite : f64Finite f64NaN = false := by decide

end Sys2Proof.Machine
end

