-- ==== Sys2Proof/Laws/Quant.lean ====
section
/-! SUPPORT. The laws of the quantizer and the dequantizer: the ranges of their results, and one element of each. -/

namespace Sys2Proof.Machine

/-- The DC quantizer with its literals written out (44_quant.md R193). -/
theorem qdc_eq (x : F64) : qdc x =
    if f64TruncDiv x 8 < 0 then (1, true)
    else if f64TruncDiv x 8 = 0 then (1, false)
    else if f64TruncDiv x 8 = 128 then (255, false)
    else if 254 < f64TruncDiv x 8 then (254, true)
    else (f64TruncDiv x 8, false) := rfl

/-- The DC dequantizer with its literals written out (44_quant.md R198). -/
theorem ddc_eq (l : Int) : ddc l = if l = 255 then 1024 else 8 * l := by
  simp [ddc, mul_comm]

/-- A DC level the quantizer gives is always legal (44_quant.md R193). -/
theorem qdc_range (x : F64) : 1 ≤ (qdc x).1 ∧ (qdc x).1 ≤ 255 ∧ (qdc x).1 ≠ 128 := by
  rw [qdc_eq]
  generalize f64TruncDiv x 8 = v
  by_cases h1 : v < 0
  · simp [h1]
  · by_cases h2 : v = 0
    · simp [h2]
    · by_cases h3 : v = 128
      · simp [h3]
      · by_cases h4 : 254 < v
        · simp [h1, h2, h3, h4]
        · simp [h1, h2, h3, h4]; omega

/-- An AC level the quantizer gives fits the escape range (44_quant.md R194, 45_runlevel.md R220). -/
theorem qac_range (x : F64) (q : Nat) : -127 ≤ (qac x q).1 ∧ (qac x q).1 ≤ 127 := by
  simp only [qac, literals_acLevelMax]
  generalize f64FloorAbsDiv x (2 * q) = m
  generalize f64Negative x = neg
  by_cases h : 127 < m <;> cases neg <;> simp [h] <;> omega

theorem levelOf_range (dc : Bool) (q : Nat) (k : ElemId) (x : F64) :
    -127 ≤ (levelOf dc q k x).1 ∧ (levelOf dc q k x).1 ≤ 255 := by
  unfold levelOf
  split
  · have := qdc_range x; omega
  · have := qac_range x q; omega

/-- A level in range is kept by the 16 bits of an element of `QB`. -/
theorem toInt_ofInt_16 (n : Int) (h1 : -32768 ≤ n) (h2 : n < 32768) : (BitVec.ofInt 16 n).toInt = n := by
  rw [BitVec.toInt_ofInt]
  apply Int.bmod_eq_of_le <;> simp <;> omega

theorem quantPlane_get (dc : Bool) (q : Nat) (cs : Vector F64 64) (k : ElemId) :
    (quantPlane dc q cs)[k] = levelOf dc q k cs[k] := by
  simp [quantPlane, levelOf]

theorem levelsOf_get (k : Bank) (dc : Bool) (q : Nat) (p : PlaneId) (i : ElemId) :
    (k.levelsOf dc q p)[i] = (levelOf dc q i (planeVals k.fb[p])[i]).1 := by
  rw [← quantPlane_get]
  simp [Bank.levelsOf]

theorem saturates_iff (k : Bank) (dc : Bool) (q : Nat) (p : PlaneId) :
    k.saturates dc q p = true ↔ ∃ i : ElemId, (levelOf dc q i (planeVals k.fb[p])[i]).2 = true := by
  simp only [Bank.saturates, List.any_eq_true, List.mem_finRange, true_and, quantPlane_get]

theorem codedFlag_iff (dc : Bool) (l : Vector Int 64) : codedFlag dc l = true ↔ HasCoded dc l := by
  simp [codedFlag, HasCoded]

/-- The bank after `QNT`. -/
theorem quantize_bank (b : BankId) (m : PlaneMask) (dc : Bool) (s : State) :
    (quantize b m dc s).bank b = { s.bank b with
      qb := overPlanes m (s.bank b).qb fun p =>
        fullPlane fun i => BitVec.ofInt 16 ((s.bank b).levelsOf dc s.quant.toNat p)[i]
      cbp := updateCbp m (s.bank b).cbp fun p => codedFlag dc ((s.bank b).levelsOf dc s.quant.toNat p) } :=
  bank_setBank_same s b _

/-- The dequantizer's AC formula in one line (44_quant.md R199). -/
theorem dac_eq (l : Int) (q : Nat) :
    dac l q = if l = 0 then 0
      else max (-2048) (min 2047 (l.sign * (q * (2 * l.natAbs + 1) - (if q % 2 = 0 then 1 else 0)))) := by
  unfold dac dacMagnitude clip
  rw [literals_recMin, literals_recMax]
  rcases lt_trichotomy l 0 with hn | hn | hn
  · rw [Int.sign_eq_neg_one_of_neg hn]
    simp only [hn, hn.ne, if_true, if_false]
    split_ifs <;> omega
  · simp [hn]
  · rw [Int.sign_eq_one_of_pos hn]
    simp only [hn.ne', not_lt.2 hn.le, if_false]
    split_ifs <;> omega

theorem dac_range (l : Int) (q : Nat) : -2048 ≤ dac l q ∧ dac l q ≤ 2047 := by
  rw [dac_eq]; split <;> omega

theorem dequantPlane_get (dc : Bool) (q : Nat) (l : Vector Int 64) (k : ElemId) :
    (dequantPlane dc q l)[k] = reconstructionOf dc q k l[k] := by
  have h : (dequantPlane dc q l)[k] = if dc = true ∧ k = 0 then ddc l[k] else dac l[k] q := by simp [dequantPlane]
  rw [h, reconstructionOf]
  by_cases hk : dc = true ∧ k = 0
  · rw [if_pos hk, if_pos hk]
    exact ddc_eq _
  · rw [if_neg hk, if_neg hk, dac_eq]

end Sys2Proof.Machine
end

