-- ==== Sys2Proof/Laws/Commands.lean ====
section
/-! SUPPORT. Every command but `SRST` as one frame around its check and its effect, and the frame of each effect. -/

namespace Sys2Proof.Machine

/-- The check of a command. -/
def checkOf : Instr → State → Option Trap
  | .nop => fun _ => none
  | .setw _ => fun _ => none
  | .seth _ => fun _ => none
  | .setq q => fun _ => require (decide (1 ≤ q.toNat)) (plainTrap .quant)
  | .setmb _ _ => fun _ => none
  | .create => checkConfig
  | .csc => checkStream
  | .extractCur _ => checkPosition
  | .extractRef _ => checkPosition
  | .extractDiff _ => checkPosition
  | .fdct b m => checkFdct b m
  | .zz b m => checkReorder b m .nat
  | .qnt b m _ => checkQnt b m
  | .rlcost b m dc => checkRunLevel Config.vlc b m dc
  | .rlemit b m dc => checkRunLevel Config.vlc b m dc
  | .dqnt b m dc => checkDqnt b m dc
  | .izz b m => checkReorder b m .zz
  | .idct b m => checkIdct b m
  | .recon b _ => checkRecon b
  | .copymb => checkPosition
  | .frameend => checkStream
  | .srst => fun _ => none

/-- The bank a completed command leaves, for the commands that write one. -/
def bankAfter (i : Instr) (s : State) : Option (BankId × Bank) :=
  match i with
  | .nop => none
  | .setw _ => none
  | .seth _ => none
  | .setq _ => none
  | .setmb _ _ => none
  | .create => none
  | .csc => none
  | .extractCur b => some (b, { s.bank b with sb := Vector.ofFn fun p => fullPlane fun i => f64OfInt (s.extCur p i) })
  | .extractRef b => some (b, { s.bank b with sb := Vector.ofFn fun p => fullPlane fun i => f64OfInt (s.extRef p i) })
  | .extractDiff b =>
    some (b, { s.bank b with
      sb := Vector.ofFn fun p => fullPlane fun i => f64OfInt ((s.extCur p i : Int) - (s.extRef p i : Int)) })
  | .fdct b m =>
    some (b, { s.bank b with
      fb := overPlanes m (s.bank b).fb fun p => fullPlane fun j => ((s.bank b).fdctOf p)[j]
      fbord := overPlanes m (s.bank b).fbord fun _ => .nat })
  | .zz b m =>
    some (b, { s.bank b with
      fb := overPlanes m (s.bank b).fb fun p => Vector.ofFn fun k => ((s.bank b).fb[p])[zigzag k]
      fbord := overPlanes m (s.bank b).fbord fun _ => .zz })
  | .qnt b m dc => some (b, (quantize b m dc s).bank b)
  | .rlcost _ _ _ => none
  | .rlemit _ _ _ => none
  | .dqnt b m dc =>
    some (b, { s.bank b with
      fb := overPlanes m (s.bank b).fb fun p =>
        fullPlane fun k => f64OfInt (dequantPlane dc s.quant.toNat (planeLevels (s.bank b).qb[p]))[k]
      fbord := overPlanes m (s.bank b).fbord fun _ => .zz })
  | .izz b m =>
    some (b, { s.bank b with
      fb := overPlanes m (s.bank b).fb fun p => Vector.ofFn fun k => ((s.bank b).fb[p])[zigzagPos k]
      fbord := overPlanes m (s.bank b).fbord fun _ => .nat })
  | .idct b m =>
    some (b, { s.bank b with sb := overPlanes m (s.bank b).sb fun p => fullPlane fun i => ((s.bank b).idctOf p)[i] })
  | .recon _ _ => none
  | .copymb => none
  | .frameend => none
  | .srst => none

/-- The effect of a command. -/
def effectOf : Instr → State → State
  | .nop => fun s => s
  | .setw v => setWreq v
  | .seth v => setHreq v
  | .setq q => fun s => { s with quant := q }
  | .setmb x y => fun s => { s with mbx := x, mby := y }
  | .create => createStream
  | .csc => convertFrame
  | .extractCur b => fun s => storeSamples b (fun p i => s.extCur p i) s
  | .extractRef b => fun s => storeSamples b (fun p i => s.extRef p i) s
  | .extractDiff b => fun s => storeSamples b (fun p i => (s.extCur p i : Int) - (s.extRef p i : Int)) s
  | .fdct b m => fun s => s.setBank b
      { s.bank b with
        fb := overPlanes m (s.bank b).fb fun p => fullPlane fun j => ((s.bank b).fdctOf p)[j]
        fbord := overPlanes m (s.bank b).fbord fun _ => .nat }
  | .zz b m => reorder b m zigzag .zz
  | .qnt b m dc => quantize b m dc
  | .rlcost b m dc => costMb Config.vlc b m dc
  | .rlemit b m dc => emitMb Config.vlc b m dc
  | .dqnt b m dc => fun s => s.setBank b
      { s.bank b with
        fb := overPlanes m (s.bank b).fb fun p =>
          fullPlane fun k => f64OfInt (dequantPlane dc s.quant.toNat (planeLevels (s.bank b).qb[p]))[k]
        fbord := overPlanes m (s.bank b).fbord fun _ => .zz }
  | .izz b m => reorder b m zigzagPos .nat
  | .idct b m => fun s => s.setBank b
      { s.bank b with sb := overPlanes m (s.bank b).sb fun p => fullPlane fun i => ((s.bank b).idctOf p)[i] }
  | .recon b mode => fun s => writeMb (assemblePixel (s.reconT b mode)) s
  | .copymb => fun s => writeMb (s.mbPx s.ref) s
  | .frameend => endFrame
  | .srst => softReset

/-- Every command but `SRST` is its check and its effect in the common frame. -/
theorem exec_eq_runCommand (i : Instr) (h : i ≠ .srst) (s : State) :
    exec i s = runCommand i (checkOf i) (effectOf i) s := by
  cases i <;> first | rfl | exact absurd rfl h

/-- All that a command but `SRST` can do. -/
theorem exec_cases {i : Instr} {s t : State} (hi : i ≠ .srst) (h : exec i s = .next t) :
    (s.err = true ∧ t = s) ∨ (∃ tr, s.err = false ∧ checkOf i s = some tr ∧ t = takeFault tr (encode i) s) ∨
      (s.err = false ∧ checkOf i s = none ∧ t = countCommand (effectOf i s)) := by
  rw [exec_eq_runCommand i hi] at h
  exact runCommand_cases h

/-- A command whose check passes completes. -/
theorem exec_done (i : Instr) (hi : i ≠ .srst) (s : State) (h : s.err = false) (hc : checkOf i s = none) :
    exec i s = .next (countCommand (effectOf i s)) := by
  rw [exec_eq_runCommand i hi, runCommand_done _ _ _ _ h hc]

/-- A command whose check fails faults. -/
theorem exec_fault (i : Instr) (hi : i ≠ .srst) (s : State) (t : Trap) (h : s.err = false) (hc : checkOf i s = some t) :
    exec i s = .next (takeFault t (encode i) s) := by
  rw [exec_eq_runCommand i hi, runCommand_fault _ _ _ _ _ h hc]

theorem exec_srst (s : State) : exec .srst s = .next (softReset s) := rfl

/-- No effect but that of `SRST` touches the error registers, the command counter or the host's queue. -/
theorem effectOf_frame (i : Instr) (hi : i ≠ .srst) (s : State) :
    (effectOf i s).err = s.err ∧ (effectOf i s).errcode = s.errcode ∧ (effectOf i s).errcmd = s.errcmd ∧
      (effectOf i s).errinfo = s.errinfo ∧ (effectOf i s).cmdcnt = s.cmdcnt ∧ (effectOf i s).pending = s.pending ∧
      (effectOf i s).pc = s.pc := by
  cases i with
  | srst => exact absurd rfl hi
  | setw v => simp only [effectOf, setWreq]; split <;> simp
  | seth v => simp only [effectOf, setHreq]; split <;> simp
  | recon b mode => simp only [effectOf, writeMb, and_self]
  | copymb => simp only [effectOf, writeMb, and_self]
  | rlcost b m dc => simp only [effectOf, costMb, and_self]
  | rlemit b m dc => simp only [effectOf, emitMb, and_self]
  | _ => exact ⟨rfl, rfl, rfl, rfl, rfl, rfl, rfl⟩

/-- What each effect but that of `SRST` leaves in the banks. -/
theorem effectOf_bank (i : Instr) (hi : i ≠ .srst) (s : State) (b : BankId) :
    (effectOf i s).bank b = match bankAfter i s with
      | some (b', k) => if b = b' then k else s.bank b
      | none => s.bank b := by
  have key : ∀ (s : State) (b' : BankId) (k : Bank), (s.setBank b' k).bank b = if b = b' then k else s.bank b := by
    intro s b' k
    by_cases h : b = b'
    · subst h; simp
    · rw [if_neg h, bank_setBank_other _ _ _ _ h]
  cases i with
  | srst => exact absurd rfl hi
  | setw v => simp only [effectOf, setWreq, bankAfter]; split <;> rfl
  | seth v => simp only [effectOf, setHreq, bankAfter]; split <;> rfl
  | qnt b' m dc =>
    by_cases h : b = b'
    · subst h; simp [effectOf, bankAfter]
    · simp only [effectOf, bankAfter, if_neg h]
      exact bank_setBank_other s b' b _ h
  | extractCur b' => exact key s b' _
  | extractRef b' => exact key s b' _
  | extractDiff b' => exact key s b' _
  | fdct b' m => exact key s b' _
  | zz b' m => exact key s b' _
  | dqnt b' m dc => exact key s b' _
  | izz b' m => exact key s b' _
  | idct b' m => exact key s b' _
  | recon b' mode => simp only [effectOf, writeMb, bankAfter, State.bank]
  | copymb => simp only [effectOf, writeMb, bankAfter, State.bank]
  | rlcost b' m dc => simp only [effectOf, costMb, bankAfter, State.bank]
  | rlemit b' m dc => simp only [effectOf, emitMb, bankAfter, State.bank]
  | _ => rfl

@[simp] theorem normalize_none (x : F64) : normalize none x = x := rfl

/-- The transforms as the one-line formulas of 43_transform.md R174 and R176. -/
theorem fdctPlane_get (v : Vector F64 64) (j : ElemId) :
    (fdctPlane v)[j] = fdctValue (fun i => v[i]) (rowOf j) (colOf j) := by
  simp [fdctPlane, fdctCols, fdctRows, fdctValue]

theorem idctPlane_get (v : Vector F64 64) (j : ElemId) :
    (idctPlane v)[j] = idctValue (fun i => v[i]) (rowOf j) (colOf j) := by
  simp [idctPlane, idctCols, idctRows, idctValue]

end Sys2Proof.Machine
end

