-- ==== Sys2Proof/Laws/Frames.lean ====
section
/-! SUPPORT. What the commands that touch the frame memories do to one pixel, said once. -/

namespace Sys2Proof.Machine

/-! ### Components -/

theorem clip_eq (v lo hi : Int) (h : lo ≤ hi) : clip v lo hi = max lo (min hi v) := by
  unfold clip; split_ifs <;> omega

theorem clipPixel_eq (v : Int) : clipPixel v = max 0 (min 255 v) := clip_eq v _ _ (by decide)

theorem toNat_ofInt_8 (v : Int) (h1 : 0 ≤ v) (h2 : v ≤ 255) : ((BitVec.ofInt 8 v).toNat : Int) = v := by
  rw [BitVec.toNat_ofInt]; omega

theorem packPixel_toNat (y u v : Int) :
    (packPixel y u v).toNat =
      (BitVec.ofInt 8 v).toNat * 65536 + (BitVec.ofInt 8 u).toNat * 256 + (BitVec.ofInt 8 y).toNat := by
  unfold packPixel
  generalize BitVec.ofInt 8 v = a
  generalize BitVec.ofInt 8 u = b
  generalize BitVec.ofInt 8 y = d
  rw [BitVec.toNat_append, BitVec.toNat_append, ← Nat.shiftLeft_add_eq_or_of_lt b.isLt,
    ← Nat.shiftLeft_add_eq_or_of_lt d.isLt]
  simp only [Nat.shiftLeft_eq]
  omega

/-- The components of a packed pixel, for components that are 8-bit intensities. -/
theorem pixY_packPixel (y u v : Int) (h1 : 0 ≤ y) (h2 : y ≤ 255) : (pixY (packPixel y u v) : Int) = y := by
  rw [pixY, BitVec.extractLsb'_toNat, packPixel_toNat]
  have := toNat_ofInt_8 y h1 h2
  have := (BitVec.ofInt 8 y).isLt
  simp only [Nat.shiftRight_zero]
  omega

theorem pixU_packPixel (y u v : Int) (h1 : 0 ≤ u) (h2 : u ≤ 255) : (pixU (packPixel y u v) : Int) = u := by
  rw [pixU, BitVec.extractLsb'_toNat, packPixel_toNat]
  have := toNat_ofInt_8 u h1 h2
  have := (BitVec.ofInt 8 y).isLt
  have := (BitVec.ofInt 8 u).isLt
  simp only [Nat.shiftRight_eq_div_pow]
  omega

theorem pixV_packPixel (y u v : Int) (h1 : 0 ≤ v) (h2 : v ≤ 255) : (pixV (packPixel y u v) : Int) = v := by
  rw [pixV, BitVec.extractLsb'_toNat, packPixel_toNat]
  have := toNat_ofInt_8 v h1 h2
  have := (BitVec.ofInt 8 y).isLt
  have := (BitVec.ofInt 8 u).isLt
  have := (BitVec.ofInt 8 v).isLt
  simp only [Nat.shiftRight_eq_div_pow]
  omega

theorem pixY_le (v : Pixel) : pixY v ≤ 255 := by have := (v.extractLsb' 0 8).isLt; unfold pixY; omega
theorem pixU_le (v : Pixel) : pixU v ≤ 255 := by have := (v.extractLsb' 8 8).isLt; unfold pixU; omega
theorem pixV_le (v : Pixel) : pixV v ≤ 255 := by have := (v.extractLsb' 16 8).isLt; unfold pixV; omega

theorem boxAverage_le (comp : Pixel → Nat) (h : ∀ v, comp v ≤ 255) (px : Nat → Nat → Pixel) (r c : Nat) :
    boxAverage comp px r c ≤ 255 := by
  unfold boxAverage
  have h1 := h (px (2 * c) (2 * r))
  have h2 := h (px (2 * c + 1) (2 * r))
  have h3 := h (px (2 * c) (2 * r + 1))
  have h4 := h (px (2 * c + 1) (2 * r + 1))
  omega

/-- Every extracted sample is an 8-bit intensity (42_block_extract_recon.md R153). -/
theorem extSample_le (px : Nat → Nat → Pixel) (p : PlaneId) (i : ElemId) : extSample px p i ≤ 255 := by
  fin_cases p
  · exact pixY_le _
  · exact pixY_le _
  · exact pixY_le _
  · exact pixY_le _
  · exact boxAverage_le _ pixU_le _ _ _
  · exact boxAverage_le _ pixV_le _ _ _

/-! ### A macroblock written -/

theorem mem_mbPixels (xy : Nat × Nat) : xy ∈ mbPixels ↔ xy.1 < 16 ∧ xy.2 < 16 := mem_framePixels 16 16 xy

/-- On the grid, each pixel of the macroblock takes its value. -/
theorem writeMb_read (s : State) (hg : s.onGrid) (f : Nat → Nat → Pixel) (x y : Nat) (hx : x < 16) (hy : y < 16) :
    (writeMb f s).cur.read (s.mbIndex x y) = f x y := by
  refine read_writeList_mem s.cur mbPixels (fun xy => s.mbIndex xy.1 xy.2) (fun xy => f xy.1 xy.2) (x, y)
    ((mem_mbPixels _).2 ⟨hx, hy⟩) ?_
  rintro ⟨x', y'⟩ hm h
  obtain ⟨h1, h2⟩ := mbIndex_inj s hg ((mem_mbPixels _).1 hm).1 hx h
  simp only at h1 h2
  subst h1 h2
  rfl

/-- Every other element of `CUR` keeps its value. -/
theorem writeMb_read_other (s : State) (f : Nat → Nat → Pixel) (i : Nat)
    (h : ∀ x y, x < 16 → y < 16 → i ≠ s.mbIndex x y) : (writeMb f s).cur.read i = s.cur.read i := by
  refine read_writeList_other s.cur mbPixels (fun xy => s.mbIndex xy.1 xy.2) (fun xy => f xy.1 xy.2) i ?_
  rintro ⟨x', y'⟩ hm
  have := (mem_mbPixels _).1 hm
  exact h x' y' this.1 this.2

/-- Writing a macroblock writes `CUR` and nothing else. -/
theorem writeMb_frame (f : Nat → Nat → Pixel) (s : State) : writeMb f s = { s with cur := (writeMb f s).cur } := by
  simp only [writeMb]

/-! ### A frame converted -/

/-- Each pixel of the frame takes its converted source pixel. -/
theorem convertFrame_curPx (s : State) (x y : Nat) (hx : x < s.w.toNat) (hy : y < s.h.toNat) :
    (convertFrame s).curPx x y = convertPixel (s.srcPx x y) := by
  refine read_writeList_mem s.cur (framePixels s.w.toNat s.h.toNat) (fun xy => pixelIndex s.w.toNat xy.1 xy.2)
    (fun xy => convertPixel (s.srcPx xy.1 xy.2)) (x, y) ((mem_framePixels _ _ _).2 ⟨hx, hy⟩) ?_
  rintro ⟨x', y'⟩ hm h
  obtain ⟨h1, h2⟩ := pixelIndex_inj ((mem_framePixels _ _ _).1 hm).1 hx h
  simp only at h1 h2
  subst h1 h2
  rfl

/-- Every other element of `CUR` keeps its value. -/
theorem convertFrame_read_other (s : State) (i : Nat)
    (h : ∀ x y, x < s.w.toNat → y < s.h.toNat → i ≠ pixelIndex s.w.toNat x y) :
    (convertFrame s).cur.read i = s.cur.read i := by
  refine read_writeList_other s.cur (framePixels s.w.toNat s.h.toNat) (fun xy => pixelIndex s.w.toNat xy.1 xy.2)
    (fun xy => convertPixel (s.srcPx xy.1 xy.2)) i ?_
  rintro ⟨x', y'⟩ hm
  have := (mem_framePixels _ _ _).1 hm
  exact h x' y' this.1 this.2

/-- Converting a frame writes `CUR` and the counter of free values, and nothing else. -/
theorem convertFrame_frame (s : State) :
    convertFrame s = { s with cur := (convertFrame s).cur, nextFree := s.nextFree + 1 } := by
  simp only [convertFrame]

end Sys2Proof.Machine
end

