-- ==== Sys2Proof/Laws/PerInstr.lean ====
section
/-! SUPPORT. For every command: its encoding is a legal word under its own opcode (30_encoding.md R92, R94, R95), the
legality being that of the format table and not that of the decoder. -/

namespace Sys2Proof.Laws.EncodesLegal

/-- The encoding of a command has the opcode R94 assigns to it, and every must-be-zero bit of its format is zero. -/
def Statement (i : Instr) : Prop := opcodeOf (encode i) = i.opcode ∧ legalWord (encode i) = true

theorem wordI16_toNat (op : BitVec 8) (v : BitVec 16) : (wordI16 op v).toNat = op.toNat * 2 ^ 24 + v.toNat := by
  have h := v.isLt
  unfold wordI16
  rw [BitVec.toNat_append, BitVec.toNat_append, ← Nat.shiftLeft_add_eq_or_of_lt v.isLt]
  simp only [Nat.shiftLeft_eq, BitVec.toNat_ofNat, Nat.zero_mod, Nat.or_zero]
  omega

theorem wordXY_toNat (op : BitVec 8) (x y : BitVec 12) :
    (wordXY op x y).toNat = op.toNat * 2 ^ 24 + x.toNat * 2 ^ 12 + y.toNat := by
  unfold wordXY
  rw [BitVec.toNat_append, BitVec.toNat_append, ← Nat.shiftLeft_add_eq_or_of_lt y.isLt,
    ← Nat.shiftLeft_add_eq_or_of_lt x.isLt]
  simp only [Nat.shiftLeft_eq]
  omega

theorem opcodeOf_wordI16 (op : BitVec 8) (v : BitVec 16) : opcodeOf (wordI16 op v) = op.toNat := by
  have := op.isLt
  have := v.isLt
  rw [opcodeOf, BitVec.extractLsb'_toNat, wordI16_toNat, Nat.shiftRight_eq_div_pow]
  omega

theorem formatI16_wordI16 (op : BitVec 8) (v : BitVec 16) : formatI16 (wordI16 op v) = true := by
  have := v.isLt
  rw [formatI16, zeroBits, beq_iff_eq, ← BitVec.toNat_inj, BitVec.extractLsb'_toNat, wordI16_toNat,
    Nat.shiftRight_eq_div_pow]
  simp only [BitVec.toNat_ofNat, Nat.zero_mod]
  omega

theorem opcodeOf_wordXY (op : BitVec 8) (x y : BitVec 12) : opcodeOf (wordXY op x y) = op.toNat := by
  have := op.isLt
  have := x.isLt
  have := y.isLt
  rw [opcodeOf, BitVec.extractLsb'_toNat, wordXY_toNat, Nat.shiftRight_eq_div_pow]
  omega

theorem nop : Statement .nop := by unfold Statement; decide
theorem setw (v : BitVec 16) : Statement (.setw v) := by
  have h : opcodeOf (encode (.setw v)) = 0x01 := opcodeOf_wordI16 _ _
  exact ⟨h, by unfold legalWord; rw [h]; exact formatI16_wordI16 _ _⟩
theorem seth (v : BitVec 16) : Statement (.seth v) := by
  have h : opcodeOf (encode (.seth v)) = 0x02 := opcodeOf_wordI16 _ _
  exact ⟨h, by unfold legalWord; rw [h]; exact formatI16_wordI16 _ _⟩
theorem setq (q : BitVec 5) : Statement (.setq q) := by unfold Statement; revert q; decide +kernel
theorem setmb (x y : BitVec 12) : Statement (.setmb x y) := by
  have h : opcodeOf (encode (.setmb x y)) = 0x04 := opcodeOf_wordXY _ _ _
  exact ⟨h, by unfold legalWord; rw [h]; rfl⟩
theorem create : Statement .create := by unfold Statement; decide
theorem csc : Statement .csc := by unfold Statement; decide
theorem extractCur (b : BankId) : Statement (.extractCur b) := by unfold Statement; revert b; decide
theorem extractRef (b : BankId) : Statement (.extractRef b) := by unfold Statement; revert b; decide
theorem extractDiff (b : BankId) : Statement (.extractDiff b) := by unfold Statement; revert b; decide
theorem fdct (b : BankId) (m : PlaneMask) : Statement (.fdct b m) := by unfold Statement; revert b m; decide +kernel
theorem zz (b : BankId) (m : PlaneMask) : Statement (.zz b m) := by unfold Statement; revert b m; decide +kernel
theorem qnt (b : BankId) (m : PlaneMask) (dc : Bool) : Statement (.qnt b m dc) := by
  unfold Statement; revert b m dc; decide +kernel
theorem rlcost (b : BankId) (m : PlaneMask) (dc : Bool) : Statement (.rlcost b m dc) := by
  unfold Statement; revert b m dc; decide +kernel
theorem rlemit (b : BankId) (m : PlaneMask) (dc : Bool) : Statement (.rlemit b m dc) := by
  unfold Statement; revert b m dc; decide +kernel
theorem dqnt (b : BankId) (m : PlaneMask) (dc : Bool) : Statement (.dqnt b m dc) := by
  unfold Statement; revert b m dc; decide +kernel
theorem izz (b : BankId) (m : PlaneMask) : Statement (.izz b m) := by unfold Statement; revert b m; decide +kernel
theorem idct (b : BankId) (m : PlaneMask) : Statement (.idct b m) := by unfold Statement; revert b m; decide +kernel
theorem recon (b : BankId) (mode : ReconMode) : Statement (.recon b mode) := by
  unfold Statement; revert b; cases mode <;> decide
theorem copymb : Statement .copymb := by unfold Statement; decide
theorem frameend : Statement .frameend := by unfold Statement; decide
theorem srst : Statement .srst := by unfold Statement; decide

end Sys2Proof.Laws.EncodesLegal
end

