-- ==== Sys2Proof/Laws/RunLevel.lean ====
section
/-! SUPPORT. What the operations of the run-level coder do, said once: the events of a plane, when its checks pass, and
the widths and bits of its fields; and that the open code tables meet the constraints of 45_runlevel.md R211. -/

namespace Sys2Proof.Machine

/-! ### The code tables -/

theorem legalize_wf (n : Nat) (h : 1 ≤ n) (e : Config.VlcEntry) : (e.legalize n).wf n := by
  unfold Config.VlcEntry.legalize
  split
  · assumption
  · exact ⟨le_refl 1, h, by norm_num⟩

/-- Tables that meet the constraints already are left as they are: the restriction loses none of them. -/
theorem legalize_of_wf (n : Nat) (e : Config.VlcEntry) (h : e.wf n) : e.legalize n = e := if_pos h

theorem vlc_escape_wf : Config.vlc.escape.wf 32 := legalize_wf 32 (by norm_num) _

theorem vlc_table_wf (last : Bool) (run alevel : Nat) (c : Config.VlcEntry) (h : Config.vlc.table last run alevel = some c) :
    c.wf 31 := by
  simp only [Config.vlc, Config.Vlc.legalize, Option.map_eq_some_iff] at h
  obtain ⟨e, -, rfl⟩ := h
  exact legalize_wf 31 (by norm_num) e

/-! ### Events -/

theorem eventsFrom_length (l : Vector Int 64) (n : Nat) (ks : List ElemId) : (eventsFrom l n ks).length = ks.length := by
  induction ks generalizing n with
  | nil => rfl
  | cons k ks ih => simp [eventsFrom, ih]

/-- The event of each index: its run counts the indexes passed over since the one before it. -/
theorem eventsFrom_getElem (l : Vector Int 64) (n : Nat) (ks : List ElemId) (j : Nat) (h : j < ks.length) :
    (eventsFrom l n ks)[j]'(by rw [eventsFrom_length]; exact h) =
      ⟨ks[j].val - (if j = 0 then n else ks[j - 1].val + 1), l[ks[j]], decide (j + 1 = ks.length), ks[j]⟩ := by
  induction ks generalizing n j with
  | nil => simp at h
  | cons k ks ih =>
    cases j with
    | zero => cases ks <;> simp [eventsFrom]
    | succ j =>
      have hj : j < ks.length := by simpa using h
      simp only [eventsFrom, List.getElem_cons_succ]
      rw [ih (k.val + 1) j hj]
      cases j with
      | zero => simp [eq_comm]
      | succ j => simp

theorem mem_nonZeroIndexes (l : Vector Int 64) (dc : Bool) (k : ElemId) :
    k ∈ nonZeroIndexes l dc ↔ scanStart dc ≤ k.val ∧ l[k] ≠ 0 := by
  simp [nonZeroIndexes]

theorem nonZeroIndexes_sorted (l : Vector Int 64) (dc : Bool) : (nonZeroIndexes l dc).Pairwise (· < ·) :=
  List.Pairwise.filter _ (List.pairwise_lt_finRange 64)

/-- A plane has events exactly when a scanned level is not zero. -/
theorem events_isEmpty (l : Vector Int 64) (dc : Bool) : (events l dc).isEmpty = true ↔ ¬ HasCoded dc l := by
  have : (events l dc).isEmpty = (nonZeroIndexes l dc).isEmpty := by
    unfold events; cases nonZeroIndexes l dc <;> simp [eventsFrom]
  rw [this, nonZeroIndexes, List.isEmpty_iff, List.filter_eq_nil_iff]
  simp [HasCoded]

/-- The first event is at the first scanned level that is not zero. -/
theorem events_head_index (l : Vector Int 64) (dc : Bool) :
    ((events l dc).head?).map RlEvent.index = (nonZeroIndexes l dc).head? := by
  unfold events; cases nonZeroIndexes l dc <;> simp [eventsFrom]

/-- An event's index is one of the scanned indexes, and its level is the level there. -/
theorem mem_eventsFrom (l : Vector Int 64) (n : Nat) (ks : List ElemId) (e : RlEvent) (h : e ∈ eventsFrom l n ks) :
    e.index ∈ ks ∧ e.level = l[e.index] := by
  induction ks generalizing n with
  | nil => simp [eventsFrom] at h
  | cons k ks ih =>
    simp only [eventsFrom, List.mem_cons] at h
    rcases h with rfl | h
    · simp
    · have := ih _ h; exact ⟨by simp [this.1], this.2⟩

/-! ### Checks -/

theorem dcLevelOk_iff (l : Int) : dcLevelOk l = true ↔ 1 ≤ l ∧ l ≤ 255 ∧ l ≠ 128 := by
  simp only [dcLevelOk, Bool.and_eq_true, decide_eq_true_eq, and_assoc]
  simp only [literals_dcRsvOut, literals_dcRsvIn]

theorem escapable_iff (l : Int) : escapable l = true ↔ -127 ≤ l ∧ l ≤ 127 := by
  simp only [escapable, Bool.and_eq_true, decide_eq_true_eq]
  simp only [literals_escLevelMin, literals_escLevelMax]

theorem uncodable_iff (t : Config.Vlc) (e : RlEvent) :
    ((t.table e.last e.run e.level.natAbs).isNone && !escapable e.level) = true ↔ Uncodable t e := by
  rw [Bool.and_eq_true, Option.isNone_iff_eq_none, Bool.not_eq_true', ← Bool.not_eq_true, escapable_iff, Uncodable]
  apply and_congr_right; intro _
  omega

theorem checkEscapes_eq_none (t : Config.Vlc) (b : BankId) (p : PlaneId) (ev : List RlEvent) :
    checkEscapes t b p ev = none ↔ ∀ e ∈ ev, ¬ Uncodable t e := by
  simp only [checkEscapes, Option.map_eq_none_iff, List.find?_eq_none, uncodable_iff]

theorem checkEscapes_eq_some (t : Config.Vlc) (b : BankId) (p : PlaneId) (before after : List RlEvent) (e : RlEvent)
    (hb : ∀ e' ∈ before, ¬ Uncodable t e') (he : Uncodable t e) :
    checkEscapes t b p (before ++ e :: after) = some (trapAt .level b p e.index) := by
  rw [checkEscapes, List.find?_append,
    List.find?_eq_none.2 fun e' he' => by rw [uncodable_iff]; exact hb e' he', Option.none_or, List.find?_cons,
    (uncodable_iff t e).2 he]
  rfl

theorem checkCoded_eq_none (b : BankId) (p : PlaneId) (coded dc : Bool) (l : Vector Int 64) :
    checkCoded b p coded (events l dc) = none ↔ (coded = true ↔ HasCoded dc l) := by
  have := events_isEmpty l dc
  unfold checkCoded
  cases coded
  · cases h : events l dc <;> simp_all
  · simp only [if_true, require_eq_none]
    cases h : events l dc <;> simp_all

/-- When the checks of one plane pass (45_runlevel.md R216). -/
theorem checkPlaneCoding_eq_none (t : Config.Vlc) (b : BankId) (p : PlaneId) (coded dc : Bool) (l : Vector Int 64) :
    checkPlaneCoding t b p coded dc l = none ↔ PlaneCodes t coded dc l := by
  unfold checkPlaneCoding PlaneCodes
  rw [Option.or_eq_none_iff, Option.or_eq_none_iff, checkEscapes_eq_none, checkCoded_eq_none]
  apply and_congr_left; intro _
  unfold DcLegal
  cases dc
  · simp
  · simp only [if_true, require_eq_none, true_imp_iff]
    exact dcLevelOk_iff _

/-- The first plane that fails a scan of the six planes decides. -/
theorem findSome_finRange_eq_some {α : Type} {n : Nat} (f : Fin n → Option α) (i : Fin n) (a : α) (hi : f i = some a)
    (h : ∀ j, j < i → f j = none) : (List.finRange n).findSome? f = some a := by
  rw [List.findSome?_eq_some_iff]
  refine ⟨(List.finRange n).take i.val, i, (List.finRange n).drop (i.val + 1), ?_, hi, ?_⟩
  · conv_lhs => rw [← List.take_append_drop i.val (List.finRange n)]
    rw [List.drop_eq_getElem_cons (by simp)]
    simp
  · intro x hx
    obtain ⟨j, hj, rfl⟩ := List.getElem_of_mem hx
    apply h
    simp at hj ⊢
    simpa [Fin.lt_def] using hj

/-- The levels a bank is said to hold are those the coder reads. -/
theorem planeLevels_of_holds (s : State) (b : BankId) (l : PlaneId → Vector Int 64) (h : s.holdsLevels b l) (p : PlaneId) :
    planeLevels (s.bank b).qb[p] = l p := by
  apply plane_ext
  intro i
  obtain ⟨v, h1, h2⟩ := h p i
  simp only [State.qbAt] at h1
  rw [planeLevels_get, h1, h2]; rfl

/-- The checks of `RLCOST` and `RLEMIT` on a bank whose levels are all written (45_runlevel.md R216). -/
theorem checkRunLevel_of_holds (t : Config.Vlc) (s : State) (b : BankId) (cmask : PlaneMask) (dc : Bool)
    (l : PlaneId → Vector Int 64) (h : s.holdsLevels b l) :
    checkRunLevel t b cmask dc s =
      (List.finRange 6).findSome? fun (p : PlaneId) => checkPlaneCoding t b p (cmask.getLsbD p.val) dc (l p) := by
  have hw : checkWritten b allPlanes (s.bank b).qb = none := by
    rw [checkWritten_eq_none]
    intro p _ i
    obtain ⟨v, h1, -⟩ := h p i
    simp only [State.qbAt] at h1
    rw [h1]; rfl
  unfold checkRunLevel
  rw [hw, Option.none_or]
  simp only [allPlanes, planeLevels_of_holds s b l h]

/-! ### Fields, widths and bits -/

/-- The fields of a macroblock whose levels are all written (45_runlevel.md R215). -/
theorem mbFieldsOf_of_holds (t : Config.Vlc) (s : State) (b : BankId) (cmask : PlaneMask) (dc : Bool)
    (l : PlaneId → Vector Int 64) (h : s.holdsLevels b l) :
    s.mbFieldsOf t b cmask dc =
      (List.finRange 6).flatMap fun (p : PlaneId) => planeFields t (cmask.getLsbD p.val) dc (l p) := by
  simp only [State.mbFieldsOf, mbFields, allPlanes, planeLevels_of_holds s b l h]

theorem totalWidth_flatMap {α : Type} (f : α → List BitField) (l : List α) :
    totalWidth (l.flatMap f) = (l.map fun a => totalWidth (f a)).sum := by
  induction l with
  | nil => rfl
  | cons a l ih => simp [ih]

theorem totalWidth_eventFields (t : Config.Vlc) (e : RlEvent) : totalWidth (eventFields t e) = eventBits t e := by
  unfold eventFields eventBits
  cases t.table e.last e.run e.level.natAbs <;> simp [literals_escLastBits, literals_escRunBits, literals_escLevelBits]

theorem totalWidth_planeFields (t : Config.Vlc) (coded dc : Bool) (l : Vector Int 64) :
    totalWidth (planeFields t coded dc l) = planeBits t coded dc l := by
  unfold planeFields planeBits
  rw [totalWidth_append]
  congr 1
  · cases dc <;> simp [literals_dcBits]
  · cases coded
    · simp
    · simp only [if_true]; rw [totalWidth_flatMap]; congr 1; apply List.map_congr_left; intros; exact totalWidth_eventFields _ _

theorem bits_eventFields (t : Config.Vlc) (e : RlEvent) :
    ((eventFields t e).flatMap fun f => fieldBits f.1 f.2) = eventStream t e := by
  unfold eventFields eventStream
  cases t.table e.last e.run e.level.natAbs with
  | some c =>
    simp only [signBit, literals_signNeg, literals_signPos]
    by_cases h : e.level < 0 <;> simp [h, fieldBits]
  | none =>
    simp only [literals_escLastBits, literals_escRunBits, literals_escLevelBits]
    cases e.last <;> simp [fieldBits]

theorem bits_planeFields (t : Config.Vlc) (coded dc : Bool) (l : Vector Int 64) :
    ((planeFields t coded dc l).flatMap fun f => fieldBits f.1 f.2) = planeStream t coded dc l := by
  unfold planeFields planeStream
  rw [List.flatMap_append]
  congr 1
  · cases dc <;> simp [literals_dcBits]
  · cases coded
    · simp
    · simp only [if_true]; rw [List.flatMap_assoc]; congr 1; funext e; exact bits_eventFields t e

end Sys2Proof.Machine
end

