-- ==== Sys2Proof/Tests/Slice0.lean ====
section
/-! SUPPORT. The model's own tests: expected values are those spec/95_test_vectors.md and the rules print; and, for every
statement with hypotheses, a concrete state and operands that meet them all. -/

namespace Sys2Proof.Tests

set_option Elab.async false

open Sys2Proof.Machine

/-! ### WellFormed: one ill-formed word for each check (30_encoding.md R92, R93, R95; T8) -/

theorem test_wellformed_Z : legalWord 0x00000001 = false ∧ legalWord 0x05000001 = false ∧ legalWord 0x2C800000 = false := by decide
theorem test_wellformed_I16 : legalWord 0x01010000 = false := by decide
theorem test_wellformed_I5 : legalWord 0x03000020 = false := by decide
theorem test_wellformed_E : legalWord 0x20400000 = false := by decide
theorem test_wellformed_E_src3 : legalWord 0x20000003 = false := by decide
theorem test_wellformed_B_dc : legalWord 0x21000001 = false := by decide
theorem test_wellformed_B_bit22 : legalWord 0x21400000 = false := by decide
theorem test_wellformed_BD_bit1 : legalWord 0x23000002 = false := by decide
theorem test_wellformed_BD_bit22 : legalWord 0x24400000 = false := by decide
theorem test_wellformed_R : legalWord 0x2B3F0000 = false ∧ legalWord 0x2B000002 = false := by decide
theorem test_wellformed_opcode : legalWord 0x06000000 = false ∧ legalWord 0x26000000 = false ∧ legalWord 0xFFFFFFFF = false := by
  decide
theorem test_wellformed_bus_size : busAccessWf 0x20000001000#44 4 = false := by decide
theorem test_wellformed_bus_align : busAccessWf 0x20000001004#44 8 = false := by decide
theorem test_wellformed_bus_space : busAccessWf 0x80000000000#44 8 = false := by decide

/-! ### Decoding: the words of R94, R100 and T8, field by field: opcode, then bank, mask, operands -/

theorem test_decode_nop : decode (0x00#8 ++ 0#24) = some .nop := by decide
theorem test_decode_setw : decode (0x01#8 ++ 0#8 ++ 0b0000000000010001#16) = some (.setw 17) := by decide
theorem test_decode_seth : decode (0x02#8 ++ 0#8 ++ 0b0000000000010000#16) = some (.seth 16) := by decide
theorem test_decode_setq : decode (0x03#8 ++ 0#19 ++ 0b11111#5) = some (.setq 31) := by decide
theorem test_decode_setmb : decode (0x04#8 ++ 0b000000000011#12 ++ 0b000000000010#12) = some (.setmb 3 2) := by decide
theorem test_decode_create : decode 0x05000000 = some .create := by decide
theorem test_decode_csc : decode 0x10000000 = some .csc := by decide
theorem test_decode_extract : decode (0x20#8 ++ 1#1 ++ 0#21 ++ 0b01#2) = some (.extractRef 1) ∧
    decode (0x20#8 ++ 0#1 ++ 0#21 ++ 0b00#2) = some (.extractCur 0) ∧
    decode (0x20#8 ++ 1#1 ++ 0#21 ++ 0b10#2) = some (.extractDiff 1) := by decide
theorem test_decode_fdct : decode (0x21#8 ++ 1#1 ++ 0#1 ++ 0b111111#6 ++ 0#16) = some (.fdct 1 0x3F) := by decide
theorem test_decode_zz : decode (0x22#8 ++ 1#1 ++ 0#1 ++ 0b100001#6 ++ 0#16) = some (.zz 1 0x21) := by decide
theorem test_decode_qnt : decode (0x23#8 ++ 1#1 ++ 0#1 ++ 0b100101#6 ++ 0#15 ++ 1#1) = some (.qnt 1 0x25 true) := by decide
theorem test_decode_rlcost : decode (0x24#8 ++ 0#1 ++ 0#1 ++ 0#6 ++ 0#15 ++ 1#1) = some (.rlcost 0 0 true) := by decide
theorem test_decode_rlemit : decode (0x25#8 ++ 1#1 ++ 0#1 ++ 0b100101#6 ++ 0#15 ++ 0#1) = some (.rlemit 1 0x25 false) := by
  decide
theorem test_decode_dqnt : decode (0x28#8 ++ 0#1 ++ 0#1 ++ 0b111111#6 ++ 0#15 ++ 1#1) = some (.dqnt 0 0x3F true) := by decide
theorem test_decode_izz : decode (0x29#8 ++ 0#1 ++ 0#1 ++ 0b111111#6 ++ 0#16) = some (.izz 0 0x3F) := by decide
theorem test_decode_idct : decode (0x2A#8 ++ 0#1 ++ 0#1 ++ 0b111111#6 ++ 0#16) = some (.idct 0 0x3F) := by decide
theorem test_decode_recon : decode (0x2B#8 ++ 1#1 ++ 0#22 ++ 1#1) = some (.recon 1 .inter) := by decide
theorem test_decode_copymb : decode 0x2C000000 = some .copymb := by decide
theorem test_decode_frameend : decode 0x30000000 = some .frameend := by decide
theorem test_decode_srst : decode 0x3F000000 = some .srst := by decide
theorem test_decode_illegal : ([0x00000001, 0x01010000, 0x03000020, 0x05000001, 0x20000003, 0x20400000, 0x21000001,
    0x21400000, 0x23000002, 0x26000000, 0x27000000, 0x2B3F0000, 0x2B000002, 0x2C800000, 0x3F000001, 0xFFFFFFFF] :
      List Word).all (fun w => (decode w).isNone) = true := by decide +kernel
theorem test_decodeTableWord : decodeTableWord 32 0x04003002 = some (.setmb 3 2) := by decide +kernel

/-! ### Small states -/

/-- What a command leaves. -/
def after (i : Instr) (s : State) : State :=
  match exec i s with
  | .next t => t
  | .fault _ => s
  | .refused _ => s

/-- What a step leaves when the host presents one thing. -/
def present (a : HostStep) (s : State) : State :=
  match step { s with pending := [a] } with
  | .next t => t
  | .fault _ => s
  | .refused _ => s

/-- A 16 by 16 stream, as after `SETW 16`, `SETH 16`, `CREATE` (T3), with the three counted. -/
def streamed : State := { State.reset with stream := true, wreq := 16, hreq := 16, w := 16, h := 16, cmdcnt := 3 }

/-- A bank with every element of its buffers written with one value, and every plane tagged alike. -/
def evenBank (x : F64) (f : F64) (q : Level) (tag : Order) : Bank where
  sb := Vector.replicate 6 (Vector.replicate 64 (some x))
  fb := Vector.replicate 6 (Vector.replicate 64 (some f))
  qb := Vector.replicate 6 (Vector.replicate 64 (some q))
  fbord := Vector.replicate 6 tag
  cbp := 0

/-- A stream at `QUANT = 2` whose bank 0 is an even bank. -/
def evenState (x : F64) (f : F64) (q : Level) (tag : Order) : State :=
  { streamed.setBank 0 (evenBank x f q tag) with quant := 2 }

/-! ### Steps (T1, T2, T3, T7, T9) -/

theorem test_nop : (after .nop .reset).regRead 11 = 1 := by decide +kernel
theorem test_setw : (after (.setw 17) .reset).regRead 4 = 17 := by decide +kernel
theorem test_seth : (after (.seth 16) .reset).regRead 5 = 16 := by decide +kernel
theorem test_setw_keeps_w : (after (.setw 64) streamed).regRead 6 = 16 := by decide +kernel
theorem test_setq : (after (.setq 31) .reset).regRead 9 = 31 := by decide +kernel
theorem test_setq_zero : (after (.setq 0) { State.reset with quant := 31 }).regRead 1 = 0x00000402 ∧
    (after (.setq 0) { State.reset with quant := 31 }).regRead 9 = 31 := by decide +kernel
theorem test_setmb : (after (.setmb 3 2) .reset).regRead 8 = 0x00003002 := by decide +kernel
theorem test_create : (after .create { State.reset with wreq := 31, hreq := 47 }).regRead 6 = 16 ∧
    (after .create { State.reset with wreq := 31, hreq := 47 }).regRead 7 = 32 := by decide +kernel
theorem test_create_small : (after .create { State.reset with wreq := 15, hreq := 16 }).regRead 1 = 0x00000202 ∧
    (after .create { State.reset with wreq := 15, hreq := 16 }).regRead 2 = 0x05000000 := by decide +kernel
theorem test_frameend : (after .frameend streamed).regRead 10 = 1 ∧ (after .frameend streamed).regRead 11 = 4 := by decide +kernel
theorem test_frameend_no_stream : (after .frameend .reset).regRead 1 = 0x00000302 ∧
    (after .frameend .reset).regRead 2 = 0x30000000 := by decide +kernel
theorem test_srst : (after .srst (evenState 0 0 5 .zz)).regRead 17 = 0 ∧ (after .srst (evenState 0 0 5 .zz)).regRead 9 = 0 := by
  decide +kernel

/-- T2, the worked lines: `(255, 0, 0)`, `(0, 0, 1)` and `(1, 2, 3)`. -/
theorem test_csc_formula : convertPixel 0x000000FF = 0xFF554C ∧ convertPixel 0x00010000 = 0x7F8000 ∧
    convertPixel 0x00030201 = 0x7F8001 ∧ convertPixel 0xFF808080 = 0x808080 := by decide +kernel
/-- The pixel at column 3, row 2 is element 35 of both memories when the pitch is 16 (T9.8). -/
theorem test_csc : (after .csc { streamed with src := ⟨0, [(35, 0x003264C8)]⟩ }).cur.read 35 = 0xB6567C := by decide +kernel

/-- The truncating average of T3.2, and T3.6. -/
theorem test_extract_average : boxAverage pixU (fun x y => if x = 0 ∧ y = 0 then 0x000100 else 0x000200) 0 0 = 1 ∧
    boxAverage pixU (fun x y => if x = 1 ∧ y = 1 then 0 else 0x000100) 0 0 = 0 := by decide +kernel
/-- T3.1: pixel (2, 9) of the macroblock is element 10 of plane 2 (Y3), and 66.0 is `0x4050800000000000`. -/
theorem test_extract_cur : (after (.extractCur 0) { streamed with cur := ⟨0, [(146, 0xF60242)]⟩ }).sbAt 0 2 10 =
    some 0x4050800000000000 := by decide +kernel
/-- T3.5: `EXTRACT REF`, luma element 0 of plane 0. -/
theorem test_extract_ref : (after (.extractRef 1) { streamed with ref := ⟨0, [(0, 0x09FF07)]⟩ }).sbAt 1 0 0 =
    some 0x401C000000000000 := by decide +kernel
/-- T3.5: the difference 255 - 0 of one luma sample. -/
theorem test_extract_diff : (after (.extractDiff 0)
    { streamed with cur := ⟨0, [(0, 0x0700FF)]⟩, ref := ⟨1, [(0, 0x09FF00)]⟩ }).sbAt 0 0 0 = some 0x406FE00000000000 := by
  decide +kernel
/-- T3.8: a position off the grid. -/
theorem test_extract_off_grid : (after (.extractCur 0) { streamed with mbx := 1 }).regRead 1 = 0x00000503 := by decide +kernel

/-- T3.7: the rounding and the clip of `RECON`, both modes. -/
theorem test_recon_round : f64Round 0x405FDFFFFFFFFFFF = 127 ∧ f64Round 0x3FDFFFFFFFFFFFFF = 0 ∧
    f64Round 0xBFE0000000000000 = 0 ∧ f64Round 0xC004000000000000 = -2 ∧
    reconSample .intra 0 0x406FD00000000000 = 255 ∧ reconSample .inter 100 0xC062D00000000000 = 0 ∧
    reconSample .inter 100 0xC004000000000000 = 98 := by decide +kernel
/-- A block of 128.0 becomes grey pixels (E6). -/
theorem test_recon : (after (.recon 0 .intra) (evenState 0x4060000000000000 0 0 .nat)).cur.read 255 = 0x808080 := by
  decide +kernel
/-- T3.8: an infinity at plane 5, index 63. -/
theorem test_recon_nonfinite : (after (.recon 0 .intra) (writeSb 383 0x7FF0000000000000 (evenState 0 0 0 .nat))).regRead 3 =
    0x00003F05 := by decide +kernel
/-- T3.9. -/
theorem test_copymb : (after .copymb { streamed with ref := ⟨2, [(17, 0x1E140A)]⟩ }).cur.read 17 = 0x1E140A := by decide +kernel

/-- T4.1 and T4.2: coefficients of the flat block and of the impulse. -/
theorem test_fdct : (fdctPlane (Vector.replicate 64 0x4060000000000000))[0] = 0x4080000000000000 ∧
    (fdctPlane (Vector.replicate 64 0x4060000000000000))[1] = 0x3D10000000000000 ∧
    (fdctPlane ((Vector.replicate 64 0).set 0 0x3FF0000000000000))[9] = 0x3FBEC835E79946A4 := by decide +kernel
/-- T4.6: an unwritten element. -/
theorem test_fdct_unwritten : (after (.fdct 0 1) .reset).regRead 1 = 0x00000602 := by decide +kernel
/-- T4.4: index 1 is horizontal. -/
theorem test_idct : (idctPlane ((Vector.replicate 64 0).set 1 0x4059000000000000))[9] = 0x403D659A9645E2D7 := by decide +kernel
/-- A bank tagged `ZZ` whose plane 1 of `FB` is unwritten. -/
def holedBank : Bank := { evenBank 0 0 0 .zz with fb := (evenBank 0 0 0 .zz).fb.set 1 (Vector.replicate 64 none) }
/-- T7.8: an unwritten plane 1 wins over a wrong tag on plane 0. -/
theorem test_idct_check_order : (after (.idct 0 3) (State.reset.setBank 0 holedBank)).regRead 1 = 0x00000602 ∧
    (after (.idct 0 3) (State.reset.setBank 0 holedBank)).regRead 3 = 0x00000001 := by decide +kernel
/-- T4.5: position 3 of the zigzag sequence is natural index 16. -/
theorem test_zz : (after (.zz 0 1) (writeFb 16 0x4030000000000000 (evenState 0 0 0 .nat))).fbAt 0 0 3 = some 0x4030000000000000 ∧
    (after (.zz 0 1) (evenState 0 0 0 .nat)).regRead 16 = 1 := by decide +kernel
/-- R180: the inverse sends position 3 to natural index 16. -/
theorem test_izz : (after (.izz 0 1) ((evenState 0 0 0 .zz).setBank 0 { evenBank 0 0 0 .zz with
    fb := (evenBank 0 0 0 .zz).fb.set 0 ((Vector.replicate 64 (some 0)).set 3 (some 0x4030000000000000)) })).fbAt 0 0 16 =
      some 0x4030000000000000 := by decide +kernel

/-- E1 and T5: the quantizers. -/
theorem test_qdc : qdc (f64OfInt 0) = (1, false) ∧ qdc (f64OfInt 1024) = (255, false) ∧ qdc (f64OfInt 1032) = (129, false) ∧
    qdc (f64OfInt 2040) = (254, true) := by decide +kernel
theorem test_qac : qac (f64OfInt 7) 1 = (3, false) ∧ qac (f64OfInt (-7)) 1 = (-3, false) ∧ qac (f64OfInt 6) 1 = (3, false) := by
  decide +kernel
theorem test_qnt : (after (.qnt 0 1 true) (evenState 0 0x4060000000000000 0 .zz)).qbAt 0 0 0 = some 16 ∧
    (after (.qnt 0 1 true) (evenState 0 0x4060000000000000 0 .zz)).qbAt 0 0 63 = some 32 ∧
    (after (.qnt 0 1 true) (evenState 0 0x4060000000000000 0 .zz)).regRead 12 = 1 := by decide +kernel
/-- T7.7: the step is checked before the planes. -/
theorem test_qnt_check_order : (after (.qnt 0 1 true) .reset).regRead 1 = 0x00000402 := by decide +kernel
theorem test_ddc_dac : ddc 255 = 1024 ∧ ddc 64 = 512 ∧ dac 3 1 = 7 ∧ dac (-3) 1 = -7 ∧ dac 0 31 = 0 ∧ dac 127 31 = 2047 := by
  decide
theorem test_dqnt : (after (.dqnt 0 1 true) (evenState 0 0 3 .nat)).fbAt 0 0 0 = some (f64OfInt 24) ∧
    (after (.dqnt 0 1 true) (evenState 0 0 3 .nat)).fbAt 0 0 1 = some (f64OfInt 13) ∧
    (after (.dqnt 0 1 true) (evenState 0 0 3 .nat)).regRead 16 = 1 := by decide +kernel

/-- The toy configuration of 45_runlevel.md R222. -/
def toy : Config.Vlc where
  table := fun last run alevel =>
    if last = false ∧ run = 0 ∧ alevel = 1 then some ⟨2, 2⟩
    else if last = false ∧ run = 0 ∧ alevel = 3 then some ⟨6, 3⟩
    else if last = true ∧ run = 0 ∧ alevel = 1 then some ⟨7, 4⟩
    else none
  escape := ⟨3, 7⟩

/-- The plane of R222. -/
def toyPlane : Vector Int 64 := ((((Vector.replicate 64 0).set 0 255).set 1 127).set 2 (-3)).set 63 127

theorem test_toy_fields : planeFields toy true true toyPlane =
    [(255, 8), (3, 7), (0, 1), (0, 6), (127, 8), (6, 3), (1, 1), (3, 7), (1, 1), (60, 6), (127, 8)] := by decide +kernel
/-- T6.3: the cost function of `RLCOST`. -/
theorem test_rlcost : totalWidth (planeFields toy true true toyPlane) = 56 := by decide +kernel
/-- T6.6: the bit order of `RLEMIT`. -/
theorem test_rlemit : putFields [] [(0x40, 8), (3, 7), (60, 6)] = [false, true, false, false, false, false, false, false,
    false, false, false, false, false, true, true, true, true, true, true, false, false] := by decide +kernel
/-- A bank of levels 64, 0, ... with `dc = 1` costs six 8-bit fields under any tables (program P1). -/
theorem test_rlcost_grey : (after (.rlcost 0 0 true) ((evenState 0 0 0 .nat).setBank 0 { evenBank 0 0 0 .nat with
    qb := Vector.replicate 6 ((Vector.replicate 64 (some 0)).set 0 (some 64)) })).regRead 14 = 48 := by decide +kernel
theorem test_rlemit_grey : (after (.rlemit 0 0 true) ((evenState 0 0 0 .nat).setBank 0 { evenBank 0 0 0 .nat with
    qb := Vector.replicate 6 ((Vector.replicate 64 (some 0)).set 0 (some 64)) })).bs.take 9 =
      [false, true, false, false, false, false, false, false, false] := by decide +kernel

/-- T7.1 to T7.6, T7.11: an illegal word faults, the block halts, `SRST` restarts it. -/
theorem test_illegal : (present (.command 0x06000000) .reset).regRead 1 = 0x00000102 ∧
    (present (.command 0x06000000) .reset).regRead 2 = 0x06000000 ∧
    (present (.command 0x06000000) .reset).errIrq = true := by decide +kernel
theorem test_halted : (present (.command 0x03000005) (present (.command 0x06000000) .reset)).regRead 9 = 0 ∧
    (present (.command 0x07000000) (present (.command 0x06000000) .reset)).regRead 2 = 0x06000000 ∧
    (present (.command 0x3F000000) (present (.command 0x06000000) .reset)).regRead 1 = 0 := by decide +kernel
/-- T9.6, T9.9, T9.10: host accesses. -/
theorem test_host_qb : (present (.memWrite .qb 3 0xFFFF) .reset).qbAt 0 0 3 = some (-1) ∧
    (present (.memRead .qb 3) (present (.memWrite .qb 3 0xFFFF) .reset)).hostData = 0xFFFF := by decide +kernel
theorem test_host_cur : (present (.memRead .cur 0) (present (.memWrite .cur 0 0xFF123456) streamed)).hostData = 0x123456 := by
  decide +kernel
theorem test_host_id : (present (.memRead .reg 0) .reset).hostData = 0x47324701 := by decide +kernel
/-- T9.7: a write to a register is ignored. -/
theorem test_host_reg : (present (.memWrite .reg 9 7) .reset).regRead 9 = 0 := by decide +kernel
/-- T9.4, T9.5, T9.12: the indexes of `FB` 512 and `QB` 767, and the byte address of the first. -/
theorem test_host_index : (blockBank 512, blockPlane 512, blockElem 512) = (1, 2, 0) ∧
    (blockBank 767, blockPlane 767, blockElem 767) = (1, 5, 63) ∧ defaultBusMap.select 0x20000001000 8 = some (.fb, 512) := by
  decide +kernel
/-- T9.3: a host write to `FB` clears the tag. -/
theorem test_host_fb_tag : (present (.memWrite .fb 5 0) (evenState 0 0 0 .zz)).regRead 16 = 0x3E := by decide +kernel
/-- Through the bus, least significant byte first (R71). -/
theorem test_bus_read : (present (.busRead 0 8) .reset).busData = [0x01, 0x47, 0x32, 0x47, 0, 0, 0, 0] := by decide +kernel
theorem test_rst : (present .rst (evenState 0 0 0 .zz)).regRead 16 = 0 ∧ (present .rst (evenState 0 0 0 .zz)).regRead 1 = 0 := by
  decide +kernel
/-- A word given to `withFetchWord` is the one the next step runs. -/
theorem test_fetch : step (State.reset.withFetchWord 32 0x04003002) = exec (.setmb 3 2) { State.reset with pc := 1 } := by rfl

/-! ### For every statement with hypotheses, states and operands that meet them all -/

/-- The halted state after an illegal word. -/
def halted : State := present (.command 0x06000000) .reset

theorem witness_EncodeOfDecode : decode 0x23A50001 = some (.qnt 1 0x25 true) := by decide
theorem witness_StepRunsDecodedCommand :
    ({ State.reset with pending := [.command 0x04003002] } : State).pending = .command 0x04003002 :: [] ∧
      decode 0x04003002 = some (.setmb 3 2) := by decide
theorem witness_IllegalWordFaults : ({ State.reset with pending := [.command 0x06000000] } : State).pending =
    .command 0x06000000 :: [] ∧ State.reset.err = false ∧ legalWord 0x06000000 = false := by decide
theorem witness_HaltedBlockDiscards : halted.err = true ∧ Instr.nop ≠ .srst ∧
    ({ halted with pending := [.command 0x07000000] } : State).pending = .command 0x07000000 :: [] ∧
      (0x07000000 : Word) ≠ 0x3F000000 := by decide +kernel
theorem witness_FaultEntryIsPrecise : State.reset.err = false ∧ exec .create .reset = .next (after .create .reset) ∧
    (after .create .reset).err = true := ⟨rfl, rfl, by decide +kernel⟩
theorem witness_CompletedCommandsAreCounted : Instr.nop ≠ .srst ∧ State.reset.err = false ∧
    exec .nop .reset = .next (after .nop .reset) ∧ exec .create .reset = .next (after .create .reset) :=
  ⟨by decide, rfl, rfl, rfl⟩
theorem witness_BanksAreIndependent : Instr.zz 1 0 ≠ .srst ∧ instrBank (.zz 1 0) ≠ some 0 ∧
    exec (.zz 1 0) .reset = .next (countCommand (reorder 1 0 zigzag .zz .reset)) := ⟨by decide, by decide, rfl⟩
theorem witness_WrittenElementsStayWritten : Instr.nop ≠ .srst ∧
    exec .nop (evenState 0 0 0 .nat) = .next (after .nop (evenState 0 0 0 .nat)) ∧
    ((evenState 0 0 0 .nat).sbAt 0 5 63).isSome ∧ ((evenState 0 0 0 .nat).fbAt 0 5 63).isSome ∧
    ((evenState 0 0 0 .nat).qbAt 0 5 63).isSome := ⟨by decide, rfl, by decide +kernel⟩
theorem witness_MemoriesChangeOnlyByTheirCommands : exec .nop .reset = .next (after .nop .reset) ∧ Instr.nop ≠ .create ∧
    Instr.nop ≠ .frameend ∧ Instr.nop ≠ .csc ∧ Instr.nop ≠ .copymb ∧ (∀ b mode, Instr.nop ≠ .recon b mode) ∧
    (∀ v, Instr.nop ≠ .setw v) ∧ (∀ v, Instr.nop ≠ .seth v) ∧ (∀ b m dc, Instr.nop ≠ .rlemit b m dc) ∧ Instr.nop ≠ .srst := by
  refine ⟨rfl, ?_⟩; simp
theorem witness_InvariantKeptByEveryStep : State.Inv { State.reset with pending := [.command 0] } ∧
    step { State.reset with pending := [.command 0] } = .next (countCommand { State.reset with pc := 1 }) :=
  ⟨⟨by decide, by decide, by decide, by decide, by decide, by decide⟩, rfl⟩

theorem witness_ConfigFault : State.reset.err = false ∧ (State.reset.wreq.toNat < 16 ∨ State.reset.hreq.toNat < 16) := by decide
theorem witness_ConfigFault_height : let s : State := { State.reset with wreq := 16, hreq := 15 }
    s.err = false ∧ s.hreq.toNat < 16 := by decide
theorem witness_NoStreamFault : State.reset.err = false ∧ State.reset.stream = false := by decide
theorem witness_QuantFault : State.reset.err = false ∧ State.reset.quant = 0 := by decide
theorem witness_PositionFault : let s : State := { streamed with mbx := 1 }
    s.err = false ∧ s.stream = true ∧ s.w.toNat / 16 ≤ s.mbx.toNat := by decide
theorem witness_PositionFault_row : let s : State := { streamed with mby := 1 }
    s.err = false ∧ s.stream = true ∧ s.h.toNat / 16 ≤ s.mby.toNat := by decide

/-- A streaming state at `QUANT = 2` whose bank 0 lacks element 63 of plane 5 in each buffer. -/
def lacking : State :=
  let k := evenBank 0 0 0 .nat
  { streamed.setBank 0 { k with
      sb := k.sb.set 5 ((Vector.replicate 64 (some 0)).set 63 none)
      fb := k.fb.set 5 ((Vector.replicate 64 (some 0)).set 63 none)
      qb := k.qb.set 5 ((Vector.replicate 64 (some 0)).set 63 none) } with quant := 2 }

theorem witness_UnwrittenFault_sb : lacking.err = false ∧ lacking.onGrid ∧
    LowestBad (fun p => (0x3F#6).getLsbD p = true) (fun p k => lacking.sbAt 0 p k = none) 5 63 ∧
    LowestBad (fun _ => True) (fun p k => lacking.sbAt 0 p k = none) 5 63 := by
  unfold LowestBad State.onGrid; decide +kernel
theorem witness_UnwrittenFault_fb : lacking.quant ≠ 0 ∧
    LowestBad (fun p => (0x3F#6).getLsbD p = true) (fun p k => lacking.fbAt 0 p k = none) 5 63 := by
  unfold LowestBad; decide +kernel
theorem witness_UnwrittenFault_qb : lacking.quant ≠ 0 ∧
    LowestBad (fun p => (0x3F#6).getLsbD p = true) (fun p k => lacking.qbAt 0 p k = none) 5 63 ∧
    LowestBad (fun _ => True) (fun p k => lacking.qbAt 0 p k = none) 5 63 := by
  unfold LowestBad; decide +kernel
theorem witness_OrderFault_zz : let s := evenState 0 0 0 .zz
    s.err = false ∧ (0x30#6).getLsbD (4 : PlaneId) = true ∧
    (∀ p k, (0x30#6).getLsbD (p : PlaneId).val = true → (s.fbAt 0 p k).isSome) ∧ s.tagAt 0 4 = .zz ∧
    (∀ p', p' < (4 : PlaneId) → (0x30#6).getLsbD p'.val = true → s.tagAt 0 p' = .nat) := by decide +kernel
theorem witness_OrderFault_nat : let s := evenState 0 0 0 .nat
    s.err = false ∧ s.quant ≠ 0 ∧ (0x30#6).getLsbD (4 : PlaneId) = true ∧
    (∀ p k, (0x30#6).getLsbD (p : PlaneId).val = true → (s.fbAt 0 p k).isSome) ∧ s.tagAt 0 4 = .nat ∧
    (∀ p', p' < (4 : PlaneId) → (0x30#6).getLsbD p'.val = true → s.tagAt 0 p' = .zz) := by decide +kernel

/-- Infinity everywhere. -/
def infinities (tag : Order) : State := evenState 0x7FF0000000000000 0x7FF0000000000000 0 tag
/-- The largest finite number everywhere: its sums overflow. -/
def giants (tag : Order) : State := evenState 0x7FEFFFFFFFFFFFFF 0x7FEFFFFFFFFFFFFF 0 tag

theorem witness_NonFiniteFault_inputs : (infinities .nat).err = false ∧ (infinities .nat).onGrid ∧
    (∀ p k, (infinities .nat).sbAt 0 p k = some 0x7FF0000000000000) ∧
    (∀ p k, (infinities .nat).fbAt 0 p k = some 0x7FF0000000000000) ∧
    (∀ p, (infinities .nat).tagAt 0 p = .nat) ∧
    LowestBad (fun p => (1#6).getLsbD p = true) (fun _ _ => f64Finite 0x7FF0000000000000 = false) 0 0 ∧
    LowestBad (fun _ => True) (fun _ _ => f64Finite 0x7FF0000000000000 = false) 0 0 := by
  unfold LowestBad State.onGrid; decide +kernel
theorem witness_NonFiniteFault_qnt : (∀ p k, (infinities .zz).fbAt 0 p k = some 0x7FF0000000000000) ∧
    (∀ p, (infinities .zz).tagAt 0 p = .zz) ∧ (infinities .zz).quant ≠ 0 := by decide +kernel
theorem witness_NonFiniteFault_results : (giants .nat).err = false ∧
    (∀ p k, (giants .nat).sbAt 0 p k = some 0x7FEFFFFFFFFFFFFF) ∧ (∀ p k, (giants .nat).fbAt 0 p k = some 0x7FEFFFFFFFFFFFFF) ∧
    (∀ p, (giants .nat).tagAt 0 p = .nat) ∧ f64Finite 0x7FEFFFFFFFFFFFFF = true ∧
    f64Finite (fdctValue (fun _ => 0x7FEFFFFFFFFFFFFF) (rowOf 0) (colOf 0)) = false ∧
    f64Finite (idctValue (fun _ => 0x7FEFFFFFFFFFFFFF) (rowOf 0) (colOf 0)) = false ∧
    (∀ i' : ElemId, ¬ i' < 0) ∧ ∀ p' : PlaneId, ¬ p' < 0 := by decide +kernel
theorem witness_DequantizeDcLevelFault : let s := evenState 0 0 128 .nat
    s.err = false ∧ s.quant ≠ 0 ∧ (∀ p k, s.qbAt 0 p k = some 128) ∧ (1#6).getLsbD (0 : PlaneId) = true ∧
    ¬ (1 ≤ (128 : Level).toInt ∧ (128 : Level).toInt ≤ 255 ∧ (128 : Level).toInt ≠ 128) ∧
    ∀ p' : PlaneId, ¬ p' < 0 := by decide +kernel

/-- A plane of one level. -/
def flat (v : Int) : Vector Int 64 := Vector.replicate 64 v

theorem evenState_qbAt (x f : F64) (v : Level) (tag : Order) (p : PlaneId) (i : ElemId) :
    (evenState x f v tag).qbAt 0 p i = some v := by
  show ((streamed.setBank 0 (evenBank x f v tag)).bank 0).qb[p][i] = some v
  rw [bank_setBank_same]; simp [evenBank]

theorem evenState_holdsLevels (v : Level) : (evenState 0 0 v .nat).holdsLevels 0 fun _ => flat v.toInt :=
  fun p i => ⟨v, evenState_qbAt _ _ _ _ p i, by simp [flat]⟩

theorem witness_RunLevelFaults_dc : (evenState 0 0 0 .nat).err = false ∧ ((evenState 0 0 0 .nat).holdsLevels 0 fun _ => flat 0) ∧
    (∀ p' : PlaneId, ¬ p' < 0) ∧ ¬ DcLegal true (flat 0) :=
  ⟨rfl, evenState_holdsLevels 0, by decide, by unfold DcLegal; decide +kernel⟩
theorem witness_RunLevelFaults_empty : DcLegal false (flat 0) ∧ (1#6).getLsbD (0 : PlaneId).val = true ∧ ¬ HasCoded false (flat 0) := by
  unfold DcLegal HasCoded; decide +kernel
theorem witness_RunLevelFaults_cbp : ((evenState 0 0 1 .nat).holdsLevels 0 fun _ => flat 1) ∧ DcLegal false (flat 1) ∧
    (0#6).getLsbD (0 : PlaneId).val = false ∧ scanStart false ≤ (0 : ElemId).val ∧ (flat 1)[(0 : ElemId)] ≠ 0 ∧
    ∀ k' : ElemId, ¬ k' < 0 := ⟨evenState_holdsLevels 1, by unfold DcLegal; decide +kernel⟩
/-- Tables without any entry. -/
def noTable : Config.Vlc := { table := fun _ _ _ => none, escape := ⟨3, 7⟩ }
theorem witness_RunLevelFaults_level : ((evenState 0 0 200 .nat).holdsLevels 0 fun _ => flat 200) ∧ DcLegal false (flat 200) ∧
    (1#6).getLsbD (0 : PlaneId).val = true ∧
    events (flat 200) false = [] ++ ⟨0, 200, false, 0⟩ :: (events (flat 200) false).tail ∧
    Uncodable noTable ⟨0, 200, false, 0⟩ :=
  ⟨evenState_holdsLevels 200, by unfold DcLegal; decide +kernel, by decide, by decide +kernel, rfl, by decide⟩

theorem witness_RequestedSizeIsSet : State.reset.err = false ∧ (17 : BitVec 16) ≠ State.reset.wreq := by decide
theorem witness_StepAndPositionAreSet : State.reset.err = false ∧ (1 : BitVec 5) ≠ 0 := by decide
theorem witness_CreateStartsAStream : let s : State := { State.reset with wreq := 17, hreq := 16 }
    s.err = false ∧ 16 ≤ s.wreq.toNat ∧ 16 ≤ s.hreq.toNat := by decide
theorem witness_FrameEndCopiesCurrent : streamed.err = false ∧ streamed.stream = true := by decide
theorem witness_HardwareResetRestores : ({ halted with pending := [.rst] } : State).pending = .rst :: [] := rfl
theorem witness_FrameIsConverted : streamed.err = false ∧ streamed.stream = true ∧ 15 < streamed.w.toNat ∧ 15 < streamed.h.toNat := by
  decide
theorem witness_MacroblockIsExtracted : streamed.err = false ∧ streamed.onGrid := by unfold State.onGrid; decide
theorem witness_MacroblockIsReconstructed : let s := evenState 0x4060000000000000 0 0 .nat
    s.err = false ∧ s.onGrid ∧ (∀ p k, s.sbAt 0 p k = some 0x4060000000000000) ∧ f64Finite 0x4060000000000000 = true := by
  unfold State.onGrid; decide +kernel
theorem witness_MacroblockIsCopied : streamed.err = false ∧ streamed.onGrid := by unfold State.onGrid; decide
theorem witness_ExtractThenReconstruct : streamed.err = false ∧ streamed.onGrid := by unfold State.onGrid; decide
theorem witness_RoundingIsNearestHalvesUp : f64Finite 0xC004000000000000 = true := by decide
/-- Two finite operands whose sum is finite, two whose sum overflows, and a sum of zero. -/
theorem witness_ArithmeticRoundsToNearestEven : f64Finite 0x3FF0000000000000 = true ∧
    f64Finite (f64Add 0x3FF0000000000000 0x3CA0000000000000) = true ∧ f64Val 0 + f64Val 0x8000000000000000 = 0 ∧
    f64Finite 0x7FEFFFFFFFFFFFFF = true ∧ f64Finite (f64Add 0x7FEFFFFFFFFFFFFF 0x7FEFFFFFFFFFFFFF) = false ∧
    f64Finite (f64Mul 0x3FF0000000000000 0x0000000000000001) = true ∧ f64Finite 0x7FF0000000000000 = false ∧
    f64Finite 0xFFF0000000000000 = false ∧ f64Finite 0x7FF8000000000000 = false := by decide +kernel

theorem dot8_row_zero : ∀ u : Fin 8, dot8 (basis u) (fun _ => 0) = 0 := by decide +kernel
theorem dot8_column_zero : ∀ x : Fin 8, dot8 (fun u => basis u x) (fun _ => 0) = 0 := by decide +kernel
theorem fdctValue_zero (v u : Fin 8) : fdctValue (fun _ => 0) v u = 0 := by
  unfold fdctValue; simp only [dot8_row_zero]; decide +kernel
theorem idctValue_zero (y x : Fin 8) : idctValue (fun _ => 0) y x = 0 := by
  unfold idctValue; simp only [dot8_column_zero]

theorem evenState_finite : (∀ p k, (evenState 0 0 0 .nat).sbAt 0 p k = some 0) ∧
    (∀ p k, (evenState 0 0 0 .nat).fbAt 0 p k = some 0) ∧ (∀ p, (evenState 0 0 0 .nat).tagAt 0 p = .nat) ∧
    f64Finite 0 = true := by decide +kernel

theorem witness_ForwardTransform : (evenState 0 0 0 .nat).err = false ∧
    (∀ p k, (maskAll).getLsbD (p : PlaneId).val = true →
      (evenState 0 0 0 .nat).sbAt 0 p k = some 0 ∧ f64Finite 0 = true) ∧
    (∀ (p : PlaneId) (v u : Fin 8), maskAll.getLsbD p.val = true → f64Finite (fdctValue (fun _ => 0) v u) = true) :=
  ⟨rfl, fun p k _ => ⟨evenState_finite.1 p k, by decide⟩, fun p v u _ => by rw [fdctValue_zero]; decide⟩
theorem witness_InverseTransform : (evenState 0 0 0 .nat).err = false ∧
    (∀ p k, (maskAll).getLsbD (p : PlaneId).val = true → (evenState 0 0 0 .nat).fbAt 0 p k = some 0 ∧ f64Finite 0 = true ∧
      (evenState 0 0 0 .nat).tagAt 0 p = .nat) ∧
    (∀ (p : PlaneId) (y c : Fin 8), maskAll.getLsbD p.val = true → f64Finite (idctValue (fun _ => 0) y c) = true) :=
  ⟨rfl, fun p k _ => ⟨evenState_finite.2.1 p k, by decide, evenState_finite.2.2.1 p⟩, fun p y c _ => by rw [idctValue_zero]; decide⟩

theorem witness_CommandsStoreFiniteValues_extract : streamed.err = false ∧ (after (.extractCur 0) streamed).err = false ∧
    exec (.extractCur 0) streamed = .next (after (.extractCur 0) streamed) ∧
    ((after (.extractCur 0) { streamed with cur := ⟨0, [(0, 0x000007)]⟩ }).sbAt 0 0 0).isSome = true :=
  ⟨rfl, rfl, rfl, by decide +kernel⟩
theorem even_vals_sb (p : PlaneId) (i : ElemId) : (planeVals ((evenState 0 0 0 .nat).bank 0).sb[p])[i] = 0 := by
  have := evenState_finite.1 p i
  simp only [State.sbAt] at this
  rw [planeVals_get, this]; rfl
theorem even_vals_fb (p : PlaneId) (i : ElemId) : (planeVals ((evenState 0 0 0 .nat).bank 0).fb[p])[i] = 0 := by
  have := evenState_finite.2.1 p i
  simp only [State.fbAt] at this
  rw [planeVals_get, this]; rfl
/-- A command whose check passes completes without a fault. -/
theorem completes (i : Instr) (hi : i ≠ .srst) (s : State) (h : s.err = false) (hc : checkOf i s = none) :
    exec i s = .next (countCommand (effectOf i s)) ∧ (countCommand (effectOf i s)).err = false :=
  ⟨exec_done i hi s h hc, by
    have := (effectOf_frame i hi s).1
    rw [h] at this
    rw [countCommand_err]
    exact this⟩
/-- What a completed `IDCT` and `FDCT` write, in any state. -/
theorem idct_writes (b : BankId) (m : PlaneMask) (s : State) (p : PlaneId) (k : ElemId) (h : m.getLsbD p.val = true) :
    ((countCommand (effectOf (.idct b m) s)).sbAt b p k).isSome = true := by
  rw [State.sbAt, bank_countCommand, effectOf, bank_setBank_same]
  dsimp only
  rw [overPlanes_get, if_pos h, fullPlane_get]
  exact Option.isSome_some
theorem fdct_writes (b : BankId) (m : PlaneMask) (s : State) (p : PlaneId) (k : ElemId) (h : m.getLsbD p.val = true) :
    ((countCommand (effectOf (.fdct b m) s)).fbAt b p k).isSome = true := by
  rw [State.fbAt, bank_countCommand, effectOf, bank_setBank_same]
  dsimp only
  rw [overPlanes_get, if_pos h, fullPlane_get]
  exact Option.isSome_some
theorem idctPlane_zero (v : Vector F64 64) (h : ∀ i : ElemId, v[i] = 0) (j : ElemId) : (idctPlane v)[j] = 0 := by
  have h' : (fun i : ElemId => v[i]) = fun _ => 0 := funext h
  rw [idctPlane_get, h', idctValue_zero]
theorem fdctPlane_zero (v : Vector F64 64) (h : ∀ i : ElemId, v[i] = 0) (j : ElemId) : (fdctPlane v)[j] = 0 := by
  have h' : (fun i : ElemId => v[i]) = fun _ => 0 := funext h
  rw [fdctPlane_get, h', fdctValue_zero]
/-- On zeros `IDCT` and `FDCT` complete, and their planes are written. -/
theorem witness_CommandsStoreFiniteValues_idct : maskAll.getLsbD (0 : PlaneId).val = true ∧
    ∃ t, exec (.idct 0 maskAll) (evenState 0 0 0 .nat) = .next t ∧ t.err = false ∧ (t.sbAt 0 0 0).isSome = true := by
  have hc : checkOf (.idct 0 maskAll) (evenState 0 0 0 .nat) = none := by
    simp only [checkOf, checkIdct, Option.or_eq_none_iff, checkFinite_eq_none]
    refine ⟨by decide +kernel, by decide +kernel, fun p _ i => ?_, fun p _ i => ?_⟩
    · rw [even_vals_fb]; decide
    · rw [Bank.idctOf, idctPlane_zero _ (even_vals_fb p)]; decide
  have h := completes (.idct 0 maskAll) (by decide) (evenState 0 0 0 .nat) (by decide) hc
  exact ⟨by decide, _, h.1, h.2, idct_writes 0 maskAll _ 0 0 (by decide)⟩
theorem witness_CommandsStoreFiniteValues_fdct :
    ∃ t, exec (.fdct 0 maskAll) (evenState 0 0 0 .nat) = .next t ∧ t.err = false ∧ (t.fbAt 0 0 0).isSome = true := by
  have hc : checkOf (.fdct 0 maskAll) (evenState 0 0 0 .nat) = none := by
    simp only [checkOf, checkFdct, Option.or_eq_none_iff, checkFinite_eq_none]
    refine ⟨by decide +kernel, fun p _ i => ?_, fun p _ i => ?_⟩
    · rw [even_vals_sb]; decide
    · rw [Bank.fdctOf, fdctPlane_zero _ (even_vals_sb p)]; decide
  have h := completes (.fdct 0 maskAll) (by decide) (evenState 0 0 0 .nat) (by decide) hc
  exact ⟨_, h.1, h.2, fdct_writes 0 maskAll _ 0 0 (by decide)⟩
theorem witness_CommandsStoreFiniteValues_dqnt :
    exec (.dqnt 0 1 true) (evenState 0 0 3 .nat) = .next (after (.dqnt 0 1 true) (evenState 0 0 3 .nat)) ∧
    (after (.dqnt 0 1 true) (evenState 0 0 3 .nat)).err = false ∧
    ((after (.dqnt 0 1 true) (evenState 0 0 3 .nat)).fbAt 0 0 0).isSome = true := ⟨rfl, by decide +kernel, by decide +kernel⟩

theorem witness_ZigzagReorders : (evenState 0 0 0 .nat).err = false ∧ ∀ p k, maskAll.getLsbD (p : PlaneId).val = true →
    ((evenState 0 0 0 .nat).fbAt 0 p k).isSome ∧ (evenState 0 0 0 .nat).tagAt 0 p = .nat := by decide +kernel
theorem witness_InverseZigzagReorders : (evenState 0 0 0 .zz).err = false ∧ ∀ p k, maskAll.getLsbD (p : PlaneId).val = true →
    ((evenState 0 0 0 .zz).fbAt 0 p k).isSome ∧ (evenState 0 0 0 .zz).tagAt 0 p = .zz := by decide +kernel
theorem witness_ZigzagRoundTrip : (∀ p k, maskAll.getLsbD (p : PlaneId).val = true → ((evenState 0 0 0 .nat).fbAt 0 p k).isSome) ∧
    (∀ p : PlaneId, maskAll.getLsbD p.val = true → (evenState 0 0 0 .nat).tagAt 0 p = .nat) ∧
    (∀ p k, maskAll.getLsbD (p : PlaneId).val = true → ((evenState 0 0 0 .zz).fbAt 0 p k).isSome) ∧
    (∀ p : PlaneId, maskAll.getLsbD p.val = true → (evenState 0 0 0 .zz).tagAt 0 p = .zz) := by decide +kernel

theorem witness_PlanesAreQuantized : let s := evenState 0 0x4060000000000000 0 .zz
    s.err = false ∧ s.quant ≠ 0 ∧ ∀ p k, maskAll.getLsbD (p : PlaneId).val = true →
      s.fbAt 0 p k = some 0x4060000000000000 ∧ f64Finite 0x4060000000000000 = true ∧ s.tagAt 0 p = .zz := by decide +kernel
/-- A coefficient in each interval of the DC quantizer: -8, 0, 8, 1024, 2039 and 2040. -/
theorem witness_DcQuantizerByInterval : f64Finite (f64OfInt (-8)) = true ∧ f64Val (f64OfInt (-8)) ≤ -8 * f64Unit ∧
    f64Finite (f64OfInt 0) = true ∧ -8 * (f64Unit : Int) < f64Val (f64OfInt 0) ∧ f64Val (f64OfInt 0) < 8 * f64Unit ∧
    8 * (f64Unit : Int) ≤ f64Val (f64OfInt 8) ∧ f64Val (f64OfInt 8) < 2040 * f64Unit ∧
    1024 * (f64Unit : Int) ≤ f64Val (f64OfInt 1024) ∧ f64Val (f64OfInt 1024) < 1032 * f64Unit ∧
    f64Val (f64OfInt 2039) < 2040 * f64Unit ∧ 2040 * (f64Unit : Int) ≤ f64Val (f64OfInt 2040) := by decide +kernel
theorem witness_AcQuantizerTruncates : f64Finite (f64OfInt (-7)) = true ∧ (qac (f64OfInt (-7)) 1).2 = false ∧
    f64Val (f64OfInt (-7)) < 0 ∧ (qac (f64OfInt 256) 1).2 = true ∧ 0 ≤ f64Val (f64OfInt 256) := by decide +kernel
theorem witness_PlanesAreDequantized : let s := evenState 0 0 255 .nat
    s.err = false ∧ s.quant ≠ 0 ∧ (∀ p k, maskAll.getLsbD (p : PlaneId).val = true → s.qbAt 0 p k = some 255) ∧
    1 ≤ (255 : Level).toInt ∧ (255 : Level).toInt ≤ 255 ∧ (255 : Level).toInt ≠ 128 := by decide +kernel
theorem witness_DcRoundTrip : f64Finite (f64OfInt 13) = true ∧ 8 * (f64Unit : Int) ≤ f64Val (f64OfInt 13) ∧
    f64Val (f64OfInt 13) < 2040 * (f64Unit : Int) := by decide +kernel
/-- A magnitude below `2*q`, and one in the middle range for an odd and for an even step, neither clip acting; both signs. -/
theorem witness_AcRoundTrip : f64Finite (f64OfInt 7) = true ∧ (f64Mag (f64OfInt 7) : Int) < 2 * 4 * f64Unit ∧
    2 * 3 * (f64Unit : Int) ≤ f64Mag (f64OfInt 7) ∧ (f64Mag (f64OfInt 7) : Int) < 256 * 3 * f64Unit ∧
    ((dac (qac (f64OfInt 7) 3).1 3).natAbs : Int) = dacMagnitude (qac (f64OfInt 7) 3).1 3 ∧
    ((dac (qac (f64OfInt 7) 2).1 2).natAbs : Int) = dacMagnitude (qac (f64OfInt 7) 2).1 2 ∧
    0 < dac (qac (f64OfInt 7) 2).1 2 ∧ dac (qac (f64OfInt (-7)) 2).1 2 < 0 := by decide +kernel

/-- All levels 1, scanned from index 0 and flagged coded: the checks pass whatever the tables are. -/
theorem flat_one_codes (t : Config.Vlc) : PlaneCodes t true false (flat 1) := by
  have h : ∀ e ∈ events (flat 1) false, ¬ (e.level < -127 ∨ 127 < e.level) := by decide +kernel
  refine ⟨by unfold DcLegal; decide +kernel, by unfold HasCoded; decide +kernel, fun e he hu => h e he hu.2⟩
theorem mask_all : ∀ p : PlaneId, maskAll.getLsbD p.val = true := by decide
theorem witness_CostIsCounted : (evenState 0 0 1 .nat).err = false ∧ ((evenState 0 0 1 .nat).holdsLevels 0 fun _ => flat 1) ∧
    ∀ p : PlaneId, PlaneCodes Config.vlc (maskAll.getLsbD p.val) false (flat 1) :=
  ⟨rfl, evenState_holdsLevels 1, fun p => by rw [mask_all]; exact flat_one_codes _⟩
theorem witness_BitsAreEmitted : (evenState 0 0 1 .nat).err = false ∧ ((evenState 0 0 1 .nat).holdsLevels 0 fun _ => flat 1) ∧
    ∀ p : PlaneId, PlaneCodes Config.vlc (maskAll.getLsbD p.val) false (flat 1) := witness_CostIsCounted
theorem flat_check (dc : Bool) (h : dc = false) : checkRunLevel Config.vlc 0 maskAll dc (evenState 0 0 1 .nat) = none := by
  subst h
  rw [checkRunLevel_of_holds _ _ _ _ _ _ (evenState_holdsLevels 1), List.findSome?_eq_none_iff]
  intro p _
  rw [checkPlaneCoding_eq_none, mask_all]
  exact flat_one_codes _
theorem witness_CostEqualsEmission : (evenState 0 0 1 .nat).err = false ∧
    (∃ t, exec (.rlcost 0 maskAll false) (evenState 0 0 1 .nat) = .next t) ∧
    ∃ u, exec (.rlemit 0 maskAll false) (evenState 0 0 1 .nat) = .next u ∧ u.err = false :=
  ⟨rfl, ⟨_, runCommand_done _ _ _ _ rfl (flat_check false rfl)⟩, ⟨_, runCommand_done _ _ _ _ rfl (flat_check false rfl), rfl⟩⟩
theorem witness_QuantizedMacroblockIsCodable : (evenState 0 0x4060000000000000 0 .zz).err = false ∧
    ∃ t, exec (.qnt 0 maskAll true) (evenState 0 0x4060000000000000 0 .zz) = .next t ∧ t.err = false :=
  ⟨rfl, _, completes (.qnt 0 maskAll true) (by decide) _ rfl (by decide +kernel)⟩

/-- The last element of each block-buffer space and of `CUR`; and the writes that change nothing. -/
theorem witness_HostWritesOneElement : ({ streamed with pending := [.memWrite .fb 767 9] } : State).pending =
      .memWrite .fb 767 9 :: [] ∧ Space.fb ≠ .reg ∧ Space.fb ≠ .bs ∧ 767 < streamed.spaceSize .fb ∧ 767 < streamed.spaceSize .qb ∧
    255 < streamed.spaceSize .cur ∧ streamed.spaceSize .fb ≤ 768 ∧ streamed.spaceSize .cur ≤ 256 ∧ (15 ≠ 16 ∧ 15 ≠ 17 ∧ 15 ≠ 18) := by decide
theorem witness_HostReadHasNoSideEffect : let s : State := { evenState 0 0 5 .nat with pending := [.memRead .qb 383] }
    s.pending = .memRead .qb 383 :: [] ∧ s.spaceRead .qb 383 = some 5 := by decide +kernel
/-- An accepted and a refused access, and each ground of refusal by itself. -/
theorem witness_BusSlotsAreElements : defaultBusMap.select (3 * 2 ^ 40 + 383 * 8) 8 = some (.qb, 383) ∧
    (evenState 0 0 5 .nat).spaceRead .qb 383 = some 5 ∧ defaultBusMap.select (3 * 2 ^ 40) 4 = none ∧
    spaceOfId 3 = some .qb ∧ (383 < 2 ^ 37) ∧ (4 ≠ 8) ∧ (3 * 2 ^ 40 + 4) % 8 ≠ 0 ∧ 8 * 2 ^ 40 ≤ 8 * 2 ^ 40 := by decide +kernel
/-- A plane tagged `ZZ` with all its elements written, and a reserved register. -/
theorem witness_RegistersRead : (evenState 0 0 5 .zz).tagAt 0 5 = .zz ∧ (∀ i, ((evenState 0 0 5 .zz).qbAt 0 5 i).isSome) ∧ 19 ≤ 255 := by
  decide +kernel

end Sys2Proof.Tests
end

section
/-! PROOF. A bus access is the element its map selects (00_scope.md R8, 20_memory.md R62, R63, R68, R71). -/

namespace Sys2Proof.Machine

/-! ### The host's accesses, as steps -/

/-- Taking an access from the host's queue changes no element of the block. -/
@[simp] theorem spaceRead_popAccess (s : State) (rest : List HostStep) (sp : Space) (i : Nat) :
    (s.popAccess rest).spaceRead sp i = s.spaceRead sp i := by
  cases sp <;> rfl

theorem stepWith_memWrite {s : State} {sp : Space} {i : Nat} {v : BitVec 64} {rest : List HostStep}
    (h : s.pending = .memWrite sp i v :: rest) (m : BusMap) :
    stepWith m s = .next (memWrite sp i v (s.popAccess rest)) := by
  simp only [stepWith, h, hostAccess]

theorem stepWith_busRead {s : State} {a size : Nat} {rest : List HostStep} (h : s.pending = .busRead a size :: rest)
    (m : BusMap) : stepWith m s = .next (busRead m a size (s.popAccess rest)) := by
  simp only [stepWith, h, hostAccess]

theorem stepWith_busWrite {s : State} {a : Nat} {bytes : List Byte} {rest : List HostStep}
    (h : s.pending = .busWrite a bytes :: rest) (m : BusMap) :
    stepWith m s = .next (busWrite m a bytes (s.popAccess rest)) := by
  simp only [stepWith, h, hostAccess]

/-! ### What a bus access does under any map -/

theorem busRead_refused {m : BusMap} {a size : Nat} (hs : m.select a size = none) (s : State) :
    (busRead m a size s).busData.length = size := by
  simp [busRead, hs]

theorem busWrite_selected {m : BusMap} {a : Nat} {bytes : List Byte} {sp : Space} {i : Nat}
    (hs : m.select a bytes.length = some (sp, i)) (s : State) :
    busWrite m a bytes s = memWrite sp i (m.ofBytes sp bytes) s := by
  simp only [busWrite, hs]

theorem busWrite_refused {m : BusMap} {a : Nat} {bytes : List Byte} (hs : m.select a bytes.length = none) (s : State) :
    busWrite m a bytes s = s := by
  simp only [busWrite, hs]

/-! ### The bytes of a slot (20_memory.md R71) -/

theorem slotBytes_eq (v : BitVec 64) :
    slotBytes v = (List.range 8).map fun k => BitVec.ofNat 8 (v.toNat / 256 ^ k) := by
  refine List.map_congr_left fun k _ => BitVec.eq_of_toNat_eq ?_
  rw [BitVec.extractLsb'_toNat, BitVec.toNat_ofNat, Nat.shiftRight_eq_div_pow, pow_mul, show 2 ^ 8 = 256 from rfl]

/-- The low `n` bytes of a number, read back in base 256, are the number modulo `256 ^ n`. -/
theorem foldr_bytes_eq_mod (n x : Nat) :
    ((List.range n).map fun k => BitVec.ofNat 8 (x / 256 ^ k)).foldr (fun b acc => b.toNat + 256 * acc) 0 = x % 256 ^ n := by
  induction n generalizing x with
  | zero => simp [Nat.mod_one]
  | succ n ih =>
    have hshift : ∀ k, x / 256 ^ (k + 1) = x / 256 / 256 ^ k := fun k => by rw [pow_succ', Nat.div_div_eq_div_mul]
    have hrest := ih (x / 256)
    simp only [List.range_succ_eq_map, List.map_cons, List.map_map, List.foldr_cons, Function.comp_def, hshift, hrest]
    rw [pow_succ', Nat.mod_mul, pow_zero, Nat.div_one, BitVec.toNat_ofNat]

theorem slotValue_slotBytes (v : BitVec 64) : slotValue (slotBytes v) = v := by
  rw [slotBytes_eq, slotValue, foldr_bytes_eq_mod, show 256 ^ 8 = 2 ^ 64 from rfl, Nat.mod_eq_of_lt v.isLt, BitVec.ofNat_toNat,
    BitVec.setWidth_eq]

/-! ### The statement -/

/-- Settles O59: the step of a queued access is the access itself, and each clause is a law of `busRead`, `busWrite`, the
default selection or the slot's bytes. -/
theorem busSlotsAreElements : Obligations.BusSlotsAreElements := by
  refine ⟨fun m s a size rest h => ⟨_, stepWith_busRead h m, fun sp i v hs hv => ?_, fun hs => ?_, ?_⟩,
    fun m s a bytes rest h => ⟨fun sp i hs => ?_, fun hs => ?_⟩, rfl, defaultSelect_slot, defaultSelect_refused,
    fun sp v => ⟨slotBytes_eq v, slotValue_slotBytes v⟩⟩
  · exact busRead_busData m a size _ sp i v hs (by rw [spaceRead_popAccess, hv])
  · exact busRead_refused hs _
  · exact busRead_frame m a size (s.popAccess rest)
  · rw [stepWith_busWrite h, busWrite_selected hs, stepWith_memWrite rfl]; rfl
  · rw [stepWith_busWrite h, busWrite_refused hs]; rfl

end Sys2Proof.Machine
end

section
/-! PROOF. Sums and products are correctly rounded to nearest even (00_scope.md R11, 43_transform.md R172, R173). Throughout,
`s` is the exponent step of a result and `m` its significand: its pattern is `s * 2 ^ 52 + m`, its magnitude `m * 2 ^ s`. -/

namespace Sys2Proof.Machine

/-! ### Rounding to a multiple of `2 ^ t` -/

/-- The rounded quotient is at most half a divisor away on either side, and even at exactly half. -/
theorem roundShift_within_half (n t : Nat) :
    2 * n ≤ 2 * (roundShift n t * 2 ^ t) + 2 ^ t ∧ 2 * (roundShift n t * 2 ^ t) ≤ 2 * n + 2 ^ t ∧
      (2 * n = 2 * (roundShift n t * 2 ^ t) + 2 ^ t ∨ 2 * (roundShift n t * 2 ^ t) = 2 * n + 2 ^ t →
        roundShift n t % 2 = 0) := by
  have hdiv := Nat.div_add_mod' n (2 ^ t)
  have hrest := Nat.mod_lt n (Nat.two_pow_pos t)
  simp only [roundShift]
  split
  · rw [add_one_mul]; omega
  · omega

/-- Among the multiples of `2 ^ t` none is nearer than the rounded quotient, and it is even where another is as near. -/
theorem roundShift_nearest (n t : Nat) (j : Int) :
    ((roundShift n t : Int) * 2 ^ t - n).natAbs ≤ (j * 2 ^ t - n).natAbs ∧
      (((roundShift n t : Int) * 2 ^ t - n).natAbs = (j * 2 ^ t - n).natAbs →
        j = roundShift n t ∨ roundShift n t % 2 = 0) := by
  have hhalf := roundShift_within_half n t
  have hpos : (0 : Int) ≤ 2 ^ t := by positivity
  zify at hhalf
  generalize roundShift n t = m, (2 : Int) ^ t = d at *
  rcases lt_trichotomy j m with hlt | rfl | hgt
  · have := mul_le_mul_of_nonneg_right (Int.add_one_le_of_lt hlt) hpos
    rw [add_one_mul] at this
    omega
  · simp
  · have := mul_le_mul_of_nonneg_right (Int.add_one_le_of_lt hgt) hpos
    rw [add_one_mul] at this
    omega

/-- A bound on the number bounds the rounded quotient. -/
theorem roundShift_le {n t b : Nat} (h : n ≤ b * 2 ^ t) : roundShift n t ≤ b := by
  obtain ⟨-, hhalf, -⟩ := roundShift_within_half n t
  by_contra hc
  have := Nat.mul_le_mul_right (2 ^ t) (show b + 1 ≤ roundShift n t by omega)
  have := Nat.two_pow_pos t
  rw [add_one_mul] at *
  omega

theorem le_roundShift {n t b : Nat} (h : b * 2 ^ t ≤ n) : b ≤ roundShift n t := by
  obtain ⟨hhalf, -, -⟩ := roundShift_within_half n t
  by_contra hc
  have := Nat.mul_le_mul_right (2 ^ t) (show roundShift n t + 1 ≤ b by omega)
  have := Nat.two_pow_pos t
  rw [add_one_mul] at *
  omega

/-- An even bound is reached from half a divisor below it on: that tie lies above an odd quotient, and goes up. -/
theorem roundShift_lt_iff {n t b : Nat} (hb : b % 2 = 0) : roundShift n t < b ↔ 2 * n + 2 ^ t < 2 * (b * 2 ^ t) := by
  obtain ⟨hbelow, habove, heven⟩ := roundShift_within_half n t
  have hpos := Nat.two_pow_pos t
  rcases lt_trichotomy (roundShift n t + 1) b with hlt | heq | hgt
  · have := Nat.mul_le_mul_right (2 ^ t) (show roundShift n t + 2 ≤ b by omega)
    rw [add_mul] at this
    omega
  · rw [← heq, add_one_mul]; omega
  · have := Nat.mul_le_mul_right (2 ^ t) (show b ≤ roundShift n t by omega)
    omega

/-! ### The exponent step -/

/-- The exponent step leaves a significand of at most 53 bits, and of exactly 53 where it is not 0. -/
theorem roundStep_bounds {n : Nat} (k : Nat) (hn : n < 2 ^ 2 ^ 13) :
    n < 2 ^ 53 * 2 ^ (roundStep n k + k) ∧ (roundStep n k = 0 ∨ 2 ^ 52 * 2 ^ (roundStep n k + k) ≤ n) := by
  simp only [roundStep, topBit_eq_log2 n hn, ← pow_add]
  constructor
  · exact Nat.lt_log2_self.trans_le (Nat.pow_le_pow_right (by norm_num) (by omega))
  · by_cases hstep : n.log2 - k - 52 = 0
    · exact .inl hstep
    · have hn0 : n ≠ 0 := by rintro rfl; simp at hstep
      exact .inr ((Nat.le_log2 hn0).1 (by omega))

/-- A carry out of the 53 bits stays a carry: the rounded significand is at most `2 ^ 53`. -/
theorem roundSig_bounds {n : Nat} (k : Nat) (hn : n < 2 ^ 2 ^ 13) :
    roundShift n (roundStep n k + k) ≤ 2 ^ 53 ∧ (roundStep n k = 0 ∨ 2 ^ 52 ≤ roundShift n (roundStep n k + k)) := by
  obtain ⟨hlt, hge⟩ := roundStep_bounds k hn
  exact ⟨roundShift_le hlt.le, hge.imp_right le_roundShift⟩

/-! ### Patterns -/

/-- The fields of a pattern built from a sign and the other 63 bits. -/
theorem f64Pack_divMod (sign : Bool) {p : Nat} (hp : p < 2 ^ 63) : f64Sign (f64Pack sign p) = sign ∧
    f64Exp (f64Pack sign p) = p / 2 ^ 52 ∧ f64Frac (f64Pack sign p) = p % 2 ^ 52 := by
  have h := f64Pack_fields sign (p / 2 ^ 52) (p % 2 ^ 52) (by omega) (by omega)
  rwa [Nat.div_add_mod'] at h

theorem f64Pack_finite_iff (sign : Bool) {p : Nat} (hp : p ≤ f64InfMag) :
    f64Finite (f64Pack sign p) = true ↔ p < f64InfMag := by
  unfold f64InfMag at *
  obtain ⟨-, hexp, -⟩ := f64Pack_divMod sign (p := p) (by omega)
  rw [f64Finite, hexp, bne_iff_ne]
  omega

/-- The magnitude of the pattern of step `s` and significand `m`, a carry out of the significand included. -/
theorem f64Mag_f64Pack (sign : Bool) {s m : Nat} (hm : m ≤ 2 ^ 53) (hs : s = 0 ∨ 2 ^ 52 ≤ m)
    (hfin : s * 2 ^ 52 + m < f64InfMag) : f64Mag (f64Pack sign (s * 2 ^ 52 + m)) = m * 2 ^ s := by
  unfold f64InfMag at hfin
  obtain ⟨-, hexp, hfrac⟩ := f64Pack_divMod sign (p := s * 2 ^ 52 + m) (by omega)
  rw [f64Mag, hexp, hfrac]
  obtain hsub | hnormal | hcarry : m < 2 ^ 52 ∨ (2 ^ 52 ≤ m ∧ m < 2 ^ 53) ∨ m = 2 ^ 53 := by omega
  · obtain rfl : s = 0 := by omega
    rw [if_pos (by omega)]
    omega
  · rw [show (s * 2 ^ 52 + m) / 2 ^ 52 = s + 1 by omega, show 2 ^ 52 + (s * 2 ^ 52 + m) % 2 ^ 52 = m by omega,
      if_neg (by omega), Nat.add_sub_cancel]
  · rw [show (s * 2 ^ 52 + m) / 2 ^ 52 = s + 2 by omega, show 2 ^ 52 + (s * 2 ^ 52 + m) % 2 ^ 52 = 2 ^ 52 by omega,
      if_neg (by omega), hcarry, Nat.add_sub_assoc (by decide), pow_add 2 s]
    ring

/-- A magnitude is a multiple of the last place of step `s`, or lies below every normal number of that step. -/
theorem f64Mag_dvd_or_lt (x : F64) (s : Nat) : 2 ^ s ∣ f64Mag x ∨ (s ≠ 0 ∧ f64Mag x < 2 ^ 52 * 2 ^ s) := by
  have hfrac := f64Frac_lt x
  by_cases hs : s = 0
  · simp [hs]
  unfold f64Mag
  split
  · exact .inr ⟨hs, hfrac.trans_le (Nat.le_mul_of_pos_right _ (Nat.two_pow_pos s))⟩
  rcases le_or_gt s (f64Exp x - 1) with hle | hgt
  · exact .inl (Dvd.dvd.mul_left (pow_dvd_pow 2 hle) _)
  · refine .inr ⟨hs, ?_⟩
    calc (2 ^ 52 + f64Frac x) * 2 ^ (f64Exp x - 1) < 2 ^ 53 * 2 ^ (f64Exp x - 1) :=
          Nat.mul_lt_mul_of_pos_right (by omega) (Nat.two_pow_pos _)
      _ ≤ 2 ^ 53 * 2 ^ (s - 1) := Nat.mul_le_mul_left _ (Nat.pow_le_pow_right (by decide) (by omega))
      _ = 2 ^ 52 * 2 ^ s := by rw [← pow_add, ← pow_add, show 53 + (s - 1) = 52 + s by omega]

/-- The same for a value of either sign. -/
theorem f64Val_dvd_or_lt {x : F64} {v : Int} (s : Nat) (hv : v.natAbs = f64Mag x) :
    2 ^ s ∣ v ∨ (s ≠ 0 ∧ v < 2 ^ 52 * 2 ^ s) := by
  have h := f64Mag_dvd_or_lt x s
  rw [← hv] at h
  refine h.imp (fun h => ?_) (And.imp_right fun h => ?_)
  · exact_mod_cast Int.natCast_dvd.2 h
  · zify at h; exact (le_abs_self v).trans_lt h

/-- Every finite magnitude is below `2 ^ 2098` least units, a power whose exponent stays folded. -/
theorem f64Mag_lt {x : F64} (h : f64Finite x = true) : ∃ K, K = 2045 ∧ f64Mag x < 2 ^ (53 + K) := by
  obtain ⟨K, hK⟩ : ∃ K, K = 2045 := ⟨_, rfl⟩
  have hfrac := f64Frac_lt x
  have hexp := f64Exp_lt x
  rw [f64Finite, bne_iff_ne] at h
  refine ⟨K, hK, ?_⟩
  rw [pow_add]
  unfold f64Mag
  split
  · exact (show f64Frac x < 2 ^ 53 by omega).trans_le (Nat.le_mul_of_pos_right _ (Nat.two_pow_pos K))
  · exact Nat.mul_lt_mul_of_lt_of_le (by omega) (Nat.pow_le_pow_right (by decide) (by omega)) (Nat.two_pow_pos K)

/-- Exact sums and products of finite numbers are within the range of `topBit`. -/
theorem f64Mag_range {x y : F64} (hx : f64Finite x = true) (hy : f64Finite y = true) :
    f64Mag x + f64Mag y < 2 ^ 2 ^ 13 ∧ f64Mag x * f64Mag y < 2 ^ 2 ^ 13 := by
  obtain ⟨K, hK, hmx⟩ := f64Mag_lt hx
  obtain ⟨_, rfl, hmy⟩ := f64Mag_lt hy
  rw [← hK] at hmy
  have hrange : ∀ e, e ≤ 2 ^ 13 → 2 ^ e ≤ 2 ^ 2 ^ 13 := fun e he => Nat.pow_le_pow_right (by decide) he
  constructor
  · refine (Nat.add_lt_add hmx hmy).trans_le ?_
    rw [← two_mul, ← pow_succ']
    exact hrange _ (by omega)
  · refine (Nat.mul_lt_mul'' hmx hmy).trans_le ?_
    rw [← pow_add]
    exact hrange _ (by omega)

/-! ### One rounding -/

/-- `f64OverflowAt` as a power whose exponent stays folded. -/
theorem f64OverflowAt_eq_pow : ∃ K, K = 2044 ∧ f64OverflowAt = (2 ^ 54 - 1) * 2 ^ K :=
  ⟨2044, rfl, by unfold f64OverflowAt; rfl⟩

/-- The rounded pattern is below infinity exactly while the number is below the overflow bound. The last finite step is
`2045`: below it nothing overflows, above it everything does, and in it only a carry out of the significand. -/
theorem roundPattern_lt_iff {n : Nat} (k : Nat) (hn : n < 2 ^ 2 ^ 13) :
    roundStep n k * 2 ^ 52 + roundShift n (roundStep n k + k) < f64InfMag ↔ n < f64OverflowAt * 2 ^ k := by
  obtain ⟨K, hK, hover⟩ := f64OverflowAt_eq_pow
  obtain ⟨hlt, hge⟩ := roundStep_bounds k hn
  obtain ⟨hle53, hge52⟩ := roundSig_bounds k hn
  have hlast := roundShift_lt_iff (n := n) (t := roundStep n k + k) (b := 2 ^ 53) rfl
  rw [hover, mul_assoc, ← pow_add]
  unfold f64InfMag
  generalize roundStep n k = s at *
  rcases lt_trichotomy s (K + 1) with hs | rfl | hs
  · have hpow : 2 ^ (s + k) ≤ 2 ^ (K + k) := Nat.pow_le_pow_right (by decide) (by omega)
    omega
  · have hpow : 2 ^ (K + 1 + k) = 2 * 2 ^ (K + k) := by rw [add_right_comm, pow_succ']
    omega
  · have hpow : 2 ^ (K + 2 + k) ≤ 2 ^ (s + k) := Nat.pow_le_pow_right (by decide) (by omega)
    rw [add_right_comm, pow_add 2 (K + k)] at hpow
    omega

/-- Where rounding does not overflow, no value of a finite number is nearer than the rounded one, and its significand is
even where another value is as near: a value that is no multiple of the last place lies below all numbers of this step, and
`2 ^ 52` last places are nearer than it. -/
theorem roundSig_nearest {n : Nat} (k : Nat) (hn : n < 2 ^ 2 ^ 13) {v : Int}
    (hv : 2 ^ roundStep n k ∣ v ∨ (roundStep n k ≠ 0 ∧ v < 2 ^ 52 * 2 ^ roundStep n k)) :
    let r : Int := roundShift n (roundStep n k + k) * 2 ^ roundStep n k
    (r * 2 ^ k - n).natAbs ≤ (v * 2 ^ k - n).natAbs ∧
      ((r * 2 ^ k - n).natAbs = (v * 2 ^ k - n).natAbs → v = r ∨ roundShift n (roundStep n k + k) % 2 = 0) := by
  obtain ⟨-, hge⟩ := roundStep_bounds k hn
  have hnear := roundShift_nearest n (roundStep n k + k)
  generalize roundShift n (roundStep n k + k) = m at *
  generalize roundStep n k = s at *
  dsimp only
  rw [mul_assoc, ← pow_add]
  rcases hv with ⟨j, rfl⟩ | ⟨hs, hsmall⟩
  · rw [mul_comm _ j, mul_assoc, ← pow_add]
    exact ⟨(hnear j).1, fun h => ((hnear j).2 h).imp_left (by rintro rfl; rfl)⟩
  · have hbelow : v * 2 ^ k < 2 ^ 52 * 2 ^ (s + k) := by
      rw [pow_add, ← mul_assoc]; exact Int.mul_lt_mul_of_pos_right hsmall (by positivity)
    have hn52 : (2 ^ 52 * 2 ^ (s + k) : Int) ≤ n := by exact_mod_cast hge.resolve_left hs
    have hbound := (hnear (2 ^ 52)).1
    omega

/-- The value of a number rounded without overflow, and the parity of its fraction. -/
theorem f64Val_f64Pack_roundMag (sign : Bool) {n : Nat} (k : Nat) (hn : n < 2 ^ 2 ^ 13)
    (hfin : roundStep n k * 2 ^ 52 + roundShift n (roundStep n k + k) < f64InfMag) :
    (f64Val (f64Pack sign (roundMag n k)) =
      (if sign then -1 else 1) * (roundShift n (roundStep n k + k) * 2 ^ roundStep n k)) ∧
      f64Frac (f64Pack sign (roundMag n k)) % 2 = roundShift n (roundStep n k + k) % 2 := by
  obtain ⟨hle53, hge52⟩ := roundSig_bounds k hn
  obtain ⟨hsign, -, hfrac⟩ := f64Pack_divMod sign (hfin.trans (show f64InfMag < 2 ^ 63 by decide))
  rw [roundMag, min_eq_left hfin.le]
  constructor
  · rw [f64Val, hsign, f64Mag_f64Pack sign hle53 hge52 hfin]
    cases sign <;> simp
  · omega

/-- A number `n` of parts of `2 ^ k` to the least unit, rounded once and given a sign: what the sign is, when the result is
finite, and that it is then the nearest number, ties to even. -/
theorem f64Pack_roundMag (sign : Bool) {n : Nat} (k : Nat) (hn : n < 2 ^ 2 ^ 13) :
    f64Sign (f64Pack sign (roundMag n k)) = sign ∧
      (f64Finite (f64Pack sign (roundMag n k)) = true ↔ n < f64OverflowAt * 2 ^ k) ∧
      (f64Finite (f64Pack sign (roundMag n k)) = true →
        NearestEven (f64Pack sign (roundMag n k)) ((if sign then -1 else 1) * n) (2 ^ k)) := by
  have hInf : roundMag n k ≤ f64InfMag := Nat.min_le_right _ _
  have hfin : f64Finite (f64Pack sign (roundMag n k)) = true ↔
      roundStep n k * 2 ^ 52 + roundShift n (roundStep n k + k) < f64InfMag := by
    rw [f64Pack_finite_iff sign hInf, roundMag, min_lt_iff, or_iff_left (lt_irrefl _)]
  refine ⟨(f64Pack_divMod sign (hInf.trans_lt (by decide))).1, hfin.trans (roundPattern_lt_iff k hn), fun h w _ => ?_⟩
  obtain ⟨hval, hparity⟩ := f64Val_f64Pack_roundMag sign k hn (hfin.1 h)
  obtain ⟨hle, heven⟩ := roundSig_nearest k hn
    (f64Val_dvd_or_lt (x := w) (v := (if sign then -1 else 1) * f64Val w) (roundStep n k)
      (by rw [← natAbs_f64Val]; cases sign <;> simp))
  rw [hval, hparity, Nat.cast_pow, Nat.cast_ofNat]
  generalize (roundShift n (roundStep n k + k) * 2 ^ roundStep n k : Int) = r at *
  generalize f64Val w = v at *
  cases sign
  · simp only [Bool.false_eq_true, if_false, one_mul] at hle heven ⊢
    exact ⟨hle, fun h => heven h⟩
  · have hflip : ∀ u : Int, (-u * 2 ^ k - -n).natAbs = (u * 2 ^ k - n).natAbs := fun u => by
      rw [← Int.natAbs_neg]; congr 1; ring
    simp only [if_true, neg_one_mul, hflip, ← hflip (-v), neg_neg] at hle heven ⊢
    exact ⟨hle, fun h => (heven h).imp_left fun h => neg_eq_iff_eq_neg.1 h⟩

/-! ### Addition and multiplication -/

/-- A pattern that is not finite is an infinity or a NaN. -/
theorem f64Finite_iff (x : F64) : f64Finite x = true ↔ f64IsNaN x = false ∧ f64IsInf x = false := by
  unfold f64Finite f64IsNaN f64IsInf
  by_cases hexp : f64Exp x = 2047
  · simp [hexp]
  · simp [hexp]

theorem not_finite_of_isInf {x : F64} (h : f64IsInf x = true) : f64Finite x = false := by
  rw [← Bool.not_eq_true, f64Finite_iff, h]; simp

/-- The sign of a sum: that of the exact result, and for a zero sum minus only where both operands have the sign bit. -/
def addSign (x y : F64) : Bool :=
  if f64Val x + f64Val y = 0 then f64Sign x && f64Sign y else decide (f64Val x + f64Val y < 0)

theorem roundMag_zero : roundMag 0 0 = 0 := by decide +kernel

/-- The sum of finite operands is the exact sum rounded once. -/
theorem f64Add_of_finite {x y : F64} (hx : f64Finite x = true) (hy : f64Finite y = true) :
    f64Add x y = f64Pack (addSign x y) (roundMag (f64Val x + f64Val y).natAbs 0) := by
  obtain ⟨hxn, hxi⟩ := (f64Finite_iff x).1 hx
  obtain ⟨hyn, hyi⟩ := (f64Finite_iff y).1 hy
  simp only [f64Add, addSign, hxn, hxi, hyn, hyi, Bool.or_self, Bool.false_eq_true, if_false]
  split
  · rename_i hz
    rw [hz, Int.natAbs_zero, roundMag_zero]
  · rfl

/-- The product of finite operands is the exact product, which counts parts of `2 ^ 1074` to the least unit, rounded once. -/
theorem f64Mul_of_finite {x y : F64} (hx : f64Finite x = true) (hy : f64Finite y = true) {K : Nat} (hK : K = 1074) :
    f64Mul x y = f64Pack (f64Sign x != f64Sign y) (roundMag (f64Mag x * f64Mag y) K) := by
  obtain ⟨hxn, hxi⟩ := (f64Finite_iff x).1 hx
  obtain ⟨hyn, hyi⟩ := (f64Finite_iff y).1 hy
  simp only [hK, f64Mul, hxn, hxi, hyn, hyi, Bool.or_self, Bool.false_eq_true, if_false]

/-- The exact sum by its sign and magnitude. -/
theorem f64Val_add (x y : F64) :
    f64Val x + f64Val y = (if addSign x y then -1 else 1) * ((f64Val x + f64Val y).natAbs : Int) := by
  unfold addSign
  generalize f64Val x + f64Val y = z
  rcases lt_trichotomy z 0 with hz | rfl | hz
  · simp only [hz, hz.ne, if_false, decide_true, if_true]; omega
  · simp
  · simp only [hz.not_gt, hz.ne', if_false, decide_false, Bool.false_eq_true]; omega

/-- The exact product by its sign and magnitude. -/
theorem f64Val_mul (x y : F64) :
    f64Val x * f64Val y = (if f64Sign x != f64Sign y then -1 else 1) * ((f64Mag x * f64Mag y : Nat) : Int) := by
  unfold f64Val
  cases f64Sign x <;> cases f64Sign y <;> simp

/-- Every infinite pattern the arithmetic builds is not finite. -/
theorem f64Pack_inf_not_finite (sign : Bool) : f64Finite (f64Pack sign f64InfMag) = false := by
  cases sign <;> decide

theorem f64Add_correct {x y : F64} (hx : f64Finite x = true) (hy : f64Finite y = true) :
    (f64Finite (f64Add x y) = true ↔ (f64Val x + f64Val y).natAbs < f64OverflowAt) ∧
      (f64Finite (f64Add x y) = true → NearestEven (f64Add x y) (f64Val x + f64Val y) 1) ∧
      (f64Val x + f64Val y = 0 → f64Sign (f64Add x y) = (f64Sign x && f64Sign y)) := by
  have hrange : (f64Val x + f64Val y).natAbs < 2 ^ 2 ^ 13 := by
    refine (Int.natAbs_add_le _ _).trans_lt ?_
    rw [natAbs_f64Val, natAbs_f64Val]
    exact (f64Mag_range hx hy).1
  obtain ⟨hsign, hfin, hnear⟩ := f64Pack_roundMag (addSign x y) 0 hrange
  rw [← f64Add_of_finite hx hy] at hsign hfin hnear
  rw [← f64Val_add, pow_zero] at hnear
  rw [pow_zero, mul_one] at hfin
  exact ⟨hfin, hnear, fun hz => by rw [hsign, addSign, if_pos hz]⟩

theorem f64Mul_correct {x y : F64} (hx : f64Finite x = true) (hy : f64Finite y = true) :
    (f64Finite (f64Mul x y) = true ↔ (f64Val x * f64Val y).natAbs < f64OverflowAt * f64Unit) ∧
      (f64Finite (f64Mul x y) = true → NearestEven (f64Mul x y) (f64Val x * f64Val y) f64Unit) ∧
      f64Sign (f64Mul x y) = (f64Sign x != f64Sign y) := by
  obtain ⟨K, hK, hunit⟩ := f64Unit_eq_pow
  obtain ⟨hsign, hfin, hnear⟩ := f64Pack_roundMag (f64Sign x != f64Sign y) K (f64Mag_range hx hy).2
  rw [← f64Mul_of_finite hx hy hK] at hsign hfin hnear
  rw [Int.natAbs_mul, natAbs_f64Val, natAbs_f64Val, f64Val_mul, hunit]
  exact ⟨hfin, hnear, hsign⟩

/-- With an operand that is an infinity or a NaN a sum is an infinity or the NaN (43_transform.md R173). -/
theorem f64Add_not_finite {x y : F64} (h : f64Finite x = false ∨ f64Finite y = false) : f64Finite (f64Add x y) = false := by
  unfold f64Add
  split
  · exact f64NaN_not_finite
  next hnan =>
  split
  next hinf =>
    split
    · exact f64NaN_not_finite
    · exact not_finite_of_isInf hinf
  next hxi =>
  split
  next hinf => exact not_finite_of_isInf hinf
  next hyi =>
  simp_all [← Bool.not_eq_true, f64Finite_iff]

theorem f64Mul_not_finite {x y : F64} (h : f64Finite x = false ∨ f64Finite y = false) : f64Finite (f64Mul x y) = false := by
  unfold f64Mul
  dsimp only
  split
  · exact f64NaN_not_finite
  next hnan =>
  split
  next hinf =>
    split
    · exact f64NaN_not_finite
    · exact f64Pack_inf_not_finite _
  next hinf =>
  simp_all [← Bool.not_eq_true, f64Finite_iff]

/-! ### The statement -/

/-- Settles O39: each operation on finite operands is one rounding of its exact result, and one rounding is to nearest even. -/
theorem arithmeticRoundsToNearestEven : Obligations.ArithmeticRoundsToNearestEven :=
  ⟨fun _ _ hx hy => ⟨f64Add_correct hx hy, f64Mul_correct hx hy⟩,
    fun _ _ h => ⟨f64Add_not_finite h, f64Mul_not_finite h⟩⟩

end Sys2Proof.Machine
end

section
/-! PROOF. The invariant of the machine: it holds after reset, and host accesses, faults and effects keep it, and so every
step does (10_state.md R21 to R25, R31, R44, 60_exceptions.md R261; the memory clauses are log entry 3). -/

namespace Sys2Proof.Machine

/-! ### The host's queue and reads -/

theorem inv_popCommand {s : State} (h : s.Inv) (rest : List HostStep) : (s.popCommand rest).Inv :=
  ⟨h.memory, h.fresh, h.aligned, h.geometry, h.errors, h.sinkLength⟩

theorem inv_popAccess {s : State} (h : s.Inv) (rest : List HostStep) : (s.popAccess rest).Inv :=
  ⟨h.memory, h.fresh, h.aligned, h.geometry, h.errors, h.sinkLength⟩

/-- Fill numbers stay fresh when the counter of fresh ones rises. -/
theorem freeFresh_raise {s : State} (h : s.freeFresh) {n : Nat} (hn : s.nextFree ≤ n) :
    ({ s with nextFree := n } : State).freeFresh :=
  ⟨h.1.trans_le hn, h.2.1.trans_le hn, h.2.2.trans_le hn⟩

/-- The invariant reads neither the model's record of host reads nor, beyond a lower bound, the counter of free values. -/
theorem inv_hostRecord {s : State} (h : s.Inv) (data : BitVec 64) (bytes : List Byte) {n : Nat} (hn : s.nextFree ≤ n) :
    State.Inv { s with hostData := data, busData := bytes, nextFree := n } :=
  ⟨h.memory, freeFresh_raise h.fresh hn, h.aligned, h.geometry, h.errors, h.sinkLength⟩

theorem nextFree_le_memRead (sp : Space) (i : Nat) (s : State) : s.nextFree ≤ (memRead sp i s).nextFree := by
  unfold memRead
  split
  · exact le_rfl
  · exact Nat.le_succ _

theorem nextFree_le_busRead (m : BusMap) (a size : Nat) (s : State) : s.nextFree ≤ (busRead m a size s).nextFree := by
  unfold busRead
  split
  · exact nextFree_le_memRead _ _ s
  · exact Nat.le_succ _

theorem inv_memRead {s : State} (h : s.Inv) (sp : Space) (i : Nat) : (memRead sp i s).Inv := by
  rw [memRead_frame]
  exact inv_hostRecord h _ _ (nextFree_le_memRead sp i s)

theorem inv_busRead {s : State} (h : s.Inv) (m : BusMap) (a size : Nat) : (busRead m a size s).Inv := by
  rw [busRead_frame]
  exact inv_hostRecord h _ _ (nextFree_le_busRead m a size s)

/-! ### The host's writes -/

/-- A host write changes only banks and frame memories (20_memory.md R62, R63). -/
theorem memWrite_frame (sp : Space) (i : Nat) (v : BitVec 64) (s : State) :
    memWrite sp i v s = { s with
      banks := (memWrite sp i v s).banks, src := (memWrite sp i v s).src, cur := (memWrite sp i v s).cur,
      ref := (memWrite sp i v s).ref } := by
  unfold memWrite
  split
  · cases sp <;> rfl
  · rfl

/-- A host write leaves the number of the unspecified content of each frame memory. -/
theorem memWrite_fill (sp : Space) (i : Nat) (v : BitVec 64) (s : State) :
    (memWrite sp i v s).src.fill = s.src.fill ∧ (memWrite sp i v s).cur.fill = s.cur.fill ∧
      (memWrite sp i v s).ref.fill = s.ref.fill := by
  unfold memWrite
  split
  · cases sp <;> exact ⟨rfl, rfl, rfl⟩
  · exact ⟨rfl, rfl, rfl⟩

theorem freeFresh_memWrite {s : State} (h : s.freeFresh) (sp : Space) (i : Nat) (v : BitVec 64) :
    (memWrite sp i v s).freeFresh := by
  obtain ⟨hsrc, hcur, href⟩ := memWrite_fill sp i v s
  have hnext : (memWrite sp i v s).nextFree = s.nextFree := by rw [memWrite_frame]
  rw [State.freeFresh, hsrc, hcur, href, hnext]
  exact h

theorem inv_memWrite {s : State} (h : s.Inv) (sp : Space) (i : Nat) (v : BitVec 64) : (memWrite sp i v s).Inv := by
  have hm := memoryWf_memWrite sp i v s h.memory
  have hf := freeFresh_memWrite h.fresh sp i v
  rw [memWrite_frame] at hf ⊢
  exact ⟨hm, hf, h.aligned, h.geometry, h.errors, h.sinkLength⟩

theorem inv_busWrite {s : State} (h : s.Inv) (m : BusMap) (a : Nat) (bytes : List Byte) : (busWrite m a bytes s).Inv := by
  unfold busWrite
  split
  · exact inv_memWrite h _ _ _
  · exact h

/-! ### Resets and forgotten contents -/

theorem inv_forgetSrc {s : State} (h : s.Inv) : s.forgetSrc.Inv := by
  obtain ⟨-, hcur, href⟩ := h.fresh
  exact ⟨memoryWf_forgetSrc s h.memory, ⟨Nat.lt_succ_self _, Nat.lt_succ_of_lt hcur, Nat.lt_succ_of_lt href⟩,
    h.aligned, h.geometry, h.errors, h.sinkLength⟩

theorem freeFresh_forgetFrames {s : State} (h : s.freeFresh) : s.forgetFrames.freeFresh := by
  obtain ⟨hsrc, -, -⟩ := h
  exact ⟨Nat.lt_add_right 2 hsrc, Nat.lt_add_of_pos_right (by omega), Nat.lt_succ_self _⟩

theorem inv_forgetFrames {s : State} (h : s.Inv) : s.forgetFrames.Inv :=
  ⟨memoryWf_forgetFrames s h.memory, freeFresh_forgetFrames h.fresh, h.aligned, h.geometry, h.errors, h.sinkLength⟩

/-- Settles O15: the registers by the reset table (10_state.md R44), the memories by the model's reset values. -/
theorem invariantHoldsAtReset : Obligations.InvariantHoldsAtReset where
  memory := memoryWf_reset
  fresh := by decide
  aligned := by decide
  geometry := by decide
  errors := by decide
  sinkLength := rfl

/-- `SRST` gives the registers their reset values and keeps the frame memories. -/
theorem inv_softReset {s : State} (h : s.Inv) : (softReset s).Inv :=
  have reset : State.reset.Inv := invariantHoldsAtReset
  ⟨memoryWf_softReset s h.memory, h.fresh, reset.aligned, reset.geometry, reset.errors, reset.sinkLength⟩

theorem inv_hardReset {s : State} (h : s.Inv) : (hardReset s).Inv := inv_forgetFrames (inv_forgetSrc (inv_softReset h))

theorem inv_hostAccess {s : State} (h : s.Inv) (m : BusMap) (a : HostStep) : (hostAccess m a s).Inv := by
  cases a with
  | command w => exact h
  | memRead sp i => exact inv_memRead h sp i
  | memWrite sp i v => exact inv_memWrite h sp i v
  | busRead a size => exact inv_busRead h m a size
  | busWrite a bytes => exact inv_busWrite h m a bytes
  | rst => exact inv_hardReset h

/-! ### Faults and the command counter -/

/-- Fault entry records one of the codes 1 to 12 (60_exceptions.md R261, R275). -/
theorem inv_takeFault {s : State} (h : s.Inv) (t : Trap) (word : Word) : (takeFault t word s).Inv :=
  ⟨h.memory, h.fresh, h.aligned, h.geometry, faultNumber_range t.code, h.sinkLength⟩

theorem inv_runIllegal {s : State} (h : s.Inv) (word : Word) : (runIllegal word s).Inv := by
  unfold runIllegal
  split
  · exact h
  · exact inv_takeFault h _ _

theorem inv_countCommand {s : State} (h : s.Inv) : (countCommand s).Inv :=
  ⟨h.memory, h.fresh, h.aligned, h.geometry, h.errors, h.sinkLength⟩

/-! ### The effects of the commands -/

theorem inv_setBank {s : State} (h : s.Inv) (b : BankId) (k : Bank) : (s.setBank b k).Inv :=
  ⟨h.memory, h.fresh, h.aligned, h.geometry, h.errors, h.sinkLength⟩

theorem inv_setWreq {s : State} (h : s.Inv) (v : BitVec 16) : (setWreq v s).Inv := by
  unfold setWreq
  split
  · exact h
  · have hf := inv_forgetSrc h
    exact ⟨hf.memory, hf.fresh, hf.aligned, hf.geometry, hf.errors, hf.sinkLength⟩

theorem inv_setHreq {s : State} (h : s.Inv) (v : BitVec 16) : (setHreq v s).Inv := by
  unfold setHreq
  split
  · exact h
  · have hf := inv_forgetSrc h
    exact ⟨hf.memory, hf.fresh, hf.aligned, hf.geometry, hf.errors, hf.sinkLength⟩

theorem checkConfig_eq_none (s : State) :
    checkConfig s = none ↔ 16 ≤ (effectiveDim s.wreq).toNat ∧ 16 ≤ (effectiveDim s.hreq).toNat := by
  simp only [checkConfig, require_eq_none, Bool.and_eq_true, decide_eq_true_eq]

theorem effectiveDim_mod (v : BitVec 16) : (effectiveDim v).toNat % 16 = 0 := by
  rw [effectiveDim_toNat, Nat.mul_mod_left]

/-- The check of `CREATE` is what gives the new stream a macroblock (40_config_commands.md R127). -/
theorem inv_createStream {s : State} (h : s.Inv) (hc : checkConfig s = none) : (createStream s).Inv :=
  ⟨memoryWf_createStream s h.memory, freeFresh_forgetFrames h.fresh, ⟨effectiveDim_mod s.wreq, effectiveDim_mod s.hreq⟩,
    (checkConfig_eq_none s).1 hc, h.errors, h.sinkLength⟩

theorem inv_endFrame {s : State} (h : s.Inv) : (endFrame s).Inv := by
  obtain ⟨hsrc, hcur, -⟩ := h.fresh
  exact ⟨memoryWf_endFrame s h.memory, ⟨hsrc, hcur, hcur⟩, h.aligned, h.geometry, h.errors, h.sinkLength⟩

theorem inv_convertFrame {s : State} (h : s.Inv) : (convertFrame s).Inv := by
  have hfill : (convertFrame s).cur.fill = s.cur.fill := writeList_fill _ _
  obtain ⟨hsrc, hcur, href⟩ := h.fresh
  exact ⟨memoryWf_convertFrame s h.memory,
    ⟨Nat.lt_succ_of_lt hsrc, hfill.trans_lt (Nat.lt_succ_of_lt hcur), Nat.lt_succ_of_lt href⟩,
    h.aligned, h.geometry, h.errors, h.sinkLength⟩

theorem inv_writeMb {s : State} (h : s.Inv) (f : Nat → Nat → Pixel) : (writeMb f s).Inv := by
  have hm := memoryWf_writeMb f s h.memory
  have hfill : (writeMb f s).cur.fill = s.cur.fill := writeList_fill _ _
  obtain ⟨hsrc, hcur, href⟩ := h.fresh
  rw [writeMb_frame] at hm ⊢
  exact ⟨hm, ⟨hsrc, hfill.trans_lt hcur, href⟩, h.aligned, h.geometry, h.errors, h.sinkLength⟩

/-- `BSLEN` counts the bits that `RLEMIT` appends (10_state.md R31, 45_runlevel.md R218). -/
theorem inv_emitMb {s : State} (h : s.Inv) (t : Config.Vlc) (b : BankId) (m : PlaneMask) (dc : Bool) :
    (emitMb t b m dc s).Inv := by
  have hlen : (emitMb t b m dc s).bslen = BitVec.ofNat 32 (emitMb t b m dc s).bs.length := by
    simp only [emitMb, putFields_length, BitVec.ofNat_add, h.sinkLength]
  exact ⟨h.memory, h.fresh, h.aligned, h.geometry, h.errors, hlen⟩

/-- The effect of a command whose check passes keeps the invariant. -/
theorem inv_effectOf {s : State} (h : s.Inv) (i : Instr) (hc : checkOf i s = none) : (effectOf i s).Inv := by
  cases i with
  | nop => exact h
  | setw v => exact inv_setWreq h v
  | seth v => exact inv_setHreq h v
  | create => exact inv_createStream h hc
  | csc => exact inv_convertFrame h
  | recon b mode => exact inv_writeMb h _
  | copymb => exact inv_writeMb h _
  | frameend => exact inv_endFrame h
  | rlemit b m dc => exact inv_emitMb h _ b m dc
  | srst => exact inv_softReset h
  | setq _ | setmb _ _ | rlcost _ _ _ | qnt _ _ _ =>
    exact ⟨h.memory, h.fresh, h.aligned, h.geometry, h.errors, h.sinkLength⟩
  | extractCur b | extractRef b | extractDiff b | fdct b _ | zz b _ | dqnt b _ _ | izz b _ | idct b _ =>
    exact inv_setBank h b _

/-! ### Steps -/

theorem inv_exec {s t : State} (h : s.Inv) {i : Instr} (he : exec i s = .next t) : t.Inv := by
  by_cases hi : i = .srst
  · subst hi
    obtain rfl : softReset s = t := by simpa [exec_srst] using he
    exact inv_softReset h
  · obtain ⟨-, rfl⟩ | ⟨tr, -, -, rfl⟩ | ⟨-, hc, rfl⟩ := exec_cases hi he
    · exact h
    · exact inv_takeFault h tr _
    · exact inv_countCommand (inv_effectOf h i hc)

theorem inv_presentWord {s t : State} (h : s.Inv) {w : Word} (hp : presentWord w s = .next t) : t.Inv := by
  unfold presentWord at hp
  split at hp
  · exact inv_exec h hp
  · obtain rfl : runIllegal w s = t := by simpa using hp
    exact inv_runIllegal h w

/-- All that a step can do: stay idle, perform the oldest presented word, or perform the oldest host access. -/
theorem stepWith_cases {m : BusMap} {s t : State} (h : stepWith m s = .next t) :
    (s.pending = [] ∧ t = s) ∨
      (∃ w rest, s.pending = .command w :: rest ∧ presentWord w (s.popCommand rest) = .next t) ∨
      (∃ a rest, s.pending = a :: rest ∧ t = hostAccess m a (s.popAccess rest)) := by
  unfold stepWith at h
  split at h
  · rename_i hp
    exact .inl ⟨hp, by simpa using h.symm⟩
  · rename_i w rest hp
    exact .inr (.inl ⟨w, rest, hp, h⟩)
  · rename_i a rest _ hp
    exact .inr (.inr ⟨a, rest, hp, by simpa using h.symm⟩)

/-- Settles O14, by the three things a step can do. -/
theorem invariantKeptByEveryStep : Obligations.InvariantKeptByEveryStep := by
  intro s t h hs
  obtain ⟨-, rfl⟩ | ⟨w, rest, -, hw⟩ | ⟨a, rest, -, rfl⟩ := stepWith_cases hs
  · exact h
  · exact inv_presentWord (inv_popCommand h rest) hw
  · exact inv_hostAccess (inv_popAccess h rest) defaultBusMap a

end Sys2Proof.Machine
end

section
/-! PROOF. What a command changes of the state and what it leaves: the command counter, the other bank, the written
elements, the frame memories, the bit sink and the frame index (10_state.md R26, R29, R35, R37 to R41). -/

namespace Sys2Proof.Machine

/-! ### The command counter (10_state.md R26) -/

/-- Settles O10: a fault leaves the counter, and no effect touches it or `ERR` before the command is counted. -/
theorem completedCommandsAreCounted : Obligations.CompletedCommandsAreCounted := by
  intro i s t hi hs h
  obtain ⟨he, -⟩ | ⟨tr, -, -, rfl⟩ | ⟨-, -, rfl⟩ := exec_cases hi h
  · simp [hs] at he
  · simp
  · obtain ⟨herr, -, -, -, hcnt, -⟩ := effectOf_frame i hi s
    simp [herr, hs, hcnt]

/-! ### Fields that a command leaves -/

/-- What a fault and the command counter leave, and the effect of a command leaves too, the command leaves. -/
theorem exec_keeps {α : Type} (f : State → α) (hfault : ∀ tr word s, f (takeFault tr word s) = f s)
    (hcount : ∀ s, f (countCommand s) = f s) {i : Instr} {s t : State} (heffect : f (effectOf i s) = f s)
    (h : exec i s = .next t) : f t = f s := by
  by_cases hi : i = .srst
  · subst hi
    obtain rfl : softReset s = t := by simpa [exec_srst] using h
    exact heffect
  · obtain ⟨-, rfl⟩ | ⟨tr, -, -, rfl⟩ | ⟨-, -, rfl⟩ := exec_cases hi h
    · rfl
    · exact hfault tr _ s
    · rw [hcount, heffect]

/-- `SETW` writes `WREQ`, and of the rest at most the content of `SRC` (40_config_commands.md R122). -/
theorem setWreq_frame (v : BitVec 16) (s : State) :
    setWreq v s = { s with src := (setWreq v s).src, wreq := v, nextFree := (setWreq v s).nextFree } := by
  unfold setWreq
  split
  · subst_vars; rfl
  · rfl

/-- `SETH` writes `HREQ`, and of the rest at most the content of `SRC` (R123). -/
theorem setHreq_frame (v : BitVec 16) (s : State) :
    setHreq v s = { s with src := (setHreq v s).src, hreq := v, nextFree := (setHreq v s).nextFree } := by
  unfold setHreq
  split
  · subst_vars; rfl
  · rfl

/-! ### Banks (10_state.md R37) -/

/-- A command writes no bank but the one it names. -/
theorem instrBank_of_bankAfter {i : Instr} {s : State} {b : BankId} {k : Bank} (h : bankAfter i s = some (b, k)) :
    instrBank i = some b := by
  cases i with
  | nop | setw _ | seth _ | setq _ | setmb _ _ | create | csc | rlcost _ _ _ | rlemit _ _ _ | recon _ _ | copymb
  | frameend | srst => simp [bankAfter] at h
  | extractCur _ | extractRef _ | extractDiff _ | fdct _ _ | zz _ _ | qnt _ _ _ | dqnt _ _ _ | izz _ _ | idct _ _ =>
    simp only [bankAfter, Option.some.injEq, Prod.mk.injEq] at h
    rw [instrBank, h.1]

/-- The effect of a command leaves every bank it does not name. -/
theorem effectOf_bank_other {i : Instr} (hi : i ≠ .srst) {b : BankId} (hb : instrBank i ≠ some b) (s : State) :
    (effectOf i s).bank b = s.bank b := by
  rw [effectOf_bank i hi]
  split
  · rename_i b' k hk
    have hne : b ≠ b' := fun e => hb (e ▸ instrBank_of_bankAfter hk)
    rw [if_neg hne]
  · rfl

/-- Settles O11: no bank but the one the command names is written. -/
theorem banksAreIndependent : Obligations.BanksAreIndependent := fun _ s _ b hi hb h =>
  exec_keeps (fun s => s.bank b) (fun _ _ _ => rfl) (fun _ => rfl) (effectOf_bank_other hi hb s) h

/-! ### Written elements (10_state.md R35) -/

/-- Every written element of the planes `old` is written in the planes `new`. -/
def KeepsWritten {n : Nat} (old new : Vector (Plane n) 6) : Prop :=
  ∀ (p : PlaneId) (k : ElemId), (old[p][k]).isSome → (new[p][k]).isSome

/-- Every written element of the bank `old` is written in the bank `new`. -/
structure BankKeepsWritten (old new : Bank) : Prop where
  sb : KeepsWritten old.sb new.sb
  fb : KeepsWritten old.fb new.fb
  qb : KeepsWritten old.qb new.qb

theorem KeepsWritten.refl {n : Nat} (buf : Vector (Plane n) 6) : KeepsWritten buf buf := fun _ _ h => h

theorem BankKeepsWritten.refl (k : Bank) : BankKeepsWritten k k := ⟨.refl _, .refl _, .refl _⟩

theorem keepsWritten_ofFn_fullPlane {n : Nat} (old : Vector (Plane n) 6) (f : PlaneId → ElemId → BitVec n) :
    KeepsWritten old (Vector.ofFn fun p => fullPlane (f p)) := by
  intro p k _
  simp [fullPlane]

/-- Replacing the planes of a mask keeps what is written when every new plane is full. -/
theorem keepsWritten_overPlanes {n : Nat} (m : PlaneMask) (old : Vector (Plane n) 6) (f : PlaneId → Plane n)
    (hf : ∀ p ∈ planesOf m, ∀ k : ElemId, ((f p)[k]).isSome) : KeepsWritten old (overPlanes m old f) := by
  intro p k hk
  rw [overPlanes_get]
  split
  · rename_i hp
    exact hf p ((mem_planesOf m p).2 hp) k
  · exact hk

theorem keepsWritten_overPlanes_fullPlane {n : Nat} (m : PlaneMask) (old : Vector (Plane n) 6)
    (f : PlaneId → ElemId → BitVec n) : KeepsWritten old (overPlanes m old fun p => fullPlane (f p)) :=
  keepsWritten_overPlanes m old _ fun p _ k => by rw [fullPlane_get]; rfl

/-- The reorderings move only elements that their check has found written (43_transform.md R179, R180). -/
theorem keepsWritten_reordered {b : BankId} {m : PlaneMask} {want : Order} {s : State}
    (hc : checkReorder b m want s = none) (pos : ElemId → ElemId) :
    KeepsWritten (s.bank b).fb (overPlanes m (s.bank b).fb fun p => Vector.ofFn fun k => ((s.bank b).fb[p])[pos k]) := by
  have hw := (checkWritten_eq_none b _ _).1 (Option.or_eq_none_iff.1 hc).1
  refine keepsWritten_overPlanes m _ _ fun p hp k => ?_
  simpa using hw p hp (pos k)

/-- The bank that a command leaves keeps what is written, where the command's check passes. -/
theorem bankKeepsWritten_bankAfter {i : Instr} {s : State} (hc : checkOf i s = none) {b : BankId} {k : Bank}
    (h : bankAfter i s = some (b, k)) : BankKeepsWritten (s.bank b) k := by
  cases i with
  | nop | setw _ | seth _ | setq _ | setmb _ _ | create | csc | rlcost _ _ _ | rlemit _ _ _ | recon _ _ | copymb
  | frameend | srst => simp [bankAfter] at h
  | extractCur _ | extractRef _ | extractDiff _ =>
    cases h; exact ⟨keepsWritten_ofFn_fullPlane _ _, .refl _, .refl _⟩
  | fdct _ _ | dqnt _ _ _ => cases h; exact ⟨.refl _, keepsWritten_overPlanes_fullPlane _ _ _, .refl _⟩
  | zz _ _ | izz _ _ => cases h; exact ⟨.refl _, keepsWritten_reordered hc _, .refl _⟩
  | idct _ _ => cases h; exact ⟨keepsWritten_overPlanes_fullPlane _ _ _, .refl _, .refl _⟩
  | qnt _ _ _ =>
    cases h
    rw [quantize_bank]
    exact ⟨.refl _, .refl _, keepsWritten_overPlanes_fullPlane _ _ _⟩

theorem bankKeepsWritten_effectOf {i : Instr} (hi : i ≠ .srst) {s : State} (hc : checkOf i s = none) (b : BankId) :
    BankKeepsWritten (s.bank b) ((effectOf i s).bank b) := by
  rw [effectOf_bank i hi]
  split
  · rename_i b' k hk
    split
    · rename_i e
      exact e ▸ bankKeepsWritten_bankAfter hc hk
    · exact .refl _
  · exact .refl _

theorem bankKeepsWritten_exec {i : Instr} (hi : i ≠ .srst) {s t : State} (h : exec i s = .next t) (b : BankId) :
    BankKeepsWritten (s.bank b) (t.bank b) := by
  obtain ⟨-, rfl⟩ | ⟨tr, -, -, rfl⟩ | ⟨-, hc, rfl⟩ := exec_cases hi h
  · exact .refl _
  · exact .refl _
  · exact bankKeepsWritten_effectOf hi hc b

/-- Settles O12: what a command puts in place of a plane is all written. -/
theorem writtenElementsStayWritten : Obligations.WrittenElementsStayWritten := by
  intro i s t b p k hi h
  obtain ⟨hsb, hfb, hqb⟩ := bankKeepsWritten_exec hi h b
  exact ⟨hsb p k, hfb p k, hqb p k⟩

/-! ### Frame memories, bit sink and frame index (10_state.md R29, R38 to R41) -/

theorem effectOf_ref {i : Instr} (s : State) (hcreate : i ≠ .create) (hframeend : i ≠ .frameend) :
    (effectOf i s).ref = s.ref := by
  cases i with
  | create => exact absurd rfl hcreate
  | frameend => exact absurd rfl hframeend
  | setw v => rw [effectOf, setWreq_frame]
  | seth v => rw [effectOf, setHreq_frame]
  | recon _ _ | copymb => simp only [effectOf, writeMb]
  | _ => rfl

theorem effectOf_cur {i : Instr} (s : State) (hcreate : i ≠ .create) (hcsc : i ≠ .csc) (hcopymb : i ≠ .copymb)
    (hrecon : ∀ b mode, i ≠ .recon b mode) : (effectOf i s).cur = s.cur := by
  cases i with
  | create => exact absurd rfl hcreate
  | csc => exact absurd rfl hcsc
  | copymb => exact absurd rfl hcopymb
  | recon b mode => exact absurd rfl (hrecon b mode)
  | setw v => rw [effectOf, setWreq_frame]
  | seth v => rw [effectOf, setHreq_frame]
  | _ => rfl

theorem effectOf_src {i : Instr} (s : State) (hsetw : ∀ v, i ≠ .setw v) (hseth : ∀ v, i ≠ .seth v) :
    (effectOf i s).src = s.src := by
  cases i with
  | setw v => exact absurd rfl (hsetw v)
  | seth v => exact absurd rfl (hseth v)
  | recon _ _ | copymb => simp only [effectOf, writeMb]
  | _ => rfl

theorem effectOf_bs {i : Instr} (s : State) (hrlemit : ∀ b m dc, i ≠ .rlemit b m dc) (hsrst : i ≠ .srst) :
    (effectOf i s).bs = s.bs := by
  cases i with
  | rlemit b m dc => exact absurd rfl (hrlemit b m dc)
  | srst => exact absurd rfl hsrst
  | setw v => rw [effectOf, setWreq_frame]
  | seth v => rw [effectOf, setHreq_frame]
  | recon _ _ | copymb => simp only [effectOf, writeMb]
  | _ => rfl

theorem effectOf_frameidx {i : Instr} (s : State) (hcreate : i ≠ .create) (hframeend : i ≠ .frameend)
    (hsrst : i ≠ .srst) : (effectOf i s).frameidx = s.frameidx := by
  cases i with
  | create => exact absurd rfl hcreate
  | frameend => exact absurd rfl hframeend
  | srst => exact absurd rfl hsrst
  | setw v => rw [effectOf, setWreq_frame]
  | seth v => rw [effectOf, setHreq_frame]
  | recon _ _ | copymb => simp only [effectOf, writeMb]
  | _ => rfl

/-- Settles O13: each clause from the effects that leave the field. -/
theorem memoriesChangeOnlyByTheirCommands : Obligations.MemoriesChangeOnlyByTheirCommands := by
  intro i s t h
  refine ⟨fun hcreate hframeend => ?ref, fun hcreate hcsc hcopymb hrecon => ?cur, fun hsetw hseth => ?src,
    fun hrlemit hsrst => ?bs, fun hcreate hframeend hsrst => ?frameidx⟩
  case ref => exact exec_keeps State.ref (by simp) (by simp) (effectOf_ref s hcreate hframeend) h
  case cur => exact exec_keeps State.cur (by simp) (by simp) (effectOf_cur s hcreate hcsc hcopymb hrecon) h
  case src => exact exec_keeps State.src (by simp) (by simp) (effectOf_src s hsetw hseth) h
  case bs => exact exec_keeps State.bs (by simp) (by simp) (effectOf_bs s hrlemit hsrst) h
  case frameidx => exact exec_keeps State.frameidx (by simp) (by simp) (effectOf_frameidx s hcreate hframeend hsrst) h

end Sys2Proof.Machine
end

section
/-! PROOF. What the registers read as: a register of fields is the sum of its fields, and a view has the bits of its masks
(10_state.md R21 to R32, 20_memory.md R60, 60_exceptions.md R280). -/

namespace Sys2Proof.Machine

/-! ### Registers of fields (10_state.md R21) -/

theorem statusReg_toNat (s : State) :
    s.statusReg.toNat = s.stream.toNat + 2 * s.err.toNat + 4 * s.sat.toNat + 256 * s.errcode.toNat := by
  simp only [State.statusReg, toNat_append_eq, BitVec.toNat_ofBool, BitVec.toNat_ofNat]
  omega

theorem errinfoReg_toNat (s : State) :
    s.errinfoReg.toNat = s.errinfo.plane.val + 256 * s.errinfo.index.val + 65536 * s.errinfo.bank.val := by
  simp only [State.errinfoReg, toNat_append_eq, BitVec.toNat_ofNat]
  omega

theorem mbposReg_toNat (s : State) : s.mbposReg.toNat = s.mby.toNat + 4096 * s.mbx.toNat := by
  simp only [State.mbposReg, toNat_append_eq, BitVec.toNat_ofNat]
  omega

/-! ### Views (10_state.md R32) -/

/-- A plane mask below zeros is the mask. -/
theorem zeros_append_maskOf_bit (n : Nat) (f : PlaneId → Bool) (j : Nat) :
    (0#n ++ maskOf f).getLsbD j = true ↔ ∃ p : PlaneId, j = p.val ∧ f p = true := by
  rw [← maskOf_bit, BitVec.getLsbD_append]
  by_cases hj : j < 6
  · simp [hj]
  · simp [hj, BitVec.getLsbD_of_ge (maskOf f) j (by omega)]

/-- A plane mask in the low byte of a register: its own bits, and above them those of the other bytes. -/
theorem append_byte_maskOf_bit {n : Nat} (x : BitVec n) (f : PlaneId → Bool) (j : Nat) :
    (x ++ 0#2 ++ maskOf f).getLsbD j = true ↔
      (∃ p : PlaneId, j = p.val ∧ f p = true) ∨ ∃ i, j = 8 + i ∧ x.getLsbD i = true := by
  rw [← maskOf_bit, BitVec.getLsbD_append, BitVec.getLsbD_append]
  rcases Nat.lt_or_ge j 8 with hj | hj
  · have hup : ¬ ∃ i, j = 8 + i ∧ x.getLsbD i = true := by rintro ⟨i, rfl, -⟩; omega
    by_cases hlow : j < 6
    · simp [hlow, hup]
    · simp [hlow, hup, show j - 6 < 2 by omega, BitVec.getLsbD_of_ge (maskOf f) j (by omega)]
  · obtain ⟨i, rfl⟩ := Nat.exists_eq_add_of_le hj
    simp [show ¬ 8 + i < 6 by omega, show ¬ 8 + i - 6 < 2 by omega, show 8 + i - 6 - 2 = i by omega,
      BitVec.getLsbD_of_ge (maskOf f) (8 + i) (by omega)]

theorem tagsReg_bit (s : State) (n : Nat) :
    s.tagsReg.getLsbD n = true ↔ ∃ (b : BankId) (p : PlaneId), n = 8 * b.val + p.val ∧ s.tagAt b p = .zz := by
  simp only [State.tagsReg, Bank.tagMask, append_byte_maskOf_bit, zeros_append_maskOf_bit, beq_iff_eq,
    Fin.exists_fin_two, State.tagAt]
  simp

theorem validReg_bit (k : Bank) (n : Nat) :
    k.validReg.getLsbD n = true ↔
      ∃ p : PlaneId, (n = p.val ∧ ∀ i : ElemId, (k.sb[p][i]).isSome) ∨ (n = 8 + p.val ∧ ∀ i : ElemId, (k.fb[p][i]).isSome) ∨
        (n = 16 + p.val ∧ ∀ i : ElemId, (k.qb[p][i]).isSome) := by
  simp only [Bank.validReg, append_byte_maskOf_bit, zeros_append_maskOf_bit, planeFull_iff, exists_or]
  constructor
  · rintro (h | ⟨_, rfl, ⟨p, rfl, hp⟩ | ⟨_, rfl, p, rfl, hp⟩⟩)
    · exact .inl h
    · exact .inr (.inl ⟨p, rfl, hp⟩)
    · exact .inr (.inr ⟨p, by omega, hp⟩)
  · rintro (h | ⟨p, rfl, hp⟩ | ⟨p, rfl, hp⟩)
    · exact .inl h
    · exact .inr ⟨p.val, rfl, .inl ⟨p, rfl, hp⟩⟩
    · exact .inr ⟨8 + p.val, by omega, .inr ⟨p.val, rfl, p, rfl, hp⟩⟩

/-! ### The register numbers -/

theorem regRead_reserved (s : State) {k : Nat} (hk : 19 ≤ k) : s.regRead k = 0 := by
  obtain ⟨j, rfl⟩ := Nat.exists_eq_add_of_le' hk
  rfl

theorem spaceRead_reg (s : State) {k : Nat} (hk : k < 256) : s.spaceRead .reg k = some ((s.regRead k).setWidth 64) :=
  if_pos hk

/-- `err_irq` is bit 1 of `STATUS` (60_exceptions.md R280). -/
theorem errIrq_eq (s : State) : s.errIrq = (s.regRead 1).getLsbD 1 := by
  simp only [State.errIrq, State.regRead, State.statusReg, BitVec.getLsbD_append]
  simp

/-- Settles O60, number by number: registers of fields, plain registers, the views, the reserved numbers. -/
theorem registersRead : Obligations.RegistersRead := by
  intro s
  have plain : ∀ {n : Nat} (v : BitVec n), n ≤ 32 → (v.setWidth 32).toNat = v.toNat := fun v h =>
    BitVec.toNat_setWidth_of_le h
  refine ⟨rfl, statusReg_toNat s, rfl, errinfoReg_toNat s, plain s.wreq (by decide), plain s.hreq (by decide),
    plain s.w (by decide), plain s.h (by decide), mbposReg_toNat s, plain s.quant (by decide), rfl, rfl, ?cbp, rfl, rfl,
    tagsReg_bit s, ?valid, fun _ => regRead_reserved s, fun _ => spaceRead_reg s, errIrq_eq s⟩
  case cbp => exact Fin.forall_fin_two.2 ⟨plain (s.cbpAt 0) (by decide), plain (s.cbpAt 1) (by decide)⟩
  case valid => exact Fin.forall_fin_two.2 ⟨validReg_bit (s.bank 0), validReg_bit (s.bank 1)⟩

end Sys2Proof.Machine
end

section
/-! PROOF. What a host access through the spaces does: a write changes the element it addresses, and with it the tag of an
`FB` plane, and a read changes nothing of the block (20_memory.md R62, R63, 10_state.md R32, R36). -/

namespace Sys2Proof.Machine

/-! ### The step of an access, and a read -/

@[simp] theorem spaceSize_popAccess (s : State) (rest : List HostStep) (sp : Space) :
    (s.popAccess rest).spaceSize sp = s.spaceSize sp := by
  cases sp <;> rfl

@[simp] theorem regRead_popAccess (s : State) (rest : List HostStep) (k : Nat) :
    (s.popAccess rest).regRead k = s.regRead k := rfl

theorem stepWith_memRead {s : State} {sp : Space} {i : Nat} {rest : List HostStep} (h : s.pending = .memRead sp i :: rest)
    (m : BusMap) : stepWith m s = .next (memRead sp i (s.popAccess rest)) := by
  simp only [stepWith, h, hostAccess]

theorem memRead_hostData {s : State} {sp : Space} {i : Nat} {v : BitVec 64} (h : s.spaceRead sp i = some v) :
    (memRead sp i s).hostData = v := by
  simp only [memRead, h]

/-- Settles O58: the element by `memRead`, all else by its frame. -/
theorem hostReadHasNoSideEffect : Obligations.HostReadHasNoSideEffect := by
  intro s sp i rest h
  refine ⟨_, stepWith_memRead h defaultBusMap, fun v hv => memRead_hostData ?_, memRead_frame sp i (s.popAccess rest)⟩
  rw [spaceRead_popAccess, hv]

/-! ### One bank written (10_state.md R37) -/

/-- A bank write that keeps a part of the bank keeps that part of both banks. -/
theorem setBank_keeps {α : Type} (part : Bank → α) {s : State} {b : BankId} {k : Bank} (hk : part k = part (s.bank b))
    (b' : BankId) : part ((s.setBank b k).bank b') = part (s.bank b') := by
  by_cases hb : b' = b
  · rw [hb, bank_setBank_same, hk]
  · rw [bank_setBank_other _ _ _ _ hb]

/-- A vector with one entry replaced, at an index of the bounded type. -/
theorem vector_set_get {α : Type} {n : Nat} (v : Vector α n) (p q : Fin n) (x : α) :
    (v.set p x)[q] = if q = p then x else v[q] := by
  simp [Vector.getElem_set, Fin.ext_iff, eq_comm]

/-- A bank write that replaces one entry of a part of the bank: the entry is new, the others of both banks are kept. -/
theorem setBank_set {α : Type} {n : Nat} (part : Bank → Vector α n) {s : State} {b : BankId} {k : Bank} {p : Fin n} {x : α}
    (hk : part k = (part (s.bank b)).set p x) (b' : BankId) (q : Fin n) :
    (part ((s.setBank b k).bank b'))[q] = if b' = b ∧ q = p then x else (part (s.bank b'))[q] := by
  by_cases hb : b' = b
  · rw [hb, bank_setBank_same, hk, vector_set_get]
    simp only [true_and]
  · rw [bank_setBank_other _ _ _ _ hb, if_neg fun ⟨h, _⟩ => hb h]

/-- The same for one element of a plane. -/
theorem setBank_setElem {n : Nat} (buf : Bank → Vector (Plane n) 6) {s : State} {b : BankId} {k : Bank} {p : PlaneId}
    {e : ElemId} {x : Option (BitVec n)} (hk : buf k = (buf (s.bank b)).set p ((buf (s.bank b))[p].set e x)) (b' : BankId)
    (q : PlaneId) (j : ElemId) :
    (buf ((s.setBank b k).bank b'))[q][j] = if b' = b ∧ q = p ∧ j = e then x else (buf (s.bank b'))[q][j] := by
  rw [setBank_set buf hk]
  by_cases hplane : b' = b ∧ q = p
  · obtain ⟨rfl, rfl⟩ := hplane
    simp only [and_self, true_and, if_true, vector_set_get]
  · rw [if_neg hplane, if_neg fun ⟨hb, hq, _⟩ => hplane ⟨hb, hq⟩]

/-! ### What each part of the state is after a host write inside its space (20_memory.md R62) -/

section
variable {sp : Space} {i : Nat} {s : State}

theorem sbAt_memWrite (hi : i < s.spaceSize sp) (v : BitVec 64) (b : BankId) (p : PlaneId) (e : ElemId) :
    (memWrite sp i v s).sbAt b p e =
      if sp = .sb ∧ b = blockBank i ∧ p = blockPlane i ∧ e = blockElem i then some v else s.sbAt b p e := by
  unfold memWrite
  rw [if_pos hi]
  cases sp with
  | sb => simp only [true_and]; exact setBank_setElem Bank.sb rfl b p e
  | fb | qb => exact congrArg (·[p][e]) (setBank_keeps Bank.sb (by rfl) b)
  | _ => rfl

theorem fbAt_memWrite (hi : i < s.spaceSize sp) (v : BitVec 64) (b : BankId) (p : PlaneId) (e : ElemId) :
    (memWrite sp i v s).fbAt b p e =
      if sp = .fb ∧ b = blockBank i ∧ p = blockPlane i ∧ e = blockElem i then some v else s.fbAt b p e := by
  unfold memWrite
  rw [if_pos hi]
  cases sp with
  | fb => simp only [true_and]; exact setBank_setElem Bank.fb rfl b p e
  | sb | qb => exact congrArg (·[p][e]) (setBank_keeps Bank.fb (by rfl) b)
  | _ => rfl

theorem qbAt_memWrite (hi : i < s.spaceSize sp) (v : BitVec 64) (b : BankId) (p : PlaneId) (e : ElemId) :
    (memWrite sp i v s).qbAt b p e =
      if sp = .qb ∧ b = blockBank i ∧ p = blockPlane i ∧ e = blockElem i then some (v.setWidth 16) else s.qbAt b p e := by
  unfold memWrite
  rw [if_pos hi]
  cases sp with
  | qb => simp only [true_and]; exact setBank_setElem Bank.qb rfl b p e
  | sb | fb => exact congrArg (·[p][e]) (setBank_keeps Bank.qb (by rfl) b)
  | _ => rfl

/-- A host write of `FB` tags its plane `NAT` (10_state.md R36). -/
theorem tagAt_memWrite (hi : i < s.spaceSize sp) (v : BitVec 64) (b : BankId) (p : PlaneId) :
    (memWrite sp i v s).tagAt b p = if sp = .fb ∧ b = blockBank i ∧ p = blockPlane i then .nat else s.tagAt b p := by
  unfold memWrite
  rw [if_pos hi]
  cases sp with
  | fb => simp only [true_and]; exact setBank_set Bank.fbord rfl b p
  | sb | qb => exact congrArg (·[p]) (setBank_keeps Bank.fbord (by rfl) b)
  | _ => rfl

/-- A host write of `QB` leaves the coded flags as they are (20_memory.md R63). -/
theorem cbpAt_memWrite (hi : i < s.spaceSize sp) (v : BitVec 64) (b : BankId) :
    (memWrite sp i v s).cbpAt b = s.cbpAt b := by
  unfold memWrite
  rw [if_pos hi]
  cases sp with
  | sb | fb | qb => exact setBank_keeps Bank.cbp (by rfl) b
  | _ => rfl

theorem src_memWrite (hi : i < s.spaceSize sp) (v : BitVec 64) :
    (memWrite sp i v s).src = if sp = .src then s.src.write i (v.setWidth 32) else s.src := by
  unfold memWrite
  rw [if_pos hi]
  cases sp <;> rfl

theorem cur_memWrite (hi : i < s.spaceSize sp) (v : BitVec 64) :
    (memWrite sp i v s).cur = if sp = .cur then s.cur.write i (v.setWidth 24) else s.cur := by
  unfold memWrite
  rw [if_pos hi]
  cases sp <;> rfl

theorem ref_memWrite (hi : i < s.spaceSize sp) (v : BitVec 64) :
    (memWrite sp i v s).ref = if sp = .ref then s.ref.write i (v.setWidth 24) else s.ref := by
  unfold memWrite
  rw [if_pos hi]
  cases sp <;> rfl

end

@[simp] theorem bs_memWrite (sp : Space) (i : Nat) (v : BitVec 64) (s : State) : (memWrite sp i v s).bs = s.bs := by
  rw [memWrite_frame]

@[simp] theorem spaceSize_memWrite (sp : Space) (i : Nat) (v : BitVec 64) (s : State) (sp' : Space) :
    (memWrite sp i v s).spaceSize sp' = s.spaceSize sp' := by
  rw [memWrite_frame]
  cases sp' <;> rfl

/-- Writes to `REG` and `BS` and outside a space change nothing (20_memory.md R62). -/
theorem memWrite_refused {sp : Space} {i : Nat} {s : State} (h : sp = .reg ∨ sp = .bs ∨ s.spaceSize sp ≤ i)
    (v : BitVec 64) : memWrite sp i v s = s := by
  unfold memWrite
  split
  next hi =>
    obtain rfl | rfl | hout := h
    · rfl
    · rfl
    · exact absurd hi (Nat.not_lt.2 hout)
  next => rfl

/-! ### The elements of the spaces (20_memory.md R60) -/

/-- Bank, plane and element together tell the indexes of a block-buffer space apart. -/
theorem block_address_inj {i j : Nat} (hi : i < blockSize) (hj : j < blockSize)
    (h : blockBank j = blockBank i ∧ blockPlane j = blockPlane i ∧ blockElem j = blockElem i) : j = i := by
  obtain ⟨hbank, hplane, helem⟩ := h
  simp only [blockBank, blockPlane, blockElem, Fin.ofNat, Fin.mk.injEq] at hbank hplane helem
  simp only [blockSize] at hi hj
  omega

/-- Another element than the written one differs in its space or, inside a block buffer, in its bank, plane or element. -/
theorem not_addressed_of_ne {s : State} {sp sp' : Space} {i j : Nat} (hi : i < s.spaceSize sp) (hj : j < s.spaceSize sp')
    (hsize : s.spaceSize sp' = blockSize) (hne : (sp', j) ≠ (sp, i)) :
    ¬ (sp = sp' ∧ blockBank j = blockBank i ∧ blockPlane j = blockPlane i ∧ blockElem j = blockElem i) := by
  rintro ⟨rfl, haddr⟩
  rw [hsize] at hi hj
  exact hne (congrArg _ (block_address_inj hi hj haddr))

/-- A frame memory after a host write, at another element than the written one. -/
theorem read_ite_write_other {n : Nat} (m : FrameMem n) {sp sp' : Space} {i j : Nat} (hne : (sp', j) ≠ (sp, i)) (x : BitVec n) :
    (if sp = sp' then m.write i x else m).read j = m.read j := by
  split
  next hsp =>
    subst hsp
    exact read_write_other m i j x fun hj => hne (congrArg _ hj)
  next => rfl

/-- A value stored at the element width reads as the value cut to that width. -/
theorem cutTo_eq_setWidth (sp : Space) (v : BitVec 64) : cutTo sp v = (v.setWidth (spaceWidth sp)).setWidth 64 := by
  apply BitVec.eq_of_toNat_eq
  simp [cutTo]

/-- The written element. -/
theorem element_memWrite_same {s : State} {sp : Space} {i : Nat} (hi : i < s.spaceSize sp) (hreg : sp ≠ .reg)
    (hbs : sp ≠ .bs) (v : BitVec 64) : (memWrite sp i v s).element sp i = some (cutTo sp v) := by
  rw [cutTo_eq_setWidth]
  cases sp with
  | reg => exact absurd rfl hreg
  | bs => exact absurd rfl hbs
  | sb => simp [State.element, sbAt_memWrite hi, spaceWidth]
  | fb => simp [State.element, fbAt_memWrite hi, spaceWidth]
  | qb => simp [State.element, qbAt_memWrite hi, spaceWidth]
  | src => simp [State.element, src_memWrite hi, spaceWidth]
  | cur => simp [State.element, cur_memWrite hi, spaceWidth]
  | ref => simp [State.element, ref_memWrite hi, spaceWidth]

/-- Every other element; `REG` is left out because its views follow the block buffers (10_state.md R32). -/
theorem element_memWrite_other {s : State} {sp sp' : Space} {i j : Nat} (hi : i < s.spaceSize sp)
    (hj : j < s.spaceSize sp') (hreg : sp' ≠ .reg) (hne : (sp', j) ≠ (sp, i)) (v : BitVec 64) :
    (memWrite sp i v s).element sp' j = s.element sp' j := by
  cases sp' with
  | reg => exact absurd rfl hreg
  | sb => exact (sbAt_memWrite hi v _ _ _).trans (if_neg (not_addressed_of_ne hi hj rfl hne))
  | fb => exact (fbAt_memWrite hi v _ _ _).trans (if_neg (not_addressed_of_ne hi hj rfl hne))
  | qb => simp only [State.element, qbAt_memWrite hi, if_neg (not_addressed_of_ne hi hj rfl hne)]
  | src => simp only [State.element, src_memWrite hi, read_ite_write_other _ hne]
  | cur => simp only [State.element, cur_memWrite hi, read_ite_write_other _ hne]
  | ref => simp only [State.element, ref_memWrite hi, read_ite_write_other _ hne]
  | bs => simp only [State.element, bs_memWrite]

theorem spaceRead_memWrite_same {s : State} {sp : Space} {i : Nat} (hi : i < s.spaceSize sp) (hreg : sp ≠ .reg)
    (hbs : sp ≠ .bs) (v : BitVec 64) : (memWrite sp i v s).spaceRead sp i = some (cutTo sp v) := by
  rw [State.spaceRead, spaceSize_memWrite, if_pos hi, element_memWrite_same hi hreg hbs]

theorem spaceRead_memWrite_other {s : State} {sp sp' : Space} {i j : Nat} (hi : i < s.spaceSize sp) (hreg : sp' ≠ .reg)
    (hne : (sp', j) ≠ (sp, i)) (v : BitVec 64) : (memWrite sp i v s).spaceRead sp' j = s.spaceRead sp' j := by
  rw [State.spaceRead, State.spaceRead, spaceSize_memWrite]
  split
  next hj => exact element_memWrite_other hi hj hreg hne v
  next => rfl

/-- The registers but the views of the tags and of the written elements read, of the buffers and memories, only the coded
flags (10_state.md R30, R32). -/
theorem regRead_of_cbp_eq (s : State) (banks : Vector Bank 2) (src : FrameMem 32) (cur ref : FrameMem 24)
    (hcbp : ∀ b : BankId, banks[b].cbp = (s.bank b).cbp) {k : Nat}
    (htags : k ≠ 16) (hvalid0 : k ≠ 17) (hvalid1 : k ≠ 18) :
    ({ s with banks := banks, src := src, cur := cur, ref := ref } : State).regRead k = s.regRead k := by
  match k with
  | 12 => exact congrArg (BitVec.setWidth 32) (hcbp 0)
  | 13 => exact congrArg (BitVec.setWidth 32) (hcbp 1)
  | 16 => exact absurd rfl htags
  | 17 => exact absurd rfl hvalid0
  | 18 => exact absurd rfl hvalid1
  | 0 | 1 | 2 | 3 | 4 | 5 | 6 | 7 | 8 | 9 | 10 | 11 | 14 | 15 =>
    simp only [State.regRead, State.statusReg, State.errinfoReg, State.mbposReg]
  | _ + 19 => rw [regRead_reserved _ (by omega), regRead_reserved _ (by omega)]

theorem regRead_memWrite {s : State} {sp : Space} {i k : Nat} (hi : i < s.spaceSize sp) (v : BitVec 64) (htags : k ≠ 16)
    (hvalid0 : k ≠ 17) (hvalid1 : k ≠ 18) : (memWrite sp i v s).regRead k = s.regRead k := by
  rw [memWrite_frame]
  exact regRead_of_cbp_eq s _ _ _ _ (cbpAt_memWrite hi v) htags hvalid0 hvalid1

/-! ### The write, as one statement -/

/-- Settles O57: each clause is the law of one part of the state after `memWrite`. -/
theorem hostWritesOneElement : Obligations.HostWritesOneElement := by
  intro s sp i v rest h
  have hstep : step s = .next (memWrite sp i v (s.popAccess rest)) := stepWith_memWrite h defaultBusMap
  refine ⟨fun hreg hbs hi => ?inside, fun hout => ?refused⟩
  case inside =>
    rw [← spaceSize_popAccess s rest] at hi
    refine ⟨_, hstep, spaceRead_memWrite_same hi hreg hbs v, fun sp' j hreg' hne => ?_, tagAt_memWrite hi v,
      fun k htags hvalid0 hvalid1 => ?_, memWrite_frame sp i v (s.popAccess rest)⟩
    · rw [spaceRead_memWrite_other hi hreg' hne, spaceRead_popAccess]
    · rw [regRead_memWrite hi v htags hvalid0 hvalid1, regRead_popAccess]
  case refused =>
    rw [← spaceSize_popAccess s rest] at hout
    rw [hstep, memWrite_refused hout, State.popAccess]

end Sys2Proof.Machine
end

section
/-! PROOF. The encoding (30_encoding.md): a word decodes to a command exactly when it is the command's encoding, and the
legal words of the format table are the encodings of the commands (R92, R94, R95); and every step ends in a next state. -/

namespace Sys2Proof.Machine

/-! ### Fields side by side: a word is the concatenation of its fields (30_encoding.md R90) -/

theorem append_eq_append_iff {m n : Nat} {a c : BitVec m} {b d : BitVec n} : a ++ b = c ++ d ↔ a = c ∧ b = d := by
  refine ⟨fun h => ⟨?_, ?_⟩, fun ⟨hhi, hlo⟩ => hhi ▸ hlo ▸ rfl⟩
  · simpa only [BitVec.extractLsb'_append_eq_left] using congrArg (BitVec.extractLsb' n m) h
  · simpa only [BitVec.extractLsb'_append_eq_right] using congrArg (BitVec.extractLsb' 0 n) h

theorem extract_eq_append_iff (w : Word) (lo : Nat) {m n : Nat} (a : BitVec m) (b : BitVec n) :
    w.extractLsb' lo (m + n) = a ++ b ↔ w.extractLsb' (lo + n) m = a ∧ w.extractLsb' lo n = b := by
  rw [← BitVec.extractLsb'_append_extractLsb'_eq_extractLsb' rfl, append_eq_append_iff]

theorem extract_and_eq_append_iff (w : Word) (lo : Nat) {m n : Nat} (c a : BitVec m) (d b : BitVec n) :
    w.extractLsb' lo (m + n) &&& (c ++ d) = a ++ b ↔
      w.extractLsb' (lo + n) m &&& c = a ∧ w.extractLsb' lo n &&& d = b := by
  rw [← BitVec.extractLsb'_append_extractLsb'_eq_extractLsb' rfl, BitVec.and_append, append_eq_append_iff]

theorem opcodeOf_eq_toNat_iff (w : Word) (op : BitVec 8) : opcodeOf w = op.toNat ↔ w.extractLsb' 24 8 = op :=
  BitVec.toNat_inj

theorem extract_bit (w : Word) (n : Nat) : w.extractLsb' n 1 = BitVec.ofBool (w.getLsbD n) := by
  simp [BitVec.eq_of_getLsbD_eq_iff]

theorem extract_eq_bankBit_iff (w : Word) (b : BankId) : w.extractLsb' 23 1 = bankBit b ↔ fieldBank w = b := by
  rw [extract_bit, fieldBank]
  generalize w.getLsbD 23 = bit
  revert bit b
  decide

theorem extract_eq_dc_iff (w : Word) (dc : Bool) : w.extractLsb' 0 1 = BitVec.ofBool dc ↔ fieldDc w = dc := by
  rw [extract_bit, fieldDc]
  generalize w.getLsbD 0 = bit
  revert bit dc
  decide

theorem extract_eq_modeBit_iff (w : Word) (mode : ReconMode) : w.extractLsb' 0 1 = modeBit mode ↔ fieldMode w = mode := by
  rw [extract_bit, fieldMode]
  cases w.getLsbD 0 <;> cases mode <;> decide

/-! ### A mask of R94 asks for the opcode and the must-be-zero bits of the format (R92) -/

section Formats
variable (w : Word) (op : BitVec 8)

theorem and_maskZ_eq_iff : w &&& 0xFFFFFFFF = op ++ 0#24 ↔ opcodeOf w = op.toNat ∧ formatZ w = true := by
  have cut := extract_and_eq_append_iff w 0 (BitVec.allOnes 8) op (BitVec.allOnes 24) 0#24
  simp only [BitVec.and_allOnes, BitVec.extractLsb'_eq_self] at cut
  simpa [opcodeOf_eq_toNat_iff, formatZ, zeroBits] using cut

theorem and_maskI16_eq_iff : w &&& 0xFFFF0000 = op ++ 0#24 ↔ opcodeOf w = op.toNat ∧ formatI16 w = true := by
  have cut := extract_and_eq_append_iff w 0 (BitVec.allOnes 8) op (BitVec.allOnes 8 ++ 0#16) (0#8 ++ 0#16)
  simp only [extract_and_eq_append_iff, BitVec.and_allOnes, BitVec.and_zero, BitVec.extractLsb'_eq_self] at cut
  simpa [opcodeOf_eq_toNat_iff, formatI16, zeroBits] using cut

theorem and_maskI5_eq_iff : w &&& 0xFFFFFFE0 = op ++ 0#24 ↔ opcodeOf w = op.toNat ∧ formatI5 w = true := by
  have cut := extract_and_eq_append_iff w 0 (BitVec.allOnes 8) op (BitVec.allOnes 19 ++ 0#5) (0#19 ++ 0#5)
  simp only [extract_and_eq_append_iff, BitVec.and_allOnes, BitVec.and_zero, BitVec.extractLsb'_eq_self] at cut
  simpa [opcodeOf_eq_toNat_iff, formatI5, zeroBits] using cut

theorem and_maskXY_eq_iff : w &&& 0xFF000000 = op ++ 0#24 ↔ opcodeOf w = op.toNat := by
  have cut := extract_and_eq_append_iff w 0 (BitVec.allOnes 8) op 0#24 0#24
  simp only [BitVec.and_allOnes, BitVec.and_zero, BitVec.extractLsb'_eq_self] at cut
  simpa [opcodeOf_eq_toNat_iff] using cut

theorem and_maskB_eq_iff : w &&& 0xFF40FFFF = op ++ 0#24 ↔ opcodeOf w = op.toNat ∧ formatB w = true := by
  have cut := extract_and_eq_append_iff w 0 (BitVec.allOnes 8) op
    (0#1 ++ (BitVec.allOnes 1 ++ (0#6 ++ BitVec.allOnes 16))) (0#1 ++ (0#1 ++ (0#6 ++ 0#16)))
  simp only [extract_and_eq_append_iff, BitVec.and_allOnes, BitVec.and_zero, BitVec.extractLsb'_eq_self] at cut
  simpa [opcodeOf_eq_toNat_iff, formatB, zeroBits] using cut

theorem and_maskBD_eq_iff : w &&& 0xFF40FFFE = op ++ 0#24 ↔ opcodeOf w = op.toNat ∧ formatBD w = true := by
  have cut := extract_and_eq_append_iff w 0 (BitVec.allOnes 8) op
    (0#1 ++ (BitVec.allOnes 1 ++ (0#6 ++ (BitVec.allOnes 15 ++ 0#1)))) (0#1 ++ (0#1 ++ (0#6 ++ (0#15 ++ 0#1))))
  simp only [extract_and_eq_append_iff, BitVec.and_allOnes, BitVec.and_zero, BitVec.extractLsb'_eq_self] at cut
  simpa [opcodeOf_eq_toNat_iff, formatBD, zeroBits] using cut

theorem and_maskE_eq_iff (src : BitVec 2) : w &&& 0xFF7FFFFF = op ++ (0#1 ++ (0#21 ++ src)) ↔
    opcodeOf w = op.toNat ∧ zeroBits w 2 21 = true ∧ w.extractLsb' 0 2 = src := by
  have cut := extract_and_eq_append_iff w 0 (BitVec.allOnes 8) op
    (0#1 ++ (BitVec.allOnes 21 ++ BitVec.allOnes 2)) (0#1 ++ (0#21 ++ src))
  simp only [extract_and_eq_append_iff, BitVec.and_allOnes, BitVec.and_zero, BitVec.extractLsb'_eq_self] at cut
  simpa [opcodeOf_eq_toNat_iff, zeroBits] using cut

theorem and_maskR_eq_iff : w &&& 0xFF7FFFFE = op ++ 0#24 ↔ opcodeOf w = op.toNat ∧ formatR w = true := by
  have cut := extract_and_eq_append_iff w 0 (BitVec.allOnes 8) op
    (0#1 ++ (BitVec.allOnes 22 ++ 0#1)) (0#1 ++ (0#22 ++ 0#1))
  simp only [extract_and_eq_append_iff, BitVec.and_allOnes, BitVec.and_zero, BitVec.extractLsb'_eq_self] at cut
  simpa [opcodeOf_eq_toNat_iff, formatR, zeroBits] using cut

/-! ### A word is the word of its own fields exactly when it matches its format's mask

Each equation is read off by cutting both sides at the bounds of the fields. -/

theorem eq_wordZ_iff : w = wordZ op ↔ w &&& 0xFFFFFFFF = op ++ 0#24 := by
  have cut := extract_eq_append_iff w 0 op 0#24
  simp only [BitVec.extractLsb'_eq_self] at cut
  rw [wordZ, cut, and_maskZ_eq_iff, opcodeOf_eq_toNat_iff]
  simp [formatZ, zeroBits]

theorem eq_wordI16_iff (imm16 : BitVec 16) : w = wordI16 op imm16 ↔
    w &&& 0xFFFF0000 = op ++ 0#24 ∧ fieldImm16 w = imm16 := by
  have cut := extract_eq_append_iff w 0 (op ++ 0#8) imm16
  simp only [extract_eq_append_iff, BitVec.extractLsb'_eq_self] at cut
  rw [wordI16, cut, and_maskI16_eq_iff, opcodeOf_eq_toNat_iff]
  simp [formatI16, zeroBits, fieldImm16]

theorem eq_wordI5_iff (q : BitVec 5) : w = wordI5 op q ↔ w &&& 0xFFFFFFE0 = op ++ 0#24 ∧ fieldQ w = q := by
  have cut := extract_eq_append_iff w 0 (op ++ 0#19) q
  simp only [extract_eq_append_iff, BitVec.extractLsb'_eq_self] at cut
  rw [wordI5, cut, and_maskI5_eq_iff, opcodeOf_eq_toNat_iff]
  simp [formatI5, zeroBits, fieldQ]

theorem eq_wordXY_iff (x y : BitVec 12) : w = wordXY op x y ↔
    w &&& 0xFF000000 = op ++ 0#24 ∧ fieldX w = x ∧ fieldY w = y := by
  have cut := extract_eq_append_iff w 0 (op ++ x) y
  simp only [extract_eq_append_iff, BitVec.extractLsb'_eq_self] at cut
  rw [wordXY, cut, and_maskXY_eq_iff, opcodeOf_eq_toNat_iff]
  simp [fieldX, fieldY, and_assoc]

theorem eq_wordE_iff (b : BankId) (src : BitVec 2) : w = wordE op b src ↔
    w &&& 0xFF7FFFFF = op ++ (0#1 ++ (0#21 ++ src)) ∧ fieldBank w = b := by
  have cut := extract_eq_append_iff w 0 (op ++ bankBit b ++ 0#21) src
  simp only [extract_eq_append_iff, BitVec.extractLsb'_eq_self] at cut
  rw [wordE, cut, and_maskE_eq_iff, opcodeOf_eq_toNat_iff, ← extract_eq_bankBit_iff]
  simp [zeroBits, and_assoc, and_comm]

theorem eq_wordB_iff (b : BankId) (m : PlaneMask) : w = wordB op b m ↔
    w &&& 0xFF40FFFF = op ++ 0#24 ∧ fieldBank w = b ∧ fieldMask w = m := by
  have cut := extract_eq_append_iff w 0 (op ++ bankBit b ++ 0#1 ++ m) 0#16
  simp only [extract_eq_append_iff, BitVec.extractLsb'_eq_self] at cut
  rw [wordB, cut, and_maskB_eq_iff, opcodeOf_eq_toNat_iff, ← extract_eq_bankBit_iff]
  simp [formatB, zeroBits, fieldMask, and_assoc, and_comm, and_left_comm]

theorem eq_wordBD_iff (b : BankId) (m : PlaneMask) (dc : Bool) : w = wordBD op b m dc ↔
    w &&& 0xFF40FFFE = op ++ 0#24 ∧ fieldBank w = b ∧ fieldMask w = m ∧ fieldDc w = dc := by
  have cut := extract_eq_append_iff w 0 (op ++ bankBit b ++ 0#1 ++ m ++ 0#15) (BitVec.ofBool dc)
  simp only [extract_eq_append_iff, BitVec.extractLsb'_eq_self] at cut
  rw [wordBD, cut, and_maskBD_eq_iff, opcodeOf_eq_toNat_iff, ← extract_eq_bankBit_iff, ← extract_eq_dc_iff]
  simp [formatBD, zeroBits, fieldMask, and_assoc, and_comm, and_left_comm]

theorem eq_wordR_iff (b : BankId) (mode : ReconMode) : w = wordR op b mode ↔
    w &&& 0xFF7FFFFE = op ++ 0#24 ∧ fieldBank w = b ∧ fieldMode w = mode := by
  have cut := extract_eq_append_iff w 0 (op ++ bankBit b ++ 0#22) (modeBit mode)
  simp only [extract_eq_append_iff, BitVec.extractLsb'_eq_self] at cut
  rw [wordR, cut, and_maskR_eq_iff, opcodeOf_eq_toNat_iff, ← extract_eq_bankBit_iff, ← extract_eq_modeBit_iff]
  simp [formatR, zeroBits, and_assoc, and_left_comm]

end Formats

/-! ### The opcode map (30_encoding.md R94, R101) -/

/-- Any two rows conflict: their patterns differ in a bit that both masks keep. -/
theorem opcodeMap_conflict : ∀ j k : Fin opcodeMap.length, j ≠ k →
    opcodeMap[j].mask &&& opcodeMap[k].mask &&& (opcodeMap[j].pattern ^^^ opcodeMap[k].pattern) ≠ 0 := by
  decide

theorem conflict_eq_zero {r r' : OpcodeRow} {w : Word} (h : r.matchesWord w = true) (h' : r'.matchesWord w = true) :
    r.mask &&& r'.mask &&& (r.pattern ^^^ r'.pattern) = 0 := by
  rw [OpcodeRow.matchesWord, beq_iff_eq] at h h'
  rw [← h, ← h']
  ext j hj
  simp only [BitVec.getElem_and, BitVec.getElem_xor, BitVec.ofNat_eq_ofNat, BitVec.getElem_zero]
  cases r.mask[j] <;> cases r'.mask[j] <;> simp

theorem row_unique {r r' : OpcodeRow} {w : Word} (hr : r ∈ opcodeMap) (hr' : r' ∈ opcodeMap)
    (h : r.matchesWord w = true) (h' : r'.matchesWord w = true) : r = r' := by
  obtain ⟨j, rfl⟩ := List.mem_iff_get.1 hr
  obtain ⟨k, rfl⟩ := List.mem_iff_get.1 hr'
  by_contra hne
  exact opcodeMap_conflict j k (fun hjk => hne (hjk ▸ rfl)) (conflict_eq_zero h h')

/-- Decoding is the relation of R94: some row matches the word and builds the command. -/
theorem decode_eq_some_iff_row {w : Word} {i : Instr} :
    decode w = some i ↔ ∃ r ∈ opcodeMap, r.matchesWord w = true ∧ r.build w = i := by
  rw [decode, Option.map_eq_some_iff]
  constructor
  · rintro ⟨r, hfind, hbuild⟩
    exact ⟨r, List.mem_of_find?_eq_some hfind, by simpa using List.find?_some hfind, hbuild⟩
  · rintro ⟨r, hr, hmatch, hbuild⟩
    obtain ⟨r', hfind⟩ : ∃ r', opcodeMap.find? (fun r => r.matchesWord w) = some r' :=
      Option.isSome_iff_exists.1 (List.find?_isSome.2 ⟨r, hr, hmatch⟩)
    have hmatch' : r'.matchesWord w = true := by simpa using List.find?_some hfind
    exact ⟨r', hfind, row_unique hr (List.mem_of_find?_eq_some hfind) hmatch hmatch' ▸ hbuild⟩

/-- The row of a command is matched by its encoding alone, and builds the command from it. -/
theorem exists_row_iff (i : Instr) (w : Word) :
    (∃ r ∈ opcodeMap, r.matchesWord w = true ∧ r.build w = i) ↔ w = encode i := by
  cases i with
  | nop | create | csc | copymb | frameend | srst => simp [opcodeMap, OpcodeRow.matchesWord, encode, eq_wordZ_iff]
  | setw _ | seth _ => simp [opcodeMap, OpcodeRow.matchesWord, encode, eq_wordI16_iff]
  | setq _ => simp [opcodeMap, OpcodeRow.matchesWord, encode, eq_wordI5_iff]
  | setmb _ _ => simp [opcodeMap, OpcodeRow.matchesWord, encode, eq_wordXY_iff]
  | extractCur _ | extractRef _ | extractDiff _ => simp [opcodeMap, OpcodeRow.matchesWord, encode, eq_wordE_iff]
  | fdct _ _ | zz _ _ | izz _ _ | idct _ _ => simp [opcodeMap, OpcodeRow.matchesWord, encode, eq_wordB_iff]
  | qnt _ _ _ | rlcost _ _ _ | rlemit _ _ _ | dqnt _ _ _ =>
    simp [opcodeMap, OpcodeRow.matchesWord, encode, eq_wordBD_iff]
  | recon _ _ => simp [opcodeMap, OpcodeRow.matchesWord, encode, eq_wordR_iff]

/-- A word decodes to a command exactly when it is the encoding of that command. -/
theorem decode_eq_some_iff {w : Word} {i : Instr} : decode w = some i ↔ w = encode i :=
  decode_eq_some_iff_row.trans (exists_row_iff i w)

/-- Settles O1: `decode_eq_some_iff`, from right to left. -/
theorem decodeOfEncode : Obligations.DecodeOfEncode := fun _ => decode_eq_some_iff.2 rfl

/-- Settles O2: `decode_eq_some_iff`, from left to right. -/
theorem encodeOfDecode : Obligations.EncodeOfDecode := fun _ _ h => (decode_eq_some_iff.1 h).symm

/-! ### The format table (30_encoding.md R95) -/

open Laws in
theorem legalWord_encode (i : Instr) : legalWord (encode i) = true := by
  cases i with
  | nop => exact EncodesLegal.nop.2
  | setw v => exact (EncodesLegal.setw v).2
  | seth v => exact (EncodesLegal.seth v).2
  | setq q => exact (EncodesLegal.setq q).2
  | setmb x y => exact (EncodesLegal.setmb x y).2
  | create => exact EncodesLegal.create.2
  | csc => exact EncodesLegal.csc.2
  | extractCur b => exact (EncodesLegal.extractCur b).2
  | extractRef b => exact (EncodesLegal.extractRef b).2
  | extractDiff b => exact (EncodesLegal.extractDiff b).2
  | fdct b m => exact (EncodesLegal.fdct b m).2
  | zz b m => exact (EncodesLegal.zz b m).2
  | qnt b m dc => exact (EncodesLegal.qnt b m dc).2
  | rlcost b m dc => exact (EncodesLegal.rlcost b m dc).2
  | rlemit b m dc => exact (EncodesLegal.rlemit b m dc).2
  | dqnt b m dc => exact (EncodesLegal.dqnt b m dc).2
  | izz b m => exact (EncodesLegal.izz b m).2
  | idct b m => exact (EncodesLegal.idct b m).2
  | recon b mode => exact (EncodesLegal.recon b mode).2
  | copymb => exact EncodesLegal.copymb.2
  | frameend => exact EncodesLegal.frameend.2
  | srst => exact EncodesLegal.srst.2

section OfFormat
variable {w : Word} (op : BitVec 8) (hop : opcodeOf w = op.toNat)
include hop

theorem eq_wordZ_of_format (h : formatZ w = true) : w = wordZ op :=
  (eq_wordZ_iff w op).2 ((and_maskZ_eq_iff w op).2 ⟨hop, h⟩)

theorem eq_wordI16_of_format (h : formatI16 w = true) : w = wordI16 op (fieldImm16 w) :=
  (eq_wordI16_iff w op _).2 ⟨(and_maskI16_eq_iff w op).2 ⟨hop, h⟩, rfl⟩

theorem eq_wordI5_of_format (h : formatI5 w = true) : w = wordI5 op (fieldQ w) :=
  (eq_wordI5_iff w op _).2 ⟨(and_maskI5_eq_iff w op).2 ⟨hop, h⟩, rfl⟩

theorem eq_wordXY : w = wordXY op (fieldX w) (fieldY w) :=
  (eq_wordXY_iff w op _ _).2 ⟨(and_maskXY_eq_iff w op).2 hop, rfl, rfl⟩

theorem eq_wordE_of_format (h : formatE w = true) :
    ∃ src : BitVec 2, (src = 0 ∨ src = 1 ∨ src = 2) ∧ w = wordE op (fieldBank w) src := by
  have hsrc : ∀ src : BitVec 2, (!(src == 3#2)) = true → src = 0 ∨ src = 1 ∨ src = 2 := by decide
  obtain ⟨hzero, hne⟩ := Bool.and_eq_true_iff.1 h
  exact ⟨_, hsrc _ hne, (eq_wordE_iff w op _ _).2 ⟨(and_maskE_eq_iff w op _).2 ⟨hop, hzero, rfl⟩, rfl⟩⟩

theorem eq_wordB_of_format (h : formatB w = true) : w = wordB op (fieldBank w) (fieldMask w) :=
  (eq_wordB_iff w op _ _).2 ⟨(and_maskB_eq_iff w op).2 ⟨hop, h⟩, rfl, rfl⟩

theorem eq_wordBD_of_format (h : formatBD w = true) : w = wordBD op (fieldBank w) (fieldMask w) (fieldDc w) :=
  (eq_wordBD_iff w op _ _ _).2 ⟨(and_maskBD_eq_iff w op).2 ⟨hop, h⟩, rfl, rfl, rfl⟩

theorem eq_wordR_of_format (h : formatR w = true) : w = wordR op (fieldBank w) (fieldMode w) :=
  (eq_wordR_iff w op _ _).2 ⟨(and_maskR_eq_iff w op).2 ⟨hop, h⟩, rfl, rfl⟩

end OfFormat

/-- Every legal word is a command's encoding, that command named by the opcode. -/
theorem exists_encode_of_legalWord {w : Word} (h : legalWord w = true) : ∃ i, w = encode i := by
  unfold legalWord at h
  split at h
  next hop => exact ⟨.nop, eq_wordZ_of_format 0x00 hop h⟩
  next hop => exact ⟨.setw _, eq_wordI16_of_format 0x01 hop h⟩
  next hop => exact ⟨.seth _, eq_wordI16_of_format 0x02 hop h⟩
  next hop => exact ⟨.setq _, eq_wordI5_of_format 0x03 hop h⟩
  next hop => exact ⟨.setmb _ _, eq_wordXY 0x04 hop⟩
  next hop => exact ⟨.create, eq_wordZ_of_format 0x05 hop h⟩
  next hop => exact ⟨.csc, eq_wordZ_of_format 0x10 hop h⟩
  next hop =>
    obtain ⟨_, rfl | rfl | rfl, hw⟩ := eq_wordE_of_format 0x20 hop h
    · exact ⟨.extractCur _, hw⟩
    · exact ⟨.extractRef _, hw⟩
    · exact ⟨.extractDiff _, hw⟩
  next hop => exact ⟨.fdct _ _, eq_wordB_of_format 0x21 hop h⟩
  next hop => exact ⟨.zz _ _, eq_wordB_of_format 0x22 hop h⟩
  next hop => exact ⟨.qnt _ _ _, eq_wordBD_of_format 0x23 hop h⟩
  next hop => exact ⟨.rlcost _ _ _, eq_wordBD_of_format 0x24 hop h⟩
  next hop => exact ⟨.rlemit _ _ _, eq_wordBD_of_format 0x25 hop h⟩
  next hop => exact ⟨.dqnt _ _ _, eq_wordBD_of_format 0x28 hop h⟩
  next hop => exact ⟨.izz _ _, eq_wordB_of_format 0x29 hop h⟩
  next hop => exact ⟨.idct _ _, eq_wordB_of_format 0x2A hop h⟩
  next hop => exact ⟨.recon _ _, eq_wordR_of_format 0x2B hop h⟩
  next hop => exact ⟨.copymb, eq_wordZ_of_format 0x2C hop h⟩
  next hop => exact ⟨.frameend, eq_wordZ_of_format 0x30 hop h⟩
  next hop => exact ⟨.srst, eq_wordZ_of_format 0x3F hop h⟩
  next => exact absurd h Bool.false_ne_true

theorem legalWord_iff (w : Word) : legalWord w = true ↔ ∃ i, w = encode i :=
  ⟨exists_encode_of_legalWord, fun ⟨i, h⟩ => h ▸ legalWord_encode i⟩

/-- Settles O3: both sides say that the word is a command's encoding. -/
theorem decodeAcceptsExactlyLegalWords : Obligations.DecodeAcceptsExactlyLegalWords := by
  intro w
  rw [Bool.eq_iff_iff, legalWord_iff, Option.isSome_iff_exists]
  exact exists_congr fun _ => decode_eq_some_iff

/-- Settles O4: each pair's word is the encoding of its command, which is also what it decodes to. -/
theorem workedEncodings : Obligations.WorkedEncodings := by
  intro p hp
  have hword : encode p.1 = p.2 := by
    revert p
    decide
  exact ⟨decode_eq_some_iff.2 hword.symm, hword⟩

/-! ### Presented words (R91) -/

theorem presentWord_of_decode {w : Word} {i : Instr} (h : decode w = some i) (s : State) :
    presentWord w s = exec i s := by
  simp only [presentWord, h]

theorem stepWith_command {s : State} {w : Word} {rest : List HostStep} (h : s.pending = .command w :: rest) (m : BusMap) :
    stepWith m s = presentWord w (s.popCommand rest) := by
  simp only [stepWith, h]

/-- Settles O5: the step presents the word, and a word that decodes is performed. -/
theorem stepRunsDecodedCommand : Obligations.StepRunsDecodedCommand := by
  intro s w rest i hpending hdecode
  calc step s = presentWord w (s.popCommand rest) := stepWith_command hpending defaultBusMap
    _ = exec i (s.popCommand rest) := presentWord_of_decode hdecode _

/-! ### Every step ends in a next state -/

theorem exec_next (i : Instr) (s : State) : ∃ t, exec i s = .next t := by
  by_cases hi : i = .srst
  · exact ⟨softReset s, hi ▸ exec_srst s⟩
  · rw [exec_eq_runCommand i hi]
    exact runCommand_next i _ _ s

theorem presentWord_next (w : Word) (s : State) : ∃ t, presentWord w s = .next t := by
  unfold presentWord
  split
  next i _ => exact exec_next i s
  next => exact ⟨_, rfl⟩

theorem stepWith_next (m : BusMap) (s : State) : ∃ t, stepWith m s = .next t := by
  unfold stepWith
  split
  next => exact ⟨s, rfl⟩
  next w rest _ => exact presentWord_next w (s.popCommand rest)
  next => exact ⟨_, rfl⟩

/-- Settles O8: a command is discarded, faults or completes, and each ends in a state. -/
theorem everyStepAnswersNext : Obligations.EveryStepAnswersNext := ⟨exec_next, stepWith_next defaultBusMap⟩

end Sys2Proof.Machine
end

section
/-! PROOF. What the configuration and stream commands set, and what soft reset restores (40_config_commands.md R121 to R129,
10_state.md R44). -/

namespace Sys2Proof.Machine

/-! ### No operation (R121) -/

theorem exec_halted (i : Instr) (hi : i ≠ .srst) (s : State) (h : s.err = true) : exec i s = .next s := by
  rw [exec_eq_runCommand i hi, runCommand_halted _ _ _ _ h]

/-- Settles O25: the words by the encoder; a halted block discards the command, and any other counts it. -/
theorem nopOnlyCounts : Obligations.NopOnlyCounts := by
  refine ⟨rfl, decode_eq_some_iff.2 rfl, fun s => ?_⟩
  split
  next h => exact exec_halted .nop nofun s h
  next h => exact exec_done .nop nofun s (Bool.eq_false_iff.2 h) rfl

/-! ### The requested size (R122, R123) -/

/-- All that `SETW` does: equal values leave `SRC` and the counter of free values as they were. -/
theorem setWreq_eq (v : BitVec 16) (s : State) :
    setWreq v s = { s with
      wreq := v, src := if v = s.wreq then s.src else .unspecified s.nextFree,
      nextFree := if v = s.wreq then s.nextFree else s.nextFree + 1 } := by
  by_cases h : v = s.wreq
  · simp only [setWreq, h, if_true]
  · simp only [setWreq, h, if_false]; rfl

/-- All that `SETH` does. -/
theorem setHreq_eq (v : BitVec 16) (s : State) :
    setHreq v s = { s with
      hreq := v, src := if v = s.hreq then s.src else .unspecified s.nextFree,
      nextFree := if v = s.hreq then s.nextFree else s.nextFree + 1 } := by
  by_cases h : v = s.hreq
  · simp only [setHreq, h, if_true]
  · simp only [setHreq, h, if_false]; rfl

/-- Settles O26: neither command has a check, and the effects are written out. -/
theorem requestedSizeIsSet : Obligations.RequestedSizeIsSet := by
  intro v s h
  constructor
  · rw [exec_done (.setw v) nofun s h rfl, effectOf, setWreq_eq]; rfl
  · rw [exec_done (.seth v) nofun s h rfl, effectOf, setHreq_eq]; rfl

/-! ### The quantizer step and the macroblock position (R124, R125) -/

theorem checkOf_setq_of_ne_zero {q : BitVec 5} (hq : q ≠ 0) (s : State) : checkOf (.setq q) s = none :=
  (require_eq_none _ _).2 (decide_eq_true (one_le_toNat_of_ne_zero q hq))

/-- Settles O27: a step that is not 0 passes the check of `SETQ`, and `SETMB` has none. -/
theorem stepAndPositionAreSet : Obligations.StepAndPositionAreSet := fun s h =>
  ⟨fun q hq => exec_done (.setq q) nofun s h (checkOf_setq_of_ne_zero hq s), fun x y => exec_done (.setmb x y) nofun s h rfl⟩

/-! ### Streams and frames (R127, R128) -/

theorem effectiveDim_eq_ofNat (v : BitVec 16) : effectiveDim v = BitVec.ofNat 16 (v.toNat / 16 * 16) := by
  rw [← effectiveDim_toNat, BitVec.ofNat_toNat, BitVec.setWidth_eq]

/-- Rounding down to a multiple of 16 loses no dimension of 16 or more. -/
theorem le_effectiveDim_iff (v : BitVec 16) : 16 ≤ (effectiveDim v).toNat ↔ 16 ≤ v.toNat := by
  rw [effectiveDim_toNat]
  omega

/-- Settles O28: dimensions of 16 or more pass the check, and a rounded dimension is the obligation's number. -/
theorem createStartsAStream : Obligations.CreateStartsAStream := by
  intro s h hw hh
  have hcheck : checkConfig s = none := (checkConfig_eq_none s).2 ⟨(le_effectiveDim_iff _).2 hw, (le_effectiveDim_iff _).2 hh⟩
  rw [exec_done .create nofun s h hcheck, ← effectiveDim_eq_ofNat, ← effectiveDim_eq_ofNat]
  rfl

/-- Settles O29: after `endFrame` the memory `REF` is the memory `CUR`, so the two read alike. -/
theorem frameEndCopiesCurrent : Obligations.FrameEndCopiesCurrent := fun s h hstream =>
  ⟨_, exec_done .frameend nofun s h (checkStream_of_stream s hstream), fun _ => rfl, BitVec.toNat_add s.frameidx 1, rfl⟩

/-! ### Soft reset (R129, 10_state.md R44) -/

/-- The 19 registers of the reset state one by one; the reserved numbers read zero in any state (10_state.md R21). -/
theorem reset_regRead (k : Nat) : State.reset.regRead k = if k = 0 then 0x47324701 else 0 := by
  have hnamed : ∀ j : Fin 19, State.reset.regRead j = if j.val = 0 then 0x47324701 else 0 := by decide
  by_cases hk : k < 19
  · exact hnamed ⟨k, hk⟩
  · rw [regRead_reserved _ (by omega), if_neg (by omega)]

/-- The registers read nothing of what soft reset keeps, the frame memories and the model's own fields. -/
theorem regRead_softReset (s : State) (k : Nat) : (softReset s).regRead k = State.reset.regRead k := rfl

theorem reset_bank_get (p : PlaneId) (i : ElemId) :
    Bank.reset.sb[p][i] = none ∧ Bank.reset.fb[p][i] = none ∧ Bank.reset.qb[p][i] = none ∧ Bank.reset.fbord[p] = .nat := by
  simp [Bank.reset]

/-- Soft reset leaves every register as in the reset state, and both banks reset. -/
theorem holdsResetValues_softReset (s : State) : (softReset s).holdsResetValues := by
  refine ⟨fun k => ?_, fun b p i => ?_, rfl, rfl⟩
  · rw [regRead_softReset, reset_regRead]
  · simp only [State.sbAt, State.fbAt, State.qbAt, State.tagAt, bank_softReset]
    exact reset_bank_get p i

/-- Settles O30: `SRST` is `softReset`, in a halted state too, and `softReset` keeps the three frame memories. -/
theorem softResetRestores : Obligations.SoftResetRestores := fun s =>
  ⟨softReset s, exec_srst s, holdsResetValues_softReset s, rfl, rfl, rfl⟩

end Sys2Proof.Machine
end

section
/-! PROOF. The colour converter: its three formulas and their ranges, and `CSC` on a whole frame (41_csc.md R141 to R143). -/

namespace Sys2Proof.Machine

/-! ### The linear combinations (R142) -/

/-- The arithmetic shift by 8 is the floor division by 256. -/
theorem cscSum_eq (kr kg kb : Int) (r g b : Nat) : cscSum kr kg kb r g b = (kr * r + kg * g + kb * b) / 256 := by
  rw [cscSum, literals_cscShift, Int.shiftRight_eq_div_pow]
  rfl

theorem cscY_eq (r g b : Nat) : cscY r g b = (77 * r + 150 * g + 29 * b) / 256 := cscSum_eq 77 150 29 r g b

theorem cscU_eq_cscSum (r g b : Nat) : cscU r g b = cscSum (-43) (-85) 128 r g b + 128 := rfl

theorem cscV_eq_cscSum (r g b : Nat) : cscV r g b = cscSum 128 (-107) (-21) r g b + 128 := rfl

theorem cscU_eq (r g b : Nat) : cscU r g b = (-43 * r - 85 * g + 128 * b) / 256 + 128 := by
  rw [cscU_eq_cscSum, cscSum_eq, Int.neg_mul 85, ← sub_eq_add_neg]

theorem cscV_eq (r g b : Nat) : cscV r g b = (128 * r - 107 * g - 21 * b) / 256 + 128 := by
  rw [cscV_eq_cscSum, cscSum_eq, Int.neg_mul 107, Int.neg_mul 21, ← sub_eq_add_neg, ← sub_eq_add_neg]

/-! ### The ranges (R143) -/

/-- The coefficients of `Y` are positive and sum to 256. -/
theorem cscY_range {r g b : Nat} (hr : r ≤ 255) (hg : g ≤ 255) (hb : b ≤ 255) : 0 ≤ cscY r g b ∧ cscY r g b ≤ 255 := by
  rw [cscY_eq]
  omega

/-- In each row of chroma coefficients the positive part is 128 and the negative part sums to -128. -/
theorem chromaSum_range {r g b : Nat} (hr : r ≤ 255) (hg : g ≤ 255) (hb : b ≤ 255) :
    (-128 ≤ cscSum (-43) (-85) 128 r g b ∧ cscSum (-43) (-85) 128 r g b ≤ 127) ∧
      -128 ≤ cscSum 128 (-107) (-21) r g b ∧ cscSum 128 (-107) (-21) r g b ≤ 127 := by
  rw [cscSum_eq, cscSum_eq]
  omega

/-- Settles O33: `U` and `V` are the chroma sums moved up by 128, and the extremes are computed. -/
theorem colourClipsNeverAct : Obligations.ColourClipsNeverAct := by
  refine ⟨fun r g b hr hg hb => ?_, by decide⟩
  obtain ⟨hYlo, hYhi⟩ := cscY_range hr hg hb
  obtain ⟨⟨hUlo, hUhi⟩, hVlo, hVhi⟩ := chromaSum_range hr hg hb
  rw [cscU_eq_cscSum, cscV_eq_cscSum]
  exact ⟨hYlo, hYhi, hUlo, hUhi, hVlo, hVhi, by omega, by omega, by omega, by omega⟩

/-! ### One pixel (R141, R142) -/

theorem clipPixel_range (v : Int) : 0 ≤ clipPixel v ∧ clipPixel v ≤ 255 := by
  rw [clipPixel_eq]
  omega

theorem pixY_convertPixel (v : SrcPixel) :
    (pixY (convertPixel v) : Int) = clipPixel (cscY (srcR v) (srcG v) (srcB v)) :=
  pixY_packPixel _ _ _ (clipPixel_range _).1 (clipPixel_range _).2

theorem pixU_convertPixel (v : SrcPixel) :
    (pixU (convertPixel v) : Int) = clipPixel (cscU (srcR v) (srcG v) (srcB v)) :=
  pixU_packPixel _ _ _ (clipPixel_range _).1 (clipPixel_range _).2

theorem pixV_convertPixel (v : SrcPixel) :
    (pixV (convertPixel v) : Int) = clipPixel (cscV (srcR v) (srcG v) (srcB v)) :=
  pixV_packPixel _ _ _ (clipPixel_range _).1 (clipPixel_range _).2

/-! ### The frame (R141) -/

/-- With a stream, `CSC` completes as `convertFrame`. -/
theorem exec_csc_done (s : State) (h : s.err = false) (hstream : s.stream = true) :
    exec .csc s = .next (countCommand (convertFrame s)) :=
  exec_done .csc nofun s h (checkStream_of_stream s hstream)

/-- Settles O32: `convertFrame` pixel by pixel, each component by its formula, and its frame; counting leaves `CUR`. -/
theorem frameIsConverted : Obligations.FrameIsConverted := by
  intro s h hstream
  refine ⟨_, exec_csc_done s h hstream, fun x y hx hy => ?pixel, convertFrame_read_other s, ?frame⟩
  case pixel =>
    have hpx : (countCommand (convertFrame s)).curPx x y = convertPixel (s.srcPx x y) := convertFrame_curPx s x y hx hy
    rw [hpx, pixY_convertPixel, pixU_convertPixel, pixV_convertPixel, clipPixel_eq, clipPixel_eq, clipPixel_eq,
      cscY_eq, cscU_eq, cscV_eq]
    exact ⟨rfl, rfl, rfl⟩
  case frame =>
    rw [countCommand, convertFrame_frame]

end Sys2Proof.Machine
end

section
/-! PROOF. The block extractor, the block reconstructor and the skip copy: the rounding, the sample of each tile, the
writes of each command, and the round trip (42_block_extract_recon.md R151 to R159). -/

namespace Sys2Proof.Machine

/-! ### The rounding (R157) -/

/-- A value is its floor and a rest below one. -/
theorem f64Floor_bounds (x : F64) : f64Floor x * f64Unit ≤ f64Val x ∧ f64Val x < f64Floor x * f64Unit + f64Unit := by
  have hpos : (0 : Int) < f64Unit := by exact_mod_cast f64Unit_pos
  have hdiv := Int.mul_fdiv_add_fmod (f64Val x) f64Unit
  have hrest := Int.fmod_nonneg_of_pos (f64Val x) hpos
  have hlt := Int.fmod_lt_of_pos (f64Val x) hpos
  rw [mul_comm] at hdiv
  unfold f64Floor
  omega

/-- Settles O37: the floor is taken below the half and the next integer from the half on. -/
theorem roundingIsNearestHalvesUp : Obligations.RoundingIsNearestHalvesUp := by
  intro x _
  obtain ⟨hle, hlt⟩ := f64Floor_bounds x
  unfold f64Round
  split
  case isTrue hbelow => constructor <;> linarith
  case isFalse habove => constructor <;> linarith

/-! ### The samples of a macroblock (R153, R158) -/

/-- The extraction with the tile of a luma plane as an offset: planes 1 and 3 lie right, planes 2 and 3 below. -/
theorem extSample_elemAt (px : Nat → Nat → Pixel) (p : PlaneId) (r c : Fin 8) :
    extSample px p (elemAt r c) =
      if p = 4 then boxAverage pixU px r c else if p = 5 then boxAverage pixV px r c
      else pixY (px (c + 8 * (p.val % 2)) (r + 8 * (p.val / 2))) := by
  unfold extSample
  rw [rowOf_elemAt, colOf_elemAt]
  fin_cases p <;> rfl

theorem ofNat_eq_elemAt {r c : Nat} (hr : r < 8) (hc : c < 8) :
    (Fin.ofNat 64 (8 * r + c) : ElemId) = elemAt ⟨r, hr⟩ ⟨c, hc⟩ :=
  Fin.ext (Nat.mod_eq_of_lt (by omega))

/-- The tile and the element of a pixel hold its own luma. -/
theorem extSample_luma (px : Nat → Nat → Pixel) {x y : Nat} (hx : x < 16) (hy : y < 16) :
    extSample px (Fin.ofNat 6 (x / 8 + 2 * (y / 8))) (Fin.ofNat 64 (8 * (y % 8) + x % 8)) = pixY (px x y) := by
  have hp : (Fin.ofNat 6 (x / 8 + 2 * (y / 8))).val = x / 8 + 2 * (y / 8) := Nat.mod_eq_of_lt (by omega)
  generalize Fin.ofNat 6 (x / 8 + 2 * (y / 8)) = p at hp ⊢
  have hcol : x % 8 + 8 * (p.val % 2) = x := by omega
  have hrow : y % 8 + 8 * (p.val / 2) = y := by omega
  rw [ofNat_eq_elemAt (Nat.mod_lt _ (by decide)) (Nat.mod_lt _ (by decide)), extSample_elemAt,
    if_neg (Fin.ne_of_val_ne (show p.val ≠ 4 by omega)), if_neg (Fin.ne_of_val_ne (show p.val ≠ 5 by omega))]
  exact congrArg₂ (fun i j => pixY (px i j)) hcol hrow

/-- The chroma planes hold the averages. -/
theorem extSample_chroma (px : Nat → Nat → Pixel) {r c : Nat} (hr : r < 8) (hc : c < 8) :
    extSample px 4 (Fin.ofNat 64 (8 * r + c)) = boxAverage pixU px r c ∧
      extSample px 5 (Fin.ofNat 64 (8 * r + c)) = boxAverage pixV px r c := by
  rw [ofNat_eq_elemAt hr hc, extSample_elemAt, extSample_elemAt]
  exact ⟨rfl, rfl⟩

/-! ### The extractor (R151 to R153) -/

section
variable {s : State} {b : BankId} {f : PlaneId → ElemId → Int}

theorem sbAt_storeSamples (p : PlaneId) (k : ElemId) : (storeSamples b f s).sbAt b p k = some (f64OfInt (f p k)) := by
  simp [State.sbAt, storeSamples]

/-- A completed command that stores samples: the rest of the bank, the other bank and everything else. -/
theorem countCommand_storeSamples :
    (countCommand (storeSamples b f s)).bank b = { s.bank b with sb := ((countCommand (storeSamples b f s)).bank b).sb } ∧
      (∀ b', b' ≠ b → (countCommand (storeSamples b f s)).bank b' = s.bank b') ∧
      countCommand (storeSamples b f s) =
        { s with banks := (countCommand (storeSamples b f s)).banks, cmdcnt := s.cmdcnt + 1 } := by
  refine ⟨?_, fun b' hb => bank_setBank_other s b b' _ hb, rfl⟩
  rw [bank_countCommand, storeSamples, bank_setBank_same]

/-- A command that stores samples, once it is on the grid. -/
theorem exec_storeSamples {i : Instr} (hi : i ≠ .srst) (hcheck : checkOf i = checkPosition)
    (heffect : effectOf i s = storeSamples b f s) (h : s.err = false) (hg : s.onGrid) :
    exec i s = .next (countCommand (storeSamples b f s)) := by
  rw [exec_done i hi s h (by rw [hcheck, checkPosition_eq_none]; exact hg), heffect]

end

/-- Settles O34: each source of `EXTRACT` stores its samples, and a sample is read off its tile. -/
theorem macroblockIsExtracted : Obligations.MacroblockIsExtracted := by
  intro s b h hg px chroma ext i hi
  have hext (fm : FrameMem 24) (p : PlaneId) (r c : Fin 8) : extSample (s.mbPx fm) p (elemAt r c) = ext fm p r c :=
    extSample_elemAt (s.mbPx fm) p r c
  simp only [List.mem_cons, List.not_mem_nil, or_false] at hi
  obtain rfl | rfl | rfl := hi
  all_goals
    refine ⟨_, exec_storeSamples nofun rfl rfl h hg, fun p r c => ?_, countCommand_storeSamples⟩
    simp only [← hext]
    exact sbAt_storeSamples p (elemAt r c)

/-! ### A macroblock written (R151, R159) -/

/-- A completed command that writes the macroblock: its pixels, the rest of `CUR` and everything else. -/
theorem countCommand_writeMb {s : State} (hg : s.onGrid) (f : Nat → Nat → Pixel) :
    (∀ x y, x < 16 → y < 16 → (countCommand (writeMb f s)).cur.read (s.mbIndex x y) = f x y) ∧
      (∀ i, (∀ x y, x < 16 → y < 16 → i ≠ s.mbIndex x y) → (countCommand (writeMb f s)).cur.read i = s.cur.read i) ∧
      countCommand (writeMb f s) = { s with cur := (countCommand (writeMb f s)).cur, cmdcnt := s.cmdcnt + 1 } := by
  rw [countCommand_cur]
  refine ⟨writeMb_read s hg f, writeMb_read_other s f, ?_⟩
  rw [countCommand, writeMb_frame]

/-- Settles O36: the pixels written are those of `REF`. -/
theorem macroblockIsCopied : Obligations.MacroblockIsCopied := fun s h hg =>
  ⟨_, exec_done .copymb nofun s h ((checkPosition_eq_none s).2 hg), countCommand_writeMb hg (s.mbPx s.ref)⟩

/-! ### The reconstructor (R156 to R158) -/

/-- Both modes in one formula: nothing is added back in `INTRA`. -/
theorem reconSample_eq (mode : ReconMode) (ref : Nat) (x : F64) :
    reconSample mode ref x = max 0 (min 255 (f64Round x + if mode = .inter then (ref : Int) else 0)) := by
  cases mode
  case intra => simpa [reconSample] using clip_eq (f64Round x) 0 255 (by decide)
  case inter => simpa [reconSample] using clip_eq (f64Round x + ref) 0 255 (by decide)

/-- The components of an assembled pixel, for samples that are 8-bit intensities. -/
theorem components_assemblePixel {t : PlaneId → ElemId → Int} (ht : ∀ p k, 0 ≤ t p k ∧ t p k ≤ 255) (x y : Nat) :
    (pixY (assemblePixel t x y) : Int) = t (lumaPlane x y) (lumaElem x y) ∧
      (pixU (assemblePixel t x y) : Int) = t 4 (chromaElem x y) ∧
      (pixV (assemblePixel t x y) : Int) = t 5 (chromaElem x y) :=
  ⟨pixY_packPixel _ _ _ (ht _ _).1 (ht _ _).2, pixU_packPixel _ _ _ (ht _ _).1 (ht _ _).2,
    pixV_packPixel _ _ _ (ht _ _).1 (ht _ _).2⟩

/-- The tile of a pixel by its quotients. -/
theorem lumaPlane_eq {x y : Nat} (hx : x < 16) (hy : y < 16) : lumaPlane x y = Fin.ofNat 6 (x / 8 + 2 * (y / 8)) := by
  unfold lumaPlane
  congr 1
  split <;> split <;> omega

section
variable {s : State} {b : BankId} {v : PlaneId → ElemId → F64}

theorem planeVals_of_sbAt {p : PlaneId} {k : ElemId} {x : F64} (hx : s.sbAt b p k = some x) :
    (planeVals (s.bank b).sb[p])[k] = x := by
  rw [planeVals_get]
  exact congrArg (Option.getD · 0) hx

/-- The checks of `RECON` pass on the grid, over written and finite samples. -/
theorem checkRecon_of_finite (hg : s.onGrid) (hv : ∀ p k, s.sbAt b p k = some (v p k))
    (hfin : ∀ p k, f64Finite (v p k) = true) : checkRecon b s = none := by
  rw [checkRecon, Option.or_eq_none_iff, Option.or_eq_none_iff, checkPosition_eq_none, checkWritten_eq_none,
    checkFinite_eq_none]
  refine ⟨hg, fun p _ k => Option.isSome_of_eq_some (hv p k), fun p _ k => ?_⟩
  rw [planeVals_of_sbAt (hv p k)]
  exact hfin p k

end

/-- Settles O35: the written pixel is assembled from the samples of its tile and of its footprint. -/
theorem macroblockIsReconstructed : Obligations.MacroblockIsReconstructed := by
  intro s b mode v h hg hv hfin sample
  have ht (p : PlaneId) (k : ElemId) : s.reconT b mode p k =
      max 0 (min 255 (f64Round (v p k) + if mode = .inter then (s.extRef p k : Int) else 0)) := by
    rw [State.reconT, planeVals_of_sbAt (hv p k), reconSample_eq]
  have hrange (p : PlaneId) (k : ElemId) : 0 ≤ s.reconT b mode p k ∧ s.reconT b mode p k ≤ 255 := by
    rw [ht]; omega
  obtain ⟨hread, hother, hframe⟩ := countCommand_writeMb hg (assemblePixel (s.reconT b mode))
  refine ⟨_, exec_done (.recon b mode) nofun s h (checkRecon_of_finite hg hv hfin), fun x y hx hy => ?_, hother, hframe⟩
  obtain ⟨hY, hU, hV⟩ := components_assemblePixel hrange x y
  rw [lumaPlane_eq hx hy, ht] at hY
  rw [ht] at hU hV
  exact (hread x y hx hy).symm ▸ ⟨hY, hU, hV⟩

/-! ### The round trip (R155) -/

/-- An extracted sample comes back from the rounding and the clip. -/
theorem round_extSample (px : Nat → Nat → Pixel) (p : PlaneId) (k : ElemId) :
    max 0 (min 255 (f64Round (f64OfInt (extSample px p k)) + 0)) = (extSample px p k : Int) := by
  have hle := extSample_le px p k
  rw [f64Round_f64OfInt _ (by omega) (by omega)]
  omega

/-- An extracted sample is stored as a finite number. -/
theorem f64OfInt_extSample_finite (px : Nat → Nat → Pixel) (p : PlaneId) (k : ElemId) :
    f64Finite (f64OfInt (extSample px p k)) = true := by
  have hle := extSample_le px p k
  exact f64OfInt_finite _ (by omega) (by omega)

/-- Settles O38: `RECON` rounds the very samples that `EXTRACT` stored, and the write-back map inverts the tiles. -/
theorem extractThenReconstruct : Obligations.ExtractThenReconstruct := by
  intro s b h hg
  obtain ⟨u, hu, hpix, -, hframe⟩ := macroblockIsReconstructed
    (countCommand (storeSamples b (fun p k => s.extCur p k) s)) b .intra (fun p k => f64OfInt (s.extCur p k)) h hg
    sbAt_storeSamples (f64OfInt_extSample_finite (s.mbPx s.cur))
  refine ⟨_, u, exec_storeSamples nofun rfl rfl h hg, hu, by rw [hframe]; exact h, fun x y hx hy => ?_⟩
  obtain ⟨hY, hU, hV⟩ := hpix x y hx hy
  obtain ⟨havgU, havgV⟩ := extSample_chroma (s.mbPx s.cur) (r := y / 2) (c := x / 2) (by omega) (by omega)
  have hY' := Int.ofNat_inj.1 (hY.trans (round_extSample (s.mbPx s.cur) _ _))
  have hU' := Int.ofNat_inj.1 (hU.trans (round_extSample (s.mbPx s.cur) _ _))
  have hV' := Int.ofNat_inj.1 (hV.trans (round_extSample (s.mbPx s.cur) _ _))
  refine ⟨hY'.trans (extSample_luma (s.mbPx s.cur) hx hy), ?_⟩
  simp only [List.mem_cons, List.not_mem_nil, or_false, forall_eq_or_imp, forall_eq]
  exact ⟨hU'.trans havgU, hV'.trans havgV⟩

end Sys2Proof.Machine
end

section
/-! PROOF. The transform engine: what the commands that write planes of `FB` or of `SB` leave, the two transforms, the two
reorderings and their round trips, and that only finite values are stored (43_transform.md R173 to R181). -/

namespace Sys2Proof.Machine

/-! ### Planes of a mask replaced -/

/-- The state with the `FB` planes of a mask replaced and tagged, as `FDCT`, `ZZ`, `IZZ` and `DQNT` leave it. -/
def storeFb (b : BankId) (m : PlaneMask) (f : PlaneId → Plane 64) (tag : Order) (s : State) : State :=
  s.setBank b
    { s.bank b with
      fb := overPlanes m (s.bank b).fb f
      fbord := overPlanes m (s.bank b).fbord fun _ => tag }

/-- The state with the `SB` planes of a mask replaced, as `IDCT` leaves it. -/
def storeSb (b : BankId) (m : PlaneMask) (f : PlaneId → Plane 64) (s : State) : State :=
  s.setBank b { s.bank b with sb := overPlanes m (s.bank b).sb f }

section
variable {s : State} {b : BankId} {m : PlaneMask} {f : PlaneId → Plane 64} {tag : Order}

theorem fbAt_storeFb (p : PlaneId) (k : ElemId) :
    (storeFb b m f tag s).fbAt b p k = if m.getLsbD p.val then (f p)[k] else s.fbAt b p k := by
  rw [State.fbAt, storeFb, bank_setBank_same, overPlanes_get]
  split <;> rfl

theorem tagAt_storeFb (p : PlaneId) :
    (storeFb b m f tag s).tagAt b p = if m.getLsbD p.val then tag else s.tagAt b p := by
  rw [State.tagAt, storeFb, bank_setBank_same, overPlanes_get]
  rfl

theorem sbAt_storeSb (p : PlaneId) (k : ElemId) :
    (storeSb b m f s).sbAt b p k = if m.getLsbD p.val then (f p)[k] else s.sbAt b p k := by
  rw [State.sbAt, storeSb, bank_setBank_same, overPlanes_get]
  split <;> rfl

/-- A completed command that replaces planes of `FB`: the other planes, the rest of the bank, the other bank and
everything else. -/
theorem countCommand_storeFb :
    (∀ p k, m.getLsbD p.val = false → (countCommand (storeFb b m f tag s)).fbAt b p k = s.fbAt b p k ∧
        (countCommand (storeFb b m f tag s)).tagAt b p = s.tagAt b p) ∧
      (countCommand (storeFb b m f tag s)).bank b = { s.bank b with
        fb := ((countCommand (storeFb b m f tag s)).bank b).fb
        fbord := ((countCommand (storeFb b m f tag s)).bank b).fbord } ∧
      (∀ b', b' ≠ b → (countCommand (storeFb b m f tag s)).bank b' = s.bank b') ∧
      countCommand (storeFb b m f tag s) =
        { s with banks := (countCommand (storeFb b m f tag s)).banks, cmdcnt := s.cmdcnt + 1 } := by
  refine ⟨fun p k hp => ⟨?_, ?_⟩, ?_, fun b' hb => bank_setBank_other s b b' _ hb, rfl⟩
  · exact (fbAt_storeFb p k).trans (if_neg (Bool.eq_false_iff.1 hp))
  · exact (tagAt_storeFb p).trans (if_neg (Bool.eq_false_iff.1 hp))
  · rw [bank_countCommand, storeFb, bank_setBank_same]

/-- A completed command that replaces planes of `SB`: the other planes, the rest of the bank, the other bank and
everything else. -/
theorem countCommand_storeSb :
    (∀ p k, m.getLsbD p.val = false → (countCommand (storeSb b m f s)).sbAt b p k = s.sbAt b p k) ∧
      (countCommand (storeSb b m f s)).bank b = { s.bank b with sb := ((countCommand (storeSb b m f s)).bank b).sb } ∧
      (∀ b', b' ≠ b → (countCommand (storeSb b m f s)).bank b' = s.bank b') ∧
      countCommand (storeSb b m f s) =
        { s with banks := (countCommand (storeSb b m f s)).banks, cmdcnt := s.cmdcnt + 1 } := by
  refine ⟨fun p k hp => ?_, ?_, fun b' hb => bank_setBank_other s b b' _ hb, rfl⟩
  · exact (sbAt_storeSb p k).trans (if_neg (Bool.eq_false_iff.1 hp))
  · rw [bank_countCommand, storeSb, bank_setBank_same]

end

/-! ### The forward transform (R174) -/

theorem effectOf_fdct (b : BankId) (m : PlaneMask) (s : State) :
    effectOf (.fdct b m) s = storeFb b m (fun p => fullPlane fun j => ((s.bank b).fdctOf p)[j]) .nat s := rfl

/-- When the checks of `FDCT` pass: inputs written, inputs finite, results finite. -/
theorem checkFdct_eq_none (b : BankId) (m : PlaneMask) (s : State) :
    checkFdct b m s = none ↔
      (∀ p : PlaneId, m.getLsbD p.val = true → ∀ k, (s.sbAt b p k).isSome = true) ∧
      (∀ p : PlaneId, m.getLsbD p.val = true → ∀ k : ElemId, f64Finite (planeVals (s.bank b).sb[p])[k] = true) ∧
      (∀ p : PlaneId, m.getLsbD p.val = true → ∀ j : ElemId, f64Finite ((s.bank b).fdctOf p)[j] = true) := by
  simp only [checkFdct, Option.or_eq_none_iff, checkWritten_eq_none, checkFinite_eq_none, mem_planesOf, State.sbAt]

/-- The values of a plane whose elements are all written. -/
theorem planeVals_of_written {n : Nat} {pl : Plane n} {x : ElemId → BitVec n} (h : ∀ k : ElemId, pl[k] = some (x k)) :
    (fun k : ElemId => (planeVals pl)[k]) = x := by
  funext k
  rw [planeVals_get, h k, Option.getD_some]

theorem fdctOf_get {s : State} {b : BankId} {p : PlaneId} {x : ElemId → F64} (hx : ∀ k, s.sbAt b p k = some (x k))
    (j : ElemId) : ((s.bank b).fdctOf p)[j] = fdctValue x (rowOf j) (colOf j) := by
  rw [Bank.fdctOf, fdctPlane_get, planeVals_of_written hx]

/-- Settles O40: the checks pass, and each result stored is the two passes in one expression. -/
theorem forwardTransform : Obligations.ForwardTransform := by
  intro s b m x h hx hres
  have hval (p : PlaneId) (hp : m.getLsbD p.val = true) (j : ElemId) :
      ((s.bank b).fdctOf p)[j] = fdctValue (x p) (rowOf j) (colOf j) := fdctOf_get (fun k => (hx p k hp).1) j
  have hcheck : checkFdct b m s = none := by
    refine (checkFdct_eq_none b m s).2 ⟨fun p hp k => ?written, fun p hp k => ?finite, fun p hp j => ?results⟩
    case written => exact Option.isSome_of_eq_some (hx p k hp).1
    case finite => rw [planeVals_of_sbAt (hx p k hp).1]; exact (hx p k hp).2
    case results => rw [hval p hp]; exact hres p _ _ hp
  refine ⟨_, exec_done (.fdct b m) nofun s h hcheck, fun p v u hp => ⟨?coefficient, ?tag⟩, countCommand_storeFb⟩
  case coefficient =>
    refine (fbAt_storeFb p (elemAt v u)).trans ?_
    rw [if_pos hp, fullPlane_get, hval p hp, rowOf_elemAt, colOf_elemAt]
  case tag => exact (tagAt_storeFb p).trans (if_pos hp)

/-! ### The inverse transform (R176) -/

theorem effectOf_idct (b : BankId) (m : PlaneMask) (s : State) :
    effectOf (.idct b m) s = storeSb b m (fun p => fullPlane fun i => ((s.bank b).idctOf p)[i]) s := rfl

/-- When the checks of `IDCT` pass: inputs written, tagged `NAT` and finite, results finite. -/
theorem checkIdct_eq_none (b : BankId) (m : PlaneMask) (s : State) :
    checkIdct b m s = none ↔
      (∀ p : PlaneId, m.getLsbD p.val = true → ∀ k, (s.fbAt b p k).isSome = true) ∧
      (∀ p : PlaneId, m.getLsbD p.val = true → s.tagAt b p = .nat) ∧
      (∀ p : PlaneId, m.getLsbD p.val = true → ∀ k : ElemId, f64Finite (planeVals (s.bank b).fb[p])[k] = true) ∧
      (∀ p : PlaneId, m.getLsbD p.val = true → ∀ i : ElemId, f64Finite ((s.bank b).idctOf p)[i] = true) := by
  simp only [checkIdct, Option.or_eq_none_iff, checkWritten_eq_none, checkOrder_eq_none, checkFinite_eq_none,
    mem_planesOf, State.fbAt, State.tagAt]

theorem idctOf_get {s : State} {b : BankId} {p : PlaneId} {x : ElemId → F64} (hx : ∀ k, s.fbAt b p k = some (x k))
    (i : ElemId) : ((s.bank b).idctOf p)[i] = idctValue x (rowOf i) (colOf i) := by
  rw [Bank.idctOf, idctPlane_get, planeVals_of_written hx]

/-- Settles O41: the checks pass, and each result stored is the two transposed passes in one expression. -/
theorem inverseTransform : Obligations.InverseTransform := by
  intro s b m x h hx hres
  have hwritten (p : PlaneId) (hp : m.getLsbD p.val = true) (k : ElemId) : s.fbAt b p k = some (x p k) := (hx p k hp).1
  have hval (p : PlaneId) (hp : m.getLsbD p.val = true) (i : ElemId) :
      ((s.bank b).idctOf p)[i] = idctValue (x p) (rowOf i) (colOf i) := idctOf_get (hwritten p hp) i
  have hcheck : checkIdct b m s = none := by
    refine (checkIdct_eq_none b m s).2
      ⟨fun p hp k => ?written, fun p hp => ?order, fun p hp k => ?finite, fun p hp i => ?results⟩
    case written => exact Option.isSome_of_eq_some (hwritten p hp k)
    case order => exact (hx p 0 hp).2.2
    case finite => rw [congrFun (planeVals_of_written (hwritten p hp)) k]; exact (hx p k hp).2.1
    case results => rw [hval p hp]; exact hres p _ _ hp
  refine ⟨_, exec_done (.idct b m) nofun s h hcheck, fun p y c hp => ?_, countCommand_storeSb⟩
  refine (sbAt_storeSb p (elemAt y c)).trans ?_
  rw [if_pos hp, fullPlane_get, hval p hp, rowOf_elemAt, colOf_elemAt]

/-! ### Finite values (R173) -/

/-- A command that leaves the block not halted has passed its check and made its writes. -/
theorem exec_completed {i : Instr} {s t : State} (h : exec i s = .next t) (hi : i ≠ .srst) (hs : s.err = false)
    (ht : t.err = false) : checkOf i s = none ∧ t = countCommand (effectOf i s) := by
  obtain ⟨he, -⟩ | ⟨tr, -, -, rfl⟩ | ⟨-, hc, rfl⟩ := exec_cases hi h
  · simp [hs] at he
  · simp at ht
  · exact ⟨hc, rfl⟩

/-- The difference of two extracted samples is stored as a finite number. -/
theorem f64OfInt_extDiff_finite (s : State) (p : PlaneId) (k : ElemId) :
    f64Finite (f64OfInt ((s.extCur p k : Int) - (s.extRef p k : Int))) = true := by
  have hcur : s.extCur p k ≤ 255 := extSample_le (s.mbPx s.cur) p k
  have href : s.extRef p k ≤ 255 := extSample_le (s.mbPx s.ref) p k
  exact f64OfInt_finite _ (by omega) (by omega)

/-- The reconstruction level of any 16-bit level is stored as a finite number. -/
theorem f64OfInt_reconstructionOf_finite (dc : Bool) (q : Nat) (k : ElemId) (l : Level) :
    f64Finite (f64OfInt (reconstructionOf dc q k l.toInt)) = true := by
  have hlo := BitVec.le_toInt l
  have hhi := BitVec.toInt_lt (x := l)
  refine (f64OfInt_exact _ ?_).1
  unfold reconstructionOf
  split_ifs <;> omega

theorem effectOf_dqnt (b : BankId) (m : PlaneMask) (dc : Bool) (s : State) :
    effectOf (.dqnt b m dc) s = storeFb b m (fun p =>
      fullPlane fun k => f64OfInt (dequantPlane dc s.quant.toNat (planeLevels (s.bank b).qb[p]))[k]) .zz s := rfl

section
variable {s : State} {b : BankId} {m : PlaneMask} {p : PlaneId} {k : ElemId} {v : F64}

/-- What `EXTRACT` stores is finite when its samples are. -/
theorem finite_of_sbAt_storeSamples {f : PlaneId → ElemId → Int} (hf : f64Finite (f64OfInt (f p k)) = true)
    (hv : (countCommand (storeSamples b f s)).sbAt b p k = some v) : f64Finite v = true := by
  obtain rfl : f64OfInt (f p k) = v := Option.some.inj ((sbAt_storeSamples p k).symm.trans hv)
  exact hf

/-- What `IDCT` stores is finite when its results are. -/
theorem finite_of_sbAt_storeSb {g : PlaneId → ElemId → F64} (hp : m.getLsbD p.val = true)
    (hg : f64Finite (g p k) = true)
    (hv : (countCommand (storeSb b m (fun p => fullPlane (g p)) s)).sbAt b p k = some v) : f64Finite v = true := by
  have hread := (sbAt_storeSb p k).symm.trans hv
  rw [if_pos hp, fullPlane_get, Option.some.injEq] at hread
  exact hread ▸ hg

/-- What `FDCT` and `DQNT` store is finite when their results are. -/
theorem finite_of_fbAt_storeFb {g : PlaneId → ElemId → F64} {tag : Order} (hp : m.getLsbD p.val = true)
    (hg : f64Finite (g p k) = true)
    (hv : (countCommand (storeFb b m (fun p => fullPlane (g p)) tag s)).fbAt b p k = some v) : f64Finite v = true := by
  have hread := (fbAt_storeFb p k).symm.trans hv
  rw [if_pos hp, fullPlane_get, Option.some.injEq] at hread
  exact hread ▸ hg

end

/-- Settles O42: integers in range are stored as finite numbers, and the transforms check their results. -/
theorem commandsStoreFiniteValues : Obligations.CommandsStoreFiniteValues := by
  intro s t b m dc p k v hs ht
  refine ⟨fun h => ?extract, fun hp h => ?idct, fun hp h => ?fb⟩
  case extract =>
    obtain h | h | h := h
    · obtain ⟨-, rfl⟩ := exec_completed h nofun hs ht
      exact finite_of_sbAt_storeSamples (f64OfInt_extSample_finite (s.mbPx s.cur) p k)
    · obtain ⟨-, rfl⟩ := exec_completed h nofun hs ht
      exact finite_of_sbAt_storeSamples (f64OfInt_extSample_finite (s.mbPx s.ref) p k)
    · obtain ⟨-, rfl⟩ := exec_completed h nofun hs ht
      exact finite_of_sbAt_storeSamples (f64OfInt_extDiff_finite s p k)
  case idct =>
    obtain ⟨hcheck, rfl⟩ := exec_completed h nofun hs ht
    obtain ⟨-, -, -, hres⟩ := (checkIdct_eq_none b m s).1 hcheck
    rw [effectOf_idct]
    exact finite_of_sbAt_storeSb hp (hres p hp k)
  case fb =>
    obtain h | h := h
    · obtain ⟨hcheck, rfl⟩ := exec_completed h nofun hs ht
      obtain ⟨-, -, hres⟩ := (checkFdct_eq_none b m s).1 hcheck
      rw [effectOf_fdct]
      exact finite_of_fbAt_storeFb hp (hres p hp k)
    · obtain ⟨-, rfl⟩ := exec_completed h nofun hs ht
      rw [effectOf_dqnt]
      refine finite_of_fbAt_storeFb hp ?_
      rw [dequantPlane_get, planeLevels_get]
      exact f64OfInt_reconstructionOf_finite dc s.quant.toNat k _

/-! ### The reorderings (R179, R180) -/

/-- When the checks of `ZZ` and `IZZ` pass: the planes written and tagged. -/
theorem checkReorder_eq_none (b : BankId) (m : PlaneMask) (want : Order) (s : State) :
    checkReorder b m want s = none ↔
      ∀ p k, m.getLsbD p.val = true → (s.fbAt b p k).isSome = true ∧ s.tagAt b p = want := by
  simp only [checkReorder, Option.or_eq_none_iff, checkWritten_eq_none, checkOrder_eq_none, mem_planesOf]
  exact ⟨fun ⟨hwritten, htag⟩ p k hp => ⟨hwritten p hp k, htag p hp⟩,
    fun h => ⟨fun p hp k => (h p k hp).1, fun p hp => (h p 0 hp).2⟩⟩

section
variable {s : State} {b : BankId} {m : PlaneMask} {pos : ElemId → ElemId} {tag : Order}

theorem reorder_eq_storeFb :
    reorder b m pos tag s = storeFb b m (fun p => Vector.ofFn fun k => ((s.bank b).fb[p])[pos k]) tag s := rfl

/-- An element of a reordered plane. -/
theorem reorder_get {p : PlaneId} (hp : m.getLsbD p.val = true) (k : ElemId) :
    (reorder b m pos tag s).fbAt b p k = s.fbAt b p (pos k) ∧ (reorder b m pos tag s).tagAt b p = tag := by
  rw [reorder_eq_storeFb, fbAt_storeFb, tagAt_storeFb, if_pos hp, if_pos hp]
  exact ⟨by simp [State.fbAt], rfl⟩

end

/-- Settles O43: `ZZ` is the reordering by `ZIGZAG`. -/
theorem zigzagReorders : Obligations.ZigzagReorders := fun s b m h hin =>
  ⟨_, exec_done (.zz b m) nofun s h ((checkReorder_eq_none b m .nat s).2 hin), fun _ k hp => reorder_get hp k,
    countCommand_storeFb⟩

/-- Settles O44: `IZZ` is the reordering by the place in the scan, and `ZIGZAG[k]` has place `k`. -/
theorem inverseZigzagReorders : Obligations.InverseZigzagReorders := by
  intro s b m h hin
  refine ⟨_, exec_done (.izz b m) nofun s h ((checkReorder_eq_none b m .zz s).2 hin), fun p k hp => ?_,
    countCommand_storeFb⟩
  have hget := reorder_get (s := s) (b := b) (pos := zigzagPos) (tag := .nat) hp (zigzag k)
  rwa [zigzagPos_zigzag] at hget

/-! ### The round trips (R181) -/

theorem setBank_setBank (s : State) (b : BankId) (k k' : Bank) : (s.setBank b k).setBank b k' = s.setBank b k' := by
  simp [State.setBank]

theorem setBank_bank (s : State) (b : BankId) : s.setBank b (s.bank b) = s := by
  simp [State.setBank, State.bank]

theorem overPlanes_overPlanes {α : Type} (m : PlaneMask) (v : Vector α 6) (f g : PlaneId → α) :
    overPlanes m (overPlanes m v f) g = overPlanes m v g := by
  refine planes_ext fun p => ?_
  rw [overPlanes_get, overPlanes_get, overPlanes_get]
  split <;> rfl

theorem overPlanes_eq_self {α : Type} {m : PlaneMask} {v : Vector α 6} {f : PlaneId → α}
    (h : ∀ p : PlaneId, m.getLsbD p.val = true → f p = v[p]) : overPlanes m v f = v := by
  refine planes_ext fun p => ?_
  rw [overPlanes_get]
  split
  next hp => exact h p hp
  next => rfl

section
variable {s : State} {b : BankId} {m : PlaneMask} {pos back : ElemId → ElemId} {tag old : Order}

/-- A second replacement of the same planes by what they were, tags included, undoes the first. -/
theorem storeFb_storeFb_eq_self {f g : PlaneId → Plane 64}
    (hg : ∀ p : PlaneId, m.getLsbD p.val = true → g p = (s.bank b).fb[p])
    (htag : ∀ p : PlaneId, m.getLsbD p.val = true → s.tagAt b p = old) :
    storeFb b m g old (storeFb b m f tag s) = s := by
  rw [storeFb, storeFb, bank_setBank_same, setBank_setBank, overPlanes_overPlanes, overPlanes_overPlanes,
    overPlanes_eq_self hg, overPlanes_eq_self fun p hp => (htag p hp).symm]
  exact setBank_bank s b

theorem reorder_countCommand : reorder b m pos tag (countCommand s) = countCommand (reorder b m pos tag s) := rfl

/-- A reordering undoes another when its positions are the inverse ones and it gives back the tag. -/
theorem reorder_reorder (hback : ∀ k, pos (back k) = k)
    (htag : ∀ p : PlaneId, m.getLsbD p.val = true → s.tagAt b p = old) :
    reorder b m back old (reorder b m pos tag s) = s := by
  rw [reorder_eq_storeFb (pos := back)]
  refine storeFb_storeFb_eq_self (fun p hp => plane_ext fun k => ?_) htag
  have hget := (reorder_get (s := s) (b := b) (pos := pos) (tag := tag) hp (back k)).1
  rw [hback] at hget
  exact (Vector.getElem_ofFn k.isLt).trans hget

/-- A reordered bank passes the check for its new tag. -/
theorem checkReorder_reorder (hw : ∀ p k, m.getLsbD p.val = true → (s.fbAt b p k).isSome = true) :
    checkReorder b m tag (countCommand (reorder b m pos tag s)) = none := by
  refine (checkReorder_eq_none b m tag _).2 fun p k hp => ?_
  obtain ⟨hget, htag⟩ := reorder_get (s := s) (b := b) (pos := pos) (tag := tag) hp k
  exact ⟨(congrArg Option.isSome hget).trans (hw p (pos k) hp), htag⟩

/-- Two reorderings, the second undoing the first, count two commands and change nothing else. -/
theorem exec_reorder_twice {i j : Instr} (hi : i ≠ .srst) (hj : j ≠ .srst) (h : s.err = false)
    (hicheck : checkOf i = checkReorder b m old) (hieffect : effectOf i = reorder b m pos tag)
    (hjcheck : checkOf j = checkReorder b m tag) (hjeffect : effectOf j = reorder b m back old)
    (hback : ∀ k, pos (back k) = k) (hw : ∀ p k, m.getLsbD p.val = true → (s.fbAt b p k).isSome = true)
    (htag : ∀ p : PlaneId, m.getLsbD p.val = true → s.tagAt b p = old) :
    ∃ t, exec i s = .next t ∧ exec j t = .next { s with cmdcnt := s.cmdcnt + 1 + 1 } := by
  have hfirst : checkOf i s = none := by
    rw [hicheck]
    exact (checkReorder_eq_none b m old s).2 fun p k hp => ⟨hw p k hp, htag p hp⟩
  have hsecond : checkOf j (countCommand (reorder b m pos tag s)) = none := by
    rw [hjcheck]
    exact checkReorder_reorder hw
  refine ⟨_, exec_done i hi s h hfirst, ?_⟩
  rw [hieffect, exec_done j hj (countCommand (reorder b m pos tag s)) h hsecond, hjeffect, reorder_countCommand,
    reorder_reorder hback htag]
  rfl

end

/-- Settles O45: each of the two commands undoes the other. -/
theorem zigzagRoundTrip : Obligations.ZigzagRoundTrip := fun _ _ _ h hw =>
  ⟨exec_reorder_twice nofun nofun h rfl rfl rfl rfl zigzag_zigzagPos hw,
    exec_reorder_twice nofun nofun h rfl rfl rfl rfl zigzagPos_zigzag hw⟩

end Sys2Proof.Machine
end

section
/-! PROOF. The quantizer and the dequantizer: the levels of each coefficient, the two round trips, what `QNT` and `DQNT`
store, and that the run-level coder can code what `QNT` stores (44_quant.md R192 to R202, 45_runlevel.md R212, R216, R220). -/

namespace Sys2Proof.Machine

/-! ### The exact quotients (R193, R194) -/

theorem f64Unit_cast_pos : (0 : Int) < f64Unit := by exact_mod_cast f64Unit_pos

/-- From 1 on, a truncated quotient is a floor. -/
theorem le_tdiv_iff_mul_le {a b n : Int} (hb : 0 < b) (hn : 1 ≤ n) : n ≤ a.tdiv b ↔ n * b ≤ a := by
  rcases le_total 0 a with ha | ha
  · rw [Int.tdiv_eq_ediv_of_nonneg ha, Int.le_ediv_iff_mul_le hb]
  · have hquot : 0 ≤ (-a).tdiv b := Int.tdiv_nonneg (by omega) hb.le
    have hprod := Int.mul_pos (show 0 < n by omega) hb
    rw [Int.neg_tdiv] at hquot
    omega

theorem le_f64TruncDiv_iff (x : F64) {n : Int} (hn : 1 ≤ n) : n ≤ f64TruncDiv x 8 ↔ 8 * n * f64Unit ≤ f64Val x := by
  have hpos := f64Unit_pos
  rw [f64TruncDiv, le_tdiv_iff_mul_le (by omega) hn, Nat.cast_mul, ← mul_assoc, mul_comm n]
  rfl

theorem f64TruncDiv_neg_iff (x : F64) : f64TruncDiv x 8 < 0 ↔ f64Val x ≤ -8 * f64Unit := by
  have hpos := f64Unit_pos
  have hneg := le_tdiv_iff_mul_le (a := -f64Val x) (b := (8 * f64Unit : Nat)) (by omega) le_rfl
  rw [Int.neg_tdiv, ← f64TruncDiv] at hneg
  omega

theorem le_f64FloorAbsDiv_iff (x : F64) {d : Nat} (hd : 0 < d) (n : Nat) :
    n ≤ f64FloorAbsDiv x d ↔ n * (d * f64Unit) ≤ f64Mag x :=
  Nat.le_div_iff_mul_le (Nat.mul_pos hd f64Unit_pos)

/-! ### The DC quantizer and its round trip (R193, R198, R202) -/

/-- Where neither clamp nor substitution acts, the level is the quotient. -/
theorem qdc_of_ordinary {c : F64} (hlo : 1 ≤ f64TruncDiv c 8) (hhi : f64TruncDiv c 8 ≤ 254) (hres : f64TruncDiv c 8 ≠ 128) :
    qdc c = (f64TruncDiv c 8, false) := by
  rw [qdc_eq, if_neg (by omega), if_neg (by omega), if_neg hres, if_neg (by omega)]

theorem qdc_of_reserved {c : F64} (h : f64TruncDiv c 8 = 128) : qdc c = (255, false) := by
  rw [qdc_eq, h]
  rfl

theorem qdc_of_large {c : F64} (h : 255 ≤ f64TruncDiv c 8) : qdc c = (254, true) := by
  rw [qdc_eq, if_neg (by omega), if_neg (by omega), if_neg (by omega), if_pos (by omega)]

theorem qdc_of_small {c : F64} (h : f64TruncDiv c 8 < 1) : qdc c = (1, decide (f64TruncDiv c 8 < 0)) := by
  rw [qdc_eq]
  by_cases hneg : f64TruncDiv c 8 < 0
  · simp [hneg]
  · have hzero : f64TruncDiv c 8 = 0 := by omega
    simp [hzero]

/-- Settles O47: the bounds of the intervals are those of the quotient. -/
theorem dcQuantizerByInterval : Obligations.DcQuantizerByInterval := by
  intro c _ v u
  have hneg : f64TruncDiv c 8 < 0 ↔ v ≤ -8 * u := f64TruncDiv_neg_iff c
  have hle {n : Int} (hn : 1 ≤ n) : n ≤ f64TruncDiv c 8 ↔ 8 * n * u ≤ v := le_f64TruncDiv_iff c hn
  have hu : 0 < u := f64Unit_cast_pos
  have h1 := hle (n := 1) (by decide)
  have h128 := hle (n := 128) (by decide)
  have h129 := hle (n := 129) (by decide)
  have h255 := hle (n := 255) (by decide)
  refine ⟨fun h => ?below, fun hlo hhi => ?small, fun hlo hhi => ?reserved, fun h => ?large, fun hlo hhi hres => ?ordinary,
    qdc_range c⟩
  case below => rw [qdc_of_small (by omega), decide_eq_true (by omega)]
  case small => rw [qdc_of_small (by omega), decide_eq_false (by omega)]
  case reserved => exact qdc_of_reserved (by omega)
  case large => exact qdc_of_large (by omega)
  case ordinary =>
    have hpos : 1 ≤ f64TruncDiv c 8 := by omega
    rw [qdc_of_ordinary hpos (by omega) (by omega)]
    exact ⟨rfl, (hle hpos).1 le_rfl, lt_of_not_ge fun h => absurd ((hle (by omega)).2 h) (by omega)⟩

/-- Where no clamp acts, a coefficient comes back as 8 times the quotient: the two substitutions of 128 cancel. -/
theorem ddc_qdc {c : F64} (hlo : 1 ≤ f64TruncDiv c 8) (hhi : f64TruncDiv c 8 ≤ 254) :
    ddc (qdc c).1 = 8 * f64TruncDiv c 8 := by
  by_cases hres : f64TruncDiv c 8 = 128
  · rw [qdc_of_reserved hres, hres, ddc_eq, if_pos rfl]
    rfl
  · rw [qdc_of_ordinary hlo hhi hres, ddc_eq, if_neg (show f64TruncDiv c 8 ≠ 255 by omega)]

/-- The quotient of an integer coefficient. -/
theorem f64TruncDiv_of_val {c : F64} {n : Int} (h : f64Val c = n * f64Unit) : f64TruncDiv c 8 = n.tdiv 8 := by
  rw [f64TruncDiv, h, Nat.cast_mul]
  exact Int.mul_tdiv_mul_of_pos_left _ _ f64Unit_cast_pos

theorem f64TruncDiv_f64OfInt {n : Int} (hlo : -2048 ≤ n) (hhi : n ≤ 2047) : f64TruncDiv (f64OfInt n) 8 = n.tdiv 8 :=
  f64TruncDiv_of_val (f64Val_f64OfInt n hlo hhi)

/-- A coefficient returns as itself only where no clamp acts: the levels 1 and 254 return as 8 and 2032, which lie outside
the intervals that are clamped to them. -/
theorem dc_fixed_iff (c : F64) :
    f64Val c = ddc (qdc c).1 * f64Unit ↔ ∃ n : Nat, 1 ≤ n ∧ n ≤ 254 ∧ f64Val c = 8 * n * f64Unit := by
  have hu := f64Unit_cast_pos
  constructor
  · intro h
    have h1 := le_f64TruncDiv_iff c (n := 1) (by decide)
    have h255 := le_f64TruncDiv_iff c (n := 255) (by decide)
    by_cases hlo : 1 ≤ f64TruncDiv c 8
    · by_cases hhi : f64TruncDiv c 8 ≤ 254
      · rw [ddc_qdc hlo hhi] at h
        exact ⟨(f64TruncDiv c 8).toNat, by omega, by omega, by rwa [Int.toNat_of_nonneg (by omega)]⟩
      · have hlarge : ddc (qdc c).1 = 2032 := by
          rw [qdc_of_large (by omega)]
          rfl
        rw [hlarge] at h
        omega
    · have hsmall : ddc (qdc c).1 = 8 := by
        rw [qdc_of_small (by omega)]
        rfl
      rw [hsmall] at h
      omega
  · rintro ⟨n, hlo, hhi, h⟩
    have hquot : f64TruncDiv c 8 = n := by rw [f64TruncDiv_of_val h, Int.mul_tdiv_cancel_left _ (by decide)]
    rw [ddc_qdc (by omega) (by omega), hquot, h]

/-- What is lost in the range that no clamp acts on is the rest of the division by 8. -/
theorem dc_error {c : F64} (hlo : 8 * (f64Unit : Int) ≤ f64Val c) (hhi : f64Val c < 2040 * (f64Unit : Int)) :
    0 ≤ f64Val c - ddc (qdc c).1 * f64Unit ∧ f64Val c - ddc (qdc c).1 * f64Unit < 8 * f64Unit := by
  have hpos : 1 ≤ f64TruncDiv c 8 := (le_f64TruncDiv_iff c le_rfl).2 (by omega)
  have hlt : ¬ 255 ≤ f64TruncDiv c 8 := by
    rw [le_f64TruncDiv_iff c (by decide)]
    omega
  have hbelow := (le_f64TruncDiv_iff c hpos).1 le_rfl
  have habove := mt (le_f64TruncDiv_iff c (n := f64TruncDiv c 8 + 1) (by omega)).2 (by omega)
  rw [ddc_qdc hpos (by omega)]
  constructor <;> linarith

/-- Settles O50: the sentinels come from the quotients 128, 0 and 255. -/
theorem dcRoundTrip : Obligations.DcRoundTrip := by
  have h1024 : qdc (f64OfInt 1024) = (255, false) :=
    qdc_of_reserved (f64TruncDiv_f64OfInt (by decide) (by decide))
  have h0 : qdc (f64OfInt 0) = (1, false) := by
    rw [qdc_eq, f64TruncDiv_f64OfInt (by decide) (by decide)]
    rfl
  have h2040 : qdc (f64OfInt 2040) = (254, true) :=
    qdc_of_large (f64TruncDiv_f64OfInt (by decide) (by decide)).ge
  unfold Obligations.DcRoundTrip
  rw [h1024, h0, h2040]
  exact ⟨fun c _ => dc_fixed_iff c, rfl, rfl, rfl, rfl, rfl, rfl, fun c _ => dc_error⟩

/-! ### The AC quantizer and its round trip (R194, R199, R201) -/

/-- The AC quantizer in one line: the floor of the exact quotient, cut at 127, under the sign of the coefficient. -/
theorem qac_eq (x : F64) (q : Nat) : qac x q =
    (if f64Val x < 0 then -((min 127 (f64FloorAbsDiv x (2 * q)) : Nat) : Int) else (min 127 (f64FloorAbsDiv x (2 * q)) : Nat),
      decide (127 < f64FloorAbsDiv x (2 * q))) := by
  have hcut (n : Nat) : (if literals.acLevelMax < n then literals.acLevelMax else n) = min 127 n := by
    rw [literals_acLevelMax]
    split <;> omega
  simp only [qac, hcut, f64Negative, decide_eq_true_eq]
  rw [literals_acLevelMax]

theorem natAbs_qac (x : F64) (q : Nat) : (qac x q).1.natAbs = min 127 (f64FloorAbsDiv x (2 * q)) := by
  rw [qac_eq]
  dsimp only
  split
  · rw [Int.natAbs_neg, Int.natAbs_natCast]
  · rw [Int.natAbs_natCast]

theorem qac_sat_iff (x : F64) (q : Nat) : (qac x q).2 = true ↔ 128 ≤ f64FloorAbsDiv x (2 * q) :=
  decide_eq_true_iff

theorem qac_nonneg {x : F64} (h : 0 ≤ f64Val x) (q : Nat) : 0 ≤ (qac x q).1 := by
  rw [qac_eq, if_neg (not_lt.2 h)]
  exact Int.natCast_nonneg _

/-- The magnitude of a zero is 0, so its level has no sign. -/
theorem qac_nonpos {x : F64} (h : f64Val x ≤ 0) (q : Nat) : (qac x q).1 ≤ 0 := by
  rcases h.lt_or_eq with hneg | hzero
  · rw [qac_eq, if_pos hneg]
    exact Int.neg_nonpos_of_nonneg (Int.natCast_nonneg _)
  · have habs := natAbs_qac x q
    rw [f64FloorAbsDiv, ← natAbs_f64Val, hzero, Int.natAbs_zero, Nat.zero_div] at habs
    omega

/-- Settles O48: the magnitude is the floor of the exact quotient, cut at 127. -/
theorem acQuantizerTruncates : Obligations.AcQuantizerTruncates := by
  intro c q _ hq _ l unit
  have hle (n : Nat) : n ≤ f64FloorAbsDiv c (2 * q) ↔ n * unit ≤ f64Mag c := le_f64FloorAbsDiv_iff c (by omega) n
  have hsat := qac_sat_iff c q
  have habs : l.natAbs = min 127 (f64FloorAbsDiv c (2 * q)) := natAbs_qac c q
  refine ⟨by omega, hsat.trans (hle 128), fun h => ?clipped, fun h => ?exact, fun h => qac_nonpos h.le q,
    fun h => qac_nonneg h q⟩
  case clipped =>
    have := hsat.1 h
    omega
  case exact =>
    have hlt : ¬ 128 ≤ f64FloorAbsDiv c (2 * q) := by simp [← hsat, h]
    exact ⟨(hle _).1 (by omega), lt_of_not_ge fun hge => absurd ((hle _).2 hge) (by omega)⟩

theorem dacMagnitude_eq (l : Int) (q : Nat) :
    dacMagnitude l q = q * (2 * l.natAbs + 1) - (if q % 2 = 0 then 1 else 0) := by
  unfold dacMagnitude
  split
  · rfl
  · exact (sub_zero _).symm

theorem dacMagnitude_pos (l : Int) {q : Nat} (hq : 1 ≤ q) : 0 < dacMagnitude l q := by
  have hprod : (q : Int) * 1 ≤ q * (2 * l.natAbs + 1) := mul_le_mul_of_nonneg_left (by omega) (by omega)
  rw [dacMagnitude_eq]
  split <;> omega

/-- A reconstruction level that is not 0 has the sign of its level (R199). -/
theorem dac_sign (l : Int) {q : Nat} (hq : 1 ≤ q) : (0 < dac l q → 0 < l) ∧ (dac l q < 0 → l < 0) := by
  have hmag := dacMagnitude_pos l hq
  unfold dac clip
  rw [literals_recMin, literals_recMax]
  split_ifs <;> omega

/-- Settles O51: with `m` the level's magnitude the coefficient's lies in `[2qm, 2q(m+1))`, and `q(2m+1)` in its middle. -/
theorem acRoundTrip : Obligations.AcRoundTrip := by
  intro x q _ hq _ l y u err
  have hle (n : Nat) : n ≤ f64FloorAbsDiv x (2 * q) ↔ n * (2 * q) * u ≤ f64Mag x := by
    rw [le_f64FloorAbsDiv_iff x (by omega) n, ← mul_assoc, ← Int.ofNat_le]
    push_cast
    rfl
  have habs : l.natAbs = min 127 (f64FloorAbsDiv x (2 * q)) := natAbs_qac x q
  refine ⟨fun h => ?zero, fun _ hhi hy => ?error, fun h => ?pos, fun h => ?neg⟩
  case zero =>
    have hfloor : ¬ 1 ≤ f64FloorAbsDiv x (2 * q) := by
      rw [hle]
      push_cast
      linarith
    have hl : l = 0 := by omega
    exact if_pos hl
  case error =>
    have hfloor : ¬ 128 ≤ f64FloorAbsDiv x (2 * q) := by
      rw [hle]
      push_cast
      linarith
    have hlo := (hle l.natAbs).1 (by omega)
    have hhi := mt (hle (l.natAbs + 1)).2 (by omega)
    have herr : err = f64Mag x - dacMagnitude l q * u := by rw [← hy]
    rw [Nat.cast_add, Nat.cast_one] at hhi
    rw [herr, dacMagnitude_eq]
    refine ⟨fun hodd => ?_, fun heven => ?_⟩
    · rw [if_neg (by omega)]
      constructor <;> linarith
    · rw [if_pos heven]
      constructor <;> linarith
  case pos => exact lt_of_not_ge fun hx => absurd ((dac_sign l hq).1 h) (not_lt.2 (qac_nonpos hx q))
  case neg => exact lt_of_not_ge fun hx => absurd ((dac_sign l hq).2 h) (not_lt.2 (qac_nonneg hx q))

/-! ### The checks of the two commands (R191, R192, R197) -/

theorem checkQuant_eq_none (s : State) : checkQuant s = none ↔ s.quant ≠ 0 := by
  refine ⟨fun h hq => ?_, checkQuant_of_ne_zero s⟩
  rw [checkQuant_of_zero s hq] at h
  cases h

/-- When the checks of `QNT` pass: the step set, inputs written, tagged `ZZ` and finite. -/
theorem checkQnt_eq_none (b : BankId) (m : PlaneMask) (s : State) :
    checkQnt b m s = none ↔ s.quant ≠ 0 ∧
      (∀ p : PlaneId, m.getLsbD p.val = true → ∀ k, (s.fbAt b p k).isSome = true) ∧
      (∀ p : PlaneId, m.getLsbD p.val = true → s.tagAt b p = .zz) ∧
      (∀ p : PlaneId, m.getLsbD p.val = true → ∀ k : ElemId, f64Finite (planeVals (s.bank b).fb[p])[k] = true) := by
  simp only [checkQnt, Option.or_eq_none_iff, checkQuant_eq_none, checkWritten_eq_none, checkOrder_eq_none,
    checkFinite_eq_none, mem_planesOf, State.fbAt, State.tagAt]

theorem checkDcLevels_eq_none (b : BankId) (ps : List PlaneId) (dc : Bool) (qb : Vector (Plane 16) 6) :
    checkDcLevels b ps dc qb = none ↔ ∀ p ∈ ps, DcLegal dc (planeLevels qb[p]) := by
  cases dc
  · simp [checkDcLevels, DcLegal]
  · simp only [checkDcLevels, DcLegal, if_true, Option.map_eq_none_iff, List.find?_eq_none, Bool.not_eq_true',
      Bool.not_eq_false, true_imp_iff]
    exact forall₂_congr fun p _ => dcLevelOk_iff _

/-- When the checks of `DQNT` pass: the step set, inputs written, the DC levels legal. -/
theorem checkDqnt_eq_none (b : BankId) (m : PlaneMask) (dc : Bool) (s : State) :
    checkDqnt b m dc s = none ↔ s.quant ≠ 0 ∧
      (∀ p : PlaneId, m.getLsbD p.val = true → ∀ k, (s.qbAt b p k).isSome = true) ∧
      (∀ p : PlaneId, m.getLsbD p.val = true → DcLegal dc (planeLevels (s.bank b).qb[p])) := by
  simp only [checkDqnt, Option.or_eq_none_iff, checkQuant_eq_none, checkWritten_eq_none, checkDcLevels_eq_none,
    mem_planesOf, State.qbAt]

/-! ### What the two commands store (R192, R195, R197) -/

@[simp] theorem qbAt_countCommand (s : State) (b : BankId) (p : PlaneId) (k : ElemId) :
    (countCommand s).qbAt b p k = s.qbAt b p k := rfl

@[simp] theorem cbpAt_countCommand (s : State) (b : BankId) : (countCommand s).cbpAt b = s.cbpAt b := rfl

section
variable {s : State} {b : BankId} {m : PlaneMask} {dc : Bool}

/-- An element of `QB` after `QNT`: the 16 bits hold every level the quantizers give. -/
theorem qbAt_quantize {p : PlaneId} (hp : m.getLsbD p.val = true) (k : ElemId) :
    ∃ l : Level, (quantize b m dc s).qbAt b p k = some l ∧ l.toInt = ((s.bank b).levelsOf dc s.quant.toNat p)[k] := by
  have hrange := levelOf_range dc s.quant.toNat k (planeVals (s.bank b).fb[p])[k]
  refine ⟨BitVec.ofInt 16 ((s.bank b).levelsOf dc s.quant.toNat p)[k], ?_, ?_⟩
  · rw [State.qbAt, quantize_bank, overPlanes_get, if_pos hp, fullPlane_get]
  · rw [levelsOf_get, toInt_ofInt_16 _ (by omega) (by omega)]

theorem qbAt_quantize_other {p : PlaneId} (hp : m.getLsbD p.val = false) (k : ElemId) :
    (quantize b m dc s).qbAt b p k = s.qbAt b p k := by
  rw [State.qbAt, quantize_bank, overPlanes_get, hp]
  rfl

theorem cbpAt_quantize {p : PlaneId} (hp : m.getLsbD p.val = true) :
    ((quantize b m dc s).cbpAt b).getLsbD p.val = true ↔ HasCoded dc ((s.bank b).levelsOf dc s.quant.toNat p) := by
  rw [State.cbpAt, quantize_bank, updateCbp_getLsbD, if_pos hp, codedFlag_iff]

theorem cbpAt_quantize_other {p : PlaneId} (hp : m.getLsbD p.val = false) :
    ((quantize b m dc s).cbpAt b).getLsbD p.val = (s.cbpAt b).getLsbD p.val := by
  rw [State.cbpAt, quantize_bank, updateCbp_getLsbD, hp]
  rfl

theorem sat_quantize : (quantize b m dc s).sat = true ↔ s.sat = true ∨ ∃ (p : PlaneId) (k : ElemId),
    m.getLsbD p.val = true ∧ (levelOf dc s.quant.toNat k (planeVals (s.bank b).fb[p])[k]).2 = true := by
  simp only [quantize, Bool.or_eq_true, List.any_eq_true, mem_planesOf, saturates_iff, exists_and_left]

end

/-- Settles O46: the checks pass, and the levels, flags and report are those of the coefficients. -/
theorem planesAreQuantized : Obligations.PlanesAreQuantized := by
  intro s b m dc x h hq hx q
  have hval (p : PlaneId) (k : ElemId) (hp : m.getLsbD p.val = true) : (planeVals (s.bank b).fb[p])[k] = x p k :=
    congrFun (planeVals_of_written fun k => (hx p k hp).1) k
  have hlevel (p : PlaneId) (k : ElemId) (hp : m.getLsbD p.val = true) :
      ((s.bank b).levelsOf dc q p)[k] = (levelOf dc q k (x p k)).1 := by rw [levelsOf_get, hval p k hp]
  have hcheck : checkQnt b m s = none := by
    refine (checkQnt_eq_none b m s).2 ⟨hq, fun p hp k => ?written, fun p hp => ?order, fun p hp k => ?finite⟩
    case written => exact Option.isSome_of_eq_some (hx p k hp).1
    case order => exact (hx p 0 hp).2.2
    case finite => rw [hval p k hp]; exact (hx p k hp).2.1
  refine ⟨countCommand (quantize b m dc s), exec_done (.qnt b m dc) nofun s h hcheck, ?_⟩
  simp only [qbAt_countCommand, cbpAt_countCommand, countCommand_sat, bank_countCommand]
  refine ⟨fun p k hp => ?levels, fun p k hp => qbAt_quantize_other hp k, fun p hp => ?coded,
    fun p hp => cbpAt_quantize_other hp, sat_quantize.trans ?saturated, ?bank,
    fun b' hb => bank_setBank_other s b b' _ hb, rfl⟩
  case levels =>
    rw [← hlevel p k hp]
    exact qbAt_quantize hp k
  case coded =>
    refine (cbpAt_quantize hp).trans (exists_congr fun k => ?_)
    rw [hlevel p k hp]
  case saturated =>
    refine or_congr_right (exists_congr fun p => exists_congr fun k => and_congr_right fun hp => ?_)
    rw [hval p k hp]
  case bank => rw [quantize_bank]

/-- Settles O49: the checks pass, and each level stored is the exact reconstruction. -/
theorem planesAreDequantized : Obligations.PlanesAreDequantized := by
  intro s b m dc l h hq hl hdc
  have hlevel (p : PlaneId) (k : ElemId) (hp : m.getLsbD p.val = true) :
      (planeLevels (s.bank b).qb[p])[k] = (l p k).toInt := by
    rw [planeLevels_get]
    exact congrArg (fun v : Option Level => levelInt (v.getD 0)) (hl p k hp)
  have hcheck : checkDqnt b m dc s = none := by
    refine (checkDqnt_eq_none b m dc s).2 ⟨hq, fun p hp k => Option.isSome_of_eq_some (hl p k hp), fun p hp h1 => ?_⟩
    have h0 : (planeLevels (s.bank b).qb[p])[0] = (l p 0).toInt := hlevel p 0 hp
    rw [h0]
    exact hdc h1 p hp
  refine ⟨_, exec_done (.dqnt b m dc) nofun s h hcheck, fun p k hp => ⟨?reconstruction, ?tag⟩, countCommand_storeFb⟩
  case reconstruction =>
    refine (fbAt_storeFb p k).trans ?_
    rw [if_pos hp, fullPlane_get, dequantPlane_get, hlevel p k hp]
  case tag => exact (tagAt_storeFb p).trans (if_pos hp)

/-! ### What is quantized can be coded (45_runlevel.md R212, R216, R220) -/

/-- The levels of a quantized plane, with its own coded flag, pass the checks of the coder under any tables: the DC level is
legal, and every level scanned fits the escape path. -/
theorem planeCodes_levelsOf (t : Config.Vlc) {coded : Bool} {k : Bank} {dc : Bool} {q : Nat} {p : PlaneId}
    (hcoded : coded = true ↔ HasCoded dc (k.levelsOf dc q p)) : PlaneCodes t coded dc (k.levelsOf dc q p) := by
  refine ⟨fun hdc => ?_, hcoded, fun e he hun => ?_⟩
  · have hrange := qdc_range (planeVals k.fb[p])[(0 : ElemId)]
    have h0 := levelsOf_get k dc q p 0
    rw [levelOf, if_pos ⟨hdc, rfl⟩] at h0
    rw [← h0] at hrange
    exact hrange
  · obtain ⟨hmem, hlevel⟩ := mem_eventsFrom _ _ _ e he
    obtain ⟨hscan, -⟩ := (mem_nonZeroIndexes _ _ _).1 hmem
    have hac : ¬ (dc = true ∧ e.index = 0) := by
      rintro ⟨rfl, h0⟩
      rw [h0] at hscan
      exact absurd hscan (by decide)
    rw [levelsOf_get, levelOf, if_neg hac] at hlevel
    obtain ⟨hlo, hhi⟩ := qac_range (planeVals k.fb[p])[e.index] q
    obtain ⟨-, hout⟩ := hun
    omega

/-- The checks of both coder commands pass on a bank whose levels pass them plane by plane (R216). -/
theorem checkRunLevel_of_codes {t : Config.Vlc} {s : State} {b : BankId} {cmask : PlaneMask} {dc : Bool}
    {l : PlaneId → Vector Int 64} (hl : s.holdsLevels b l)
    (hcodes : ∀ p : PlaneId, PlaneCodes t (cmask.getLsbD p.val) dc (l p)) : checkRunLevel t b cmask dc s = none := by
  rw [checkRunLevel_of_holds t s b cmask dc l hl, List.findSome?_eq_none_iff]
  exact fun p _ => (checkPlaneCoding_eq_none t b p _ dc (l p)).2 (hcodes p)

theorem maskAll_getLsbD : ∀ p : PlaneId, maskAll.getLsbD p.val = true := by decide

/-- Settles O56: a completed `QNT` leaves its levels and their coded flags, and they pass the coder's checks. -/
theorem quantizedMacroblockIsCodable : Obligations.QuantizedMacroblockIsCodable := by
  intro s t b dc hs hexec ht
  obtain ⟨-, rfl⟩ := exec_completed hexec nofun hs ht
  have hlevels : (countCommand (quantize b maskAll dc s)).holdsLevels b ((s.bank b).levelsOf dc s.quant.toNat) := by
    intro p k
    obtain ⟨l, hl, hval⟩ := qbAt_quantize (s := s) (b := b) (dc := dc) (maskAll_getLsbD p) k
    exact ⟨l, hl, hval.symm⟩
  have hcheck := checkRunLevel_of_codes hlevels fun p =>
    planeCodes_levelsOf Config.vlc (cbpAt_quantize (s := s) (b := b) (dc := dc) (maskAll_getLsbD p))
  exact ⟨_, _, exec_done (.rlcost b _ dc) nofun _ ht hcheck, ht, exec_done (.rlemit b _ dc) nofun _ ht hcheck, ht⟩

end Sys2Proof.Machine
end

section
/-! PROOF. The run-level coder: the events of a plane, the faults of its checks, what `RLCOST` counts and `RLEMIT` appends,
and that the two agree (45_runlevel.md R211 to R219). -/

namespace Sys2Proof.Machine

/-! ### Events (R213) -/

theorem events_length (l : Vector Int 64) (dc : Bool) : (events l dc).length = (nonZeroIndexes l dc).length :=
  eventsFrom_length l _ _

theorem scanStart_le_nonZeroIndexes {l : Vector Int 64} {dc : Bool} (j : Nat) (h : j < (nonZeroIndexes l dc).length) :
    scanStart dc ≤ (nonZeroIndexes l dc)[j].val :=
  ((mem_nonZeroIndexes l dc _).1 (List.getElem_mem h)).1

theorem scanStart_le_scanned {l : Vector Int 64} {dc : Bool} (j : Nat) (h : j < (nonZeroIndexes l dc).length) :
    scanStart dc ≤ (if j = 0 then scanStart dc else (nonZeroIndexes l dc)[j - 1].val + 1) := by
  split
  · exact le_refl _
  · exact Nat.le_succ_of_le (scanStart_le_nonZeroIndexes (j - 1) (by omega))

/-- What is scanned up to the event before ends at or before the event, because the indexes rise. -/
theorem scanned_le_index {l : Vector Int 64} {dc : Bool} (j : Nat) (h : j < (nonZeroIndexes l dc).length) :
    (if j = 0 then scanStart dc else (nonZeroIndexes l dc)[j - 1].val + 1) ≤ (nonZeroIndexes l dc)[j].val := by
  split
  · exact scanStart_le_nonZeroIndexes j h
  · exact List.pairwise_iff_getElem.1 (nonZeroIndexes_sorted l dc) (j - 1) j (by omega) h (by omega)

/-- Event `j` of a plane. -/
theorem events_getElem {l : Vector Int 64} {dc : Bool} (j : Nat) (h : j < (nonZeroIndexes l dc).length) :
    (events l dc)[j]'(events_length l dc ▸ h) =
      ⟨(nonZeroIndexes l dc)[j].val - (if j = 0 then scanStart dc else (nonZeroIndexes l dc)[j - 1].val + 1),
        l[(nonZeroIndexes l dc)[j]], decide (j + 1 = (nonZeroIndexes l dc).length), (nonZeroIndexes l dc)[j]⟩ :=
  eventsFrom_getElem l (scanStart dc) (nonZeroIndexes l dc) j h

/-- A run fits the 6-bit escape field. -/
theorem run_le_of_mem_events {l : Vector Int 64} {dc : Bool} {e : RlEvent} (he : e ∈ events l dc) :
    e.run + scanStart dc ≤ 63 := by
  obtain ⟨j, hj, rfl⟩ := List.getElem_of_mem he
  have h : j < (nonZeroIndexes l dc).length := events_length l dc ▸ hj
  have hstart := scanStart_le_scanned j h
  have hbefore := scanned_le_index j h
  have hindex := (nonZeroIndexes l dc)[j].isLt
  rw [events_getElem j h]
  dsimp only
  omega

theorem nonZeroIndexes_eq (l : Vector Int 64) (dc : Bool) :
    ((List.finRange 64).filter fun k => decide (scanStart dc ≤ k.val) && decide (l[k] ≠ 0)) = nonZeroIndexes l dc :=
  List.filter_congr fun k _ => by rw [decide_not]; rfl

/-- Settles O52: event by event, from the scanned indexes in ascending order. -/
theorem eventsOfAPlane : Obligations.EventsOfAPlane := by
  intro l dc nz
  have hnz : nz = nonZeroIndexes l dc := nonZeroIndexes_eq l dc
  refine ⟨hnz ▸ events_length l dc, fun j hj => ?_, fun e he => run_le_of_mem_events he⟩
  have h : j < (nonZeroIndexes l dc).length := events_length l dc ▸ hj
  rw [events_getElem j h]
  simp only [hnz, decide_eq_true_eq, true_and]
  exact Nat.sub_add_cancel (scanned_le_index j h)

/-! ### The checks of one plane (R216) -/

section
variable {t : Config.Vlc} {b : BankId} {p : PlaneId} {coded dc : Bool} {l : Vector Int 64}

theorem checkPlaneCoding_of_dcIllegal (hdc : ¬ DcLegal dc l) :
    checkPlaneCoding t b p coded dc l = some (trapAt .dcLevel b p 0) := by
  obtain ⟨rfl, hlevel⟩ := Classical.not_imp.1 hdc
  have hbad : dcLevelOk l[0] = false := by rwa [← Bool.not_eq_true, dcLevelOk_iff]
  rw [checkPlaneCoding, if_pos rfl, hbad, require_false, Option.some_or]

/-- With a legal DC level the check of the coded flag decides, and after it that of the escapes. -/
theorem checkPlaneCoding_of_dcLegal (hdc : DcLegal dc l) :
    checkPlaneCoding t b p coded dc l =
      (checkCoded b p coded (events l dc)).or (checkEscapes t b p (events l dc)) := by
  cases dc with
  | false => rfl
  | true => rw [checkPlaneCoding, if_pos rfl, (dcLevelOk_iff l[0]).2 (hdc rfl), require_true, Option.none_or]

theorem checkPlaneCoding_of_empty (hdc : DcLegal dc l) (hempty : ¬ HasCoded dc l) :
    checkPlaneCoding t b p true dc l = some (trapAt .empty b p 0) := by
  have hev : (events l dc).isEmpty = true := (events_isEmpty l dc).2 hempty
  rw [checkPlaneCoding_of_dcLegal hdc, checkCoded, if_pos rfl, hev]
  rfl

/-- The first scanned index is the lowest one whose level is not zero. -/
theorem nonZeroIndexes_head {k : ElemId} (hscan : scanStart dc ≤ k.val) (hk : l[k] ≠ 0)
    (hlow : ∀ k' : ElemId, k' < k → scanStart dc ≤ k'.val → l[k'] = 0) : (nonZeroIndexes l dc).head? = some k := by
  rw [nonZeroIndexes, List.head?_filter]
  apply find_finRange_eq_some
  · simp only [Bool.and_eq_true, decide_eq_true_eq, bne_iff_ne]
    exact ⟨hscan, hk⟩
  · intro k' hk'
    simp only [Bool.and_eq_false_imp, decide_eq_true_eq, bne_eq_false_iff_eq]
    exact hlow k' hk'

theorem checkPlaneCoding_of_unflagged {k : ElemId} (hdc : DcLegal dc l) (hscan : scanStart dc ≤ k.val) (hk : l[k] ≠ 0)
    (hlow : ∀ k' : ElemId, k' < k → scanStart dc ≤ k'.val → l[k'] = 0) :
    checkPlaneCoding t b p false dc l = some (trapAt .cbp b p k) := by
  obtain ⟨e, he, rfl⟩ : ∃ e, (events l dc).head? = some e ∧ e.index = k :=
    Option.map_eq_some_iff.1 ((events_head_index l dc).trans (nonZeroIndexes_head hscan hk hlow))
  rw [checkPlaneCoding_of_dcLegal hdc, checkCoded, he]
  rfl

theorem checkPlaneCoding_of_uncodable {before after : List RlEvent} {e : RlEvent} (hdc : DcLegal dc l)
    (hev : events l dc = before ++ e :: after) (hbefore : ∀ e' ∈ before, ¬ Uncodable t e') (he : Uncodable t e) :
    checkPlaneCoding t b p true dc l = some (trapAt .level b p e.index) := by
  have hcoded : HasCoded dc l := by
    by_contra hnot
    simpa [hev] using (events_isEmpty l dc).2 hnot
  rw [checkPlaneCoding_of_dcLegal hdc, (checkCoded_eq_none b p true dc l).2 (iff_of_true rfl hcoded), Option.none_or, hev,
    checkEscapes_eq_some t b p before after e hbefore he]

end

/-! ### The two commands (R216 to R218) -/

section
variable {s : State} {b : BankId} {cmask : PlaneMask} {dc : Bool} {l : PlaneId → Vector Int 64}

/-- The lowest plane that fails decides the fault. -/
theorem checkRunLevel_of_lowest {t : Config.Vlc} {p : PlaneId} {tr : Trap} (hl : s.holdsLevels b l)
    (hbelow : ∀ p', p' < p → PlaneCodes t (cmask.getLsbD p'.val) dc (l p'))
    (hp : checkPlaneCoding t b p (cmask.getLsbD p.val) dc (l p) = some tr) : checkRunLevel t b cmask dc s = some tr := by
  rw [checkRunLevel_of_holds t s b cmask dc l hl]
  exact findSome_finRange_eq_some _ p tr hp fun p' hp' => (checkPlaneCoding_eq_none t b p' _ dc (l p')).2 (hbelow p' hp')

/-- Both commands make the same checks under the block's tables. -/
theorem exec_coder_fault {i : Instr} {tr : Trap} (hi : i ∈ [Instr.rlcost b cmask dc, .rlemit b cmask dc])
    (hs : s.err = false) (hc : checkRunLevel Config.vlc b cmask dc s = some tr) :
    exec i s = .next (takeFault tr (encode i) s) := by
  obtain rfl | rfl : i = .rlcost b cmask dc ∨ i = .rlemit b cmask dc := by simpa using hi
  · exact exec_fault (.rlcost b cmask dc) nofun s tr hs hc
  · exact exec_fault (.rlemit b cmask dc) nofun s tr hs hc

/-- The widths of the fields of a macroblock are the bits of its planes. -/
theorem totalWidth_mbFieldsOf (t : Config.Vlc) (hl : s.holdsLevels b l) :
    totalWidth (s.mbFieldsOf t b cmask dc) =
      ((List.finRange 6).map fun p : PlaneId => planeBits t (cmask.getLsbD p.val) dc (l p)).sum := by
  simp only [mbFieldsOf_of_holds t s b cmask dc l hl, totalWidth_flatMap, totalWidth_planeFields]

/-- The bits put for the fields of a macroblock are the bits of its planes, in order. -/
theorem putFields_mbFieldsOf (t : Config.Vlc) (bs : List Bool) (hl : s.holdsLevels b l) :
    putFields bs (s.mbFieldsOf t b cmask dc) =
      bs ++ (List.finRange 6).flatMap fun p : PlaneId => planeStream t (cmask.getLsbD p.val) dc (l p) := by
  simp only [putFields_eq, mbFieldsOf_of_holds t s b cmask dc l hl, List.flatMap_assoc, bits_planeFields]

end

/-- Settles O24: the lowest plane that fails decides, and in it the first check that fails. -/
theorem runLevelFaults : Obligations.RunLevelFaults := by
  intro s b cmask dc l p hs hl hbelow i hi
  have hfault {tr : Trap} (hp : checkPlaneCoding Config.vlc b p (cmask.getLsbD p.val) dc (l p) = some tr) :
      exec i s = .next (takeFault tr (encode i) s) := exec_coder_fault hi hs (checkRunLevel_of_lowest hl hbelow hp)
  refine ⟨fun hdc => ?dcLevel, fun hdc hc hempty => ?empty, fun k hdc hc hscan hk hlow => ?cbp,
    fun t before after e hbelow' hdc hc hev hbefore he => ?level⟩
  case dcLevel => exact hfault (checkPlaneCoding_of_dcIllegal hdc)
  case empty => exact hfault (hc ▸ checkPlaneCoding_of_empty hdc hempty)
  case cbp => exact hfault (hc ▸ checkPlaneCoding_of_unflagged hdc hscan hk hlow)
  case level =>
    have hcheck : checkRunLevel t b cmask dc s = some (trapAt .level b p e.index) :=
      checkRunLevel_of_lowest hl hbelow' (hc ▸ checkPlaneCoding_of_uncodable hdc hev hbefore he)
    refine ⟨hcheck, ?_⟩
    rintro rfl
    exact exec_coder_fault hi hs hcheck

/-- Settles O53: the checks pass, and the count is the sum of the widths. -/
theorem costIsCounted : Obligations.CostIsCounted := by
  intro s b cmask dc l hs hl hcodes
  rw [exec_done (.rlcost b cmask dc) nofun s hs (checkRunLevel_of_codes hl hcodes), ← totalWidth_mbFieldsOf Config.vlc hl]
  rfl

/-- Settles O54: the checks pass, and the fields put are the bits of the planes. -/
theorem bitsAreEmitted : Obligations.BitsAreEmitted := by
  intro s b cmask dc l hs hl hcodes n
  have hn : totalWidth (s.mbFieldsOf Config.vlc b cmask dc) = n := totalWidth_mbFieldsOf Config.vlc hl
  rw [exec_done (.rlemit b cmask dc) nofun s hs (checkRunLevel_of_codes hl hcodes),
    ← putFields_mbFieldsOf Config.vlc s.bs hl, ← hn]
  rfl

/-! ### The count fits `BITCNT` (R211, R217) -/

/-- An event takes at most 47 bits: an escape of 32 and its three fields, or a table code of 31 and its sign. -/
theorem eventBits_vlc_le (e : RlEvent) : eventBits Config.vlc e ≤ 47 := by
  unfold eventBits
  split
  next c hc =>
    obtain ⟨-, hlen, -⟩ := vlc_table_wf _ _ _ c hc
    omega
  next =>
    obtain ⟨-, hlen, -⟩ := vlc_escape_wf
    omega

theorem events_length_le (l : Vector Int 64) (dc : Bool) : (events l dc).length ≤ 64 := by
  rw [events_length]
  exact (List.length_filter_le _ _).trans_eq (List.length_finRange)

/-- A plane takes at most 8 bits for its DC level and 47 for each event. -/
theorem planeBits_vlc_le (coded dc : Bool) (l : Vector Int 64) : planeBits Config.vlc coded dc l ≤ 8 + 64 * 47 := by
  have hsum : ((events l dc).map (eventBits Config.vlc)).sum ≤ (events l dc).length * 47 := by
    simpa using List.sum_le_card_nsmul ((events l dc).map (eventBits Config.vlc)) 47 (by simp [eventBits_vlc_le])
  have hlen := events_length_le l dc
  unfold planeBits
  split <;> split <;> omega

/-- The count of a macroblock, of any levels, is a number of 32 bits. -/
theorem totalWidth_mbFieldsOf_vlc_lt (s : State) (b : BankId) (cmask : PlaneMask) (dc : Bool) :
    totalWidth (s.mbFieldsOf Config.vlc b cmask dc) < 2 ^ 32 := by
  have hsum := List.sum_le_card_nsmul (allPlanes.map fun p : PlaneId =>
    planeBits Config.vlc (cmask.getLsbD p.val) dc (planeLevels (s.bank b).qb[p])) (8 + 64 * 47)
    (by simp only [List.forall_mem_map]; exact fun p _ => planeBits_vlc_le _ _ _)
  simp only [State.mbFieldsOf, mbFields, totalWidth_flatMap, totalWidth_planeFields]
  refine hsum.trans_lt ?_
  simp [allPlanes]

/-- `BITCNT` holds the count itself, not cut. -/
theorem toNat_bitcnt_costMb (s : State) (b : BankId) (cmask : PlaneMask) (dc : Bool) :
    (costMb Config.vlc b cmask dc s).bitcnt.toNat = totalWidth (s.mbFieldsOf Config.vlc b cmask dc) := by
  rw [costMb, BitVec.toNat_ofNat, Nat.mod_eq_of_lt (totalWidth_mbFieldsOf_vlc_lt s b cmask dc)]

theorem length_flatMap_fieldBits (fs : List BitField) :
    (fs.flatMap fun f => fieldBits f.1 f.2).length = totalWidth fs := by
  simp [List.length_flatMap, totalWidth]

/-- Settles O55: the two commands share their checks and their fields. -/
theorem costEqualsEmission : Obligations.CostEqualsEmission := by
  intro s t u b cmask dc hs ht hu
  cases hcheck : checkRunLevel Config.vlc b cmask dc s with
  | some tr =>
    rw [exec_coder_fault (by simp) hs hcheck] at ht hu
    cases ht
    cases hu
    simp only [takeFault_bitcnt, takeFault_err, takeFault_errcode, takeFault_errinfo, true_and, Bool.true_eq_false,
      false_imp_iff]
  | none =>
    rw [exec_done (.rlcost b cmask dc) nofun s hs hcheck] at ht
    rw [exec_done (.rlemit b cmask dc) nofun s hs hcheck] at hu
    cases ht
    cases hu
    refine ⟨rfl, rfl, rfl, rfl, fun _ => ⟨_, putFields_eq s.bs (s.mbFieldsOf Config.vlc b cmask dc), ?_⟩⟩
    rw [length_flatMap_fieldBits]
    exact (toNat_bitcnt_costMb s b cmask dc).symm

end Sys2Proof.Machine
end

section
/-! PROOF. The faults of the block and the halted state: words that are no command, what a fault writes, and for each fault the
check that raises it and the place it names (60_exceptions.md R261 to R276). The checks
of a command stand in the order of R270, and each decides only where those before it pass. -/

namespace Sys2Proof.Machine

/-! ### Words that are no command (R263) -/

theorem decode_eq_none_iff (w : Word) : decode w = none ↔ legalWord w = false := by
  rw [← decodeAcceptsExactlyLegalWords w, Option.isSome_eq_false_iff, Option.isNone_iff_eq_none]

theorem presentWord_of_illegal {w : Word} (h : decode w = none) (s : State) :
    presentWord w s = .next (runIllegal w s) := by
  simp only [presentWord, h]

theorem runIllegal_halted (w : Word) {s : State} (h : s.err = true) : runIllegal w s = s := if_pos h

theorem runIllegal_fault (w : Word) {s : State} (h : s.err = false) : runIllegal w s = s.faulted 1 w :=
  if_neg (Bool.eq_false_iff.1 h)

/-- Settles O6: a word that is not legal does not decode, and the block takes the fault of an illegal word. -/
theorem illegalWordFaults : Obligations.IllegalWordFaults := by
  intro s w rest hpending hs hlegal
  calc step s = presentWord w (s.popCommand rest) := stepWith_command hpending defaultBusMap
    _ = .next (runIllegal w (s.popCommand rest)) := presentWord_of_illegal ((decode_eq_none_iff w).2 hlegal) _
    _ = .next ((s.popCommand rest).faulted 1 w) := by rw [runIllegal_fault w (s := s.popCommand rest) hs]

/-! ### The halted block (R276) -/

/-- Only the word of `SRST` does anything while halted. -/
theorem presentWord_halted {w : Word} (hw : w ≠ 0x3F000000) {s : State} (h : s.err = true) :
    presentWord w s = .next s := by
  cases hdecode : decode w with
  | none => rw [presentWord_of_illegal hdecode, runIllegal_halted w h]
  | some i =>
    have hi : i ≠ .srst := by
      rintro rfl
      exact hw (decode_eq_some_iff.1 hdecode)
    rw [presentWord_of_decode hdecode, exec_halted i hi s h]

/-- Settles O7: command by command by the frame of every command, and word by word by the decoder. -/
theorem haltedBlockDiscards : Obligations.HaltedBlockDiscards := by
  refine ⟨fun i s h hi => exec_halted i hi s h, fun s w rest hpending h hw => ?_⟩
  calc step s = presentWord w (s.popCommand rest) := stepWith_command hpending defaultBusMap
    _ = .next (s.popCommand rest) := presentWord_halted hw h

/-! ### What a fault writes (R275) -/

/-- A command that leaves the block halted has failed its check: no effect sets `ERR`, and `SRST` clears it. -/
theorem exec_faulted {i : Instr} {s t : State} (h : exec i s = .next t) (hs : s.err = false) (ht : t.err = true) :
    ∃ tr, checkOf i s = some tr ∧ t = takeFault tr (encode i) s := by
  by_cases hi : i = .srst
  · subst hi
    obtain rfl : softReset s = t := by simpa [exec_srst] using h
    exact absurd ht Bool.false_ne_true
  · obtain ⟨he, -⟩ | ⟨tr, -, hc, rfl⟩ | ⟨-, -, rfl⟩ := exec_cases hi h
    · simp [hs] at he
    · exact ⟨tr, hc, rfl⟩
    · obtain ⟨herr, -⟩ := effectOf_frame i hi s
      simp [herr, hs] at ht

/-- Settles O9: a command that faults takes the fault its check raised, and that is four writes. -/
theorem faultEntryIsPrecise : Obligations.FaultEntryIsPrecise := by
  intro i s t hs h ht
  obtain ⟨tr, -, rfl⟩ := exec_faulted h hs ht
  exact ⟨rfl, faultNumber_range tr.code⟩

/-! ### The faults that name no place (R264 to R267) -/

theorem checkConfig_of_small {s : State} (h : s.wreq.toNat < 16 ∨ s.hreq.toNat < 16) :
    checkConfig s = some (plainTrap .config) := by
  have hsmall : (decide (16 ≤ (effectiveDim s.wreq).toNat) && decide (16 ≤ (effectiveDim s.hreq).toNat)) = false := by
    simp only [le_effectiveDim_iff, Bool.and_eq_false_iff, decide_eq_false_iff_not, not_le]
    exact h
  rw [checkConfig, hsmall, require_false]

/-- Settles O16: a request below 16 rounds down to 0, which the check of `CREATE` refuses. -/
theorem configFault : Obligations.ConfigFault := fun s hs hsmall =>
  exec_fault .create nofun s _ hs (checkConfig_of_small hsmall)

/-- The check of `RECON` begins with the position, which is all that `EXTRACT` and `COPYMB` check. -/
theorem checkRecon_of_position {b : BankId} {s : State} {t : Trap} (h : checkPosition s = some t) :
    checkRecon b s = some t := Option.or_eq_some_iff.2 (.inl h)

/-- A position that fails its check faults each of the five commands that act on a macroblock of the frame. -/
theorem exec_position_fault {s : State} {t : Trap} {b : BankId} {mode : ReconMode} (hs : s.err = false)
    (h : checkPosition s = some t) {i : Instr}
    (hi : i ∈ [Instr.extractCur b, .extractRef b, .extractDiff b, .recon b mode, .copymb]) :
    exec i s = .next (takeFault t (encode i) s) := by
  simp only [List.mem_cons, List.not_mem_nil, or_false] at hi
  obtain rfl | rfl | rfl | rfl | rfl := hi
  · exact exec_fault (.extractCur b) nofun s t hs h
  · exact exec_fault (.extractRef b) nofun s t hs h
  · exact exec_fault (.extractDiff b) nofun s t hs h
  · exact exec_fault (.recon b mode) nofun s t hs (checkRecon_of_position h)
  · exact exec_fault .copymb nofun s t hs h

/-- Settles O17: `CSC` and `FRAMEEND` check the stream alone, the others check it first. -/
theorem noStreamFault : Obligations.NoStreamFault := by
  intro s hs hstream b mode i hi
  by_cases hframe : i = .csc ∨ i = .frameend
  · obtain rfl | rfl := hframe
    · exact exec_fault .csc nofun s _ hs (checkStream_of_no_stream s hstream)
    · exact exec_fault .frameend nofun s _ hs (checkStream_of_no_stream s hstream)
  · refine exec_position_fault (b := b) (mode := mode) hs (checkPosition_of_no_stream s hstream) ?_
    simp only [List.mem_cons, List.not_mem_nil, or_false] at hi ⊢
    tauto

/-- Settles O19: with a stream the position decides. -/
theorem positionFault : Obligations.PositionFault := fun s hs hstream hoff _ _ _ hi =>
  exec_position_fault hs (checkPosition_off_grid s hstream hoff) hi

/-- Settles O18: `SETQ` checks its operand, and the check of `QUANT` comes first in `QNT` and `DQNT`. -/
theorem quantFault : Obligations.QuantFault := by
  intro s b m dc hs
  refine ⟨exec_fault (.setq 0) nofun s _ hs rfl, fun hq => ?_⟩
  have hzero : checkQuant s = some (plainTrap .quant) := checkQuant_of_zero s hq
  have hqnt : checkQnt b m s = some (plainTrap .quant) := Option.or_eq_some_iff.2 (.inl hzero)
  have hdqnt : checkDqnt b m dc s = some (plainTrap .quant) := Option.or_eq_some_iff.2 (.inl hzero)
  exact ⟨exec_fault (.qnt b m dc) nofun s _ hs hqnt, exec_fault (.dqnt b m dc) nofun s _ hs hdqnt⟩

/-! ### Unwritten elements (R268)

Every command that reads planes checks first that they are written, after `QUANT` or the position where it checks one. -/

/-- Settles O20: the scan for unwritten elements stops at the lowest, and the checks before it pass. -/
theorem unwrittenFault : Obligations.UnwrittenFault := by
  intro s b m dc mode p k hs
  refine ⟨fun hbad => ?fdct, fun hbad => ?fb, fun hbad hq => ?dqnt, fun hbad => ?coder, fun hbad hgrid => ?recon⟩
  case fdct =>
    have hcheck : checkFdct b m s = some (trapAt .unwritten b p k) := by
      rw [checkFdct, checkWritten_eq_some b m (s.bank b).sb p k hbad, Option.some_or]
    exact exec_fault (.fdct b m) nofun s _ hs hcheck
  case fb =>
    have hfb : checkWritten b (planesOf m) (s.bank b).fb = some (trapAt .unwritten b p k) :=
      checkWritten_eq_some b m (s.bank b).fb p k hbad
    have hreorder (want : Order) : checkReorder b m want s = some (trapAt .unwritten b p k) := by
      rw [checkReorder, hfb, Option.some_or]
    have hidct : checkIdct b m s = some (trapAt .unwritten b p k) := by rw [checkIdct, hfb, Option.some_or]
    refine ⟨exec_fault (.zz b m) nofun s _ hs (hreorder .nat), exec_fault (.izz b m) nofun s _ hs (hreorder .zz),
      exec_fault (.idct b m) nofun s _ hs hidct, fun hq => ?_⟩
    have hqnt : checkQnt b m s = some (trapAt .unwritten b p k) := by
      rw [checkQnt, checkQuant_of_ne_zero s hq, Option.none_or, hfb, Option.some_or]
    exact exec_fault (.qnt b m dc) nofun s _ hs hqnt
  case dqnt =>
    have hcheck : checkDqnt b m dc s = some (trapAt .unwritten b p k) := by
      rw [checkDqnt, checkQuant_of_ne_zero s hq, Option.none_or, checkWritten_eq_some b m (s.bank b).qb p k hbad,
        Option.some_or]
    exact exec_fault (.dqnt b m dc) nofun s _ hs hcheck
  case coder =>
    have hcheck : checkRunLevel Config.vlc b m dc s = some (trapAt .unwritten b p k) := by
      rw [checkRunLevel, checkWritten_all_eq_some b (s.bank b).qb p k hbad, Option.some_or]
    exact ⟨exec_coder_fault (by simp) hs hcheck, exec_coder_fault (by simp) hs hcheck⟩
  case recon =>
    have hcheck : checkRecon b s = some (trapAt .unwritten b p k) := by
      rw [checkRecon, (checkPosition_eq_none s).2 hgrid, Option.none_or,
        checkWritten_all_eq_some b (s.bank b).sb p k hbad, Option.some_or]
    exact exec_fault (.recon b mode) nofun s _ hs hcheck

/-! ### Order tags (R269) -/

/-- Settles O21: with all planes written the lowest plane whose tag is not the one the command wants decides. -/
theorem orderFault : Obligations.OrderFault := by
  intro s b m dc p hs hp hwritten
  have hw : checkWritten b (planesOf m) (s.bank b).fb = none :=
    (checkWritten_eq_none b _ _).2 fun p' hp' k => hwritten p' k ((mem_planesOf m p').1 hp')
  refine ⟨fun htag hlow => ?wantNat, fun htag hlow => ?wantZz⟩
  case wantNat =>
    have horder : checkOrder b (planesOf m) (s.bank b).fbord .nat = some (trapAt .order b p 0) :=
      checkOrder_eq_some b m (s.bank b).fbord .nat p hp (ne_of_eq_of_ne htag nofun) hlow
    have hzz : checkReorder b m .nat s = some (trapAt .order b p 0) := by
      rw [checkReorder, hw, Option.none_or, horder]
    have hidct : checkIdct b m s = some (trapAt .order b p 0) := by
      rw [checkIdct, hw, Option.none_or, horder, Option.some_or]
    exact ⟨exec_fault (.zz b m) nofun s _ hs hzz, exec_fault (.idct b m) nofun s _ hs hidct⟩
  case wantZz =>
    have horder : checkOrder b (planesOf m) (s.bank b).fbord .zz = some (trapAt .order b p 0) :=
      checkOrder_eq_some b m (s.bank b).fbord .zz p hp (ne_of_eq_of_ne htag nofun) hlow
    have hizz : checkReorder b m .zz s = some (trapAt .order b p 0) := by
      rw [checkReorder, hw, Option.none_or, horder]
    refine ⟨exec_fault (.izz b m) nofun s _ hs hizz, fun hq => ?_⟩
    have hqnt : checkQnt b m s = some (trapAt .order b p 0) := by
      rw [checkQnt, checkQuant_of_ne_zero s hq, Option.none_or, hw, Option.none_or, horder, Option.some_or]
    exact exec_fault (.qnt b m dc) nofun s _ hs hqnt

/-! ### Values that are not finite (R271) -/

/-- What is lowest depends only on which elements of the selected planes are bad. -/
theorem LowestBad.congr {sel : PlaneId → Prop} {bad bad' : PlaneId → ElemId → Prop} {p : PlaneId} {k : ElemId}
    (hiff : ∀ p k, sel p → (bad p k ↔ bad' p k)) (h : LowestBad sel bad p k) : LowestBad sel bad' p k := by
  obtain ⟨hp, hk, hlow, hbelow⟩ := h
  exact ⟨hp, (hiff p k hp).1 hk, fun k' hk' hbad => hlow k' hk' ((hiff p k' hp).2 hbad),
    fun p' hp' hsel k' hbad => hbelow p' hp' hsel k' ((hiff p' k' hsel).2 hbad)⟩

section
variable {b : BankId} {m : PlaneMask} {p : PlaneId} {k : ElemId} {vals : PlaneId → Vector F64 64}
  {x : PlaneId → ElemId → F64}

theorem checkFinite_of_lowest (hvals : ∀ (p : PlaneId) (k : ElemId), m.getLsbD p.val = true → (vals p)[k] = x p k)
    (hbad : LowestBad (fun p => m.getLsbD p.val = true) (fun p k => f64Finite (x p k) = false) p k) :
    checkFinite b (planesOf m) vals = some (trapAt .nonFinite b p k) :=
  checkFinite_eq_some b m vals p k (hbad.congr fun p k hp => by rw [hvals p k hp])

theorem checkFinite_of_finite (hvals : ∀ (p : PlaneId) (k : ElemId), m.getLsbD p.val = true → (vals p)[k] = x p k)
    (hfin : ∀ p k, m.getLsbD p.val = true → f64Finite (x p k) = true) : checkFinite b (planesOf m) vals = none := by
  refine (checkFinite_eq_none b _ vals).2 fun p hp k => ?_
  have hsel := (mem_planesOf m p).1 hp
  rw [hvals p k hsel]
  exact hfin p k hsel

end

theorem checkWritten_of_values {n : Nat} {b : BankId} {m : PlaneMask} {buf : Vector (Plane n) 6}
    {x : PlaneId → ElemId → BitVec n}
    (hx : ∀ (p : PlaneId) (k : ElemId), m.getLsbD p.val = true → buf[p][k] = some (x p k)) :
    checkWritten b (planesOf m) buf = none :=
  (checkWritten_eq_none b _ buf).2 fun p hp k => Option.isSome_of_eq_some (hx p k ((mem_planesOf m p).1 hp))

theorem planeVals_of_fbAt {s : State} {b : BankId} {p : PlaneId} {k : ElemId} {x : F64} (hx : s.fbAt b p k = some x) :
    (planeVals (s.bank b).fb[p])[k] = x := by
  rw [planeVals_get]
  exact congrArg (Option.getD · 0) hx

section
variable {s : State} {b : BankId} {m : PlaneMask} {x : PlaneId → ElemId → F64} {p : PlaneId} {k : ElemId}

/-- `FDCT` over written planes: an input that is not finite, and with finite inputs a result that is not. -/
theorem checkFdct_nonFinite (hx : ∀ p k, m.getLsbD p.val = true → s.sbAt b p k = some (x p k)) :
    (LowestBad (fun p => m.getLsbD p.val = true) (fun p k => f64Finite (x p k) = false) p k →
      checkFdct b m s = some (trapAt .nonFinite b p k)) ∧
    ((∀ p k, m.getLsbD p.val = true → f64Finite (x p k) = true) →
      LowestBad (fun p => m.getLsbD p.val = true)
        (fun p k => f64Finite (fdctValue (x p) (rowOf k) (colOf k)) = false) p k →
      checkFdct b m s = some (trapAt .nonFinite b p k)) := by
  have hw : checkWritten b (planesOf m) (s.bank b).sb = none := checkWritten_of_values hx
  have hinput (p : PlaneId) (k : ElemId) (hp : m.getLsbD p.val = true) :
      (planeVals (s.bank b).sb[p])[k] = x p k := planeVals_of_sbAt (hx p k hp)
  have hresult (p : PlaneId) (k : ElemId) (hp : m.getLsbD p.val = true) :
      ((s.bank b).fdctOf p)[k] = fdctValue (x p) (rowOf k) (colOf k) := fdctOf_get (fun k => hx p k hp) k
  refine ⟨fun hbad => ?_, fun hfin hbad => ?_⟩
  · rw [checkFdct, hw, Option.none_or, checkFinite_of_lowest hinput hbad, Option.some_or]
  · rw [checkFdct, hw, Option.none_or, checkFinite_of_finite hinput hfin, Option.none_or,
      checkFinite_of_lowest hresult hbad]

theorem checkOrder_of_tags {want : Order} (htag : ∀ p, m.getLsbD p.val = true → s.tagAt b p = want) :
    checkOrder b (planesOf m) (s.bank b).fbord want = none :=
  (checkOrder_eq_none b _ _ want).2 fun p hp => htag p ((mem_planesOf m p).1 hp)

/-- `IDCT` over written planes tagged `NAT`: an input that is not finite, and with finite inputs a result that is not. -/
theorem checkIdct_nonFinite (hx : ∀ p k, m.getLsbD p.val = true → s.fbAt b p k = some (x p k))
    (htag : ∀ p, m.getLsbD p.val = true → s.tagAt b p = .nat) :
    (LowestBad (fun p => m.getLsbD p.val = true) (fun p k => f64Finite (x p k) = false) p k →
      checkIdct b m s = some (trapAt .nonFinite b p k)) ∧
    ((∀ p k, m.getLsbD p.val = true → f64Finite (x p k) = true) →
      LowestBad (fun p => m.getLsbD p.val = true)
        (fun p k => f64Finite (idctValue (x p) (rowOf k) (colOf k)) = false) p k →
      checkIdct b m s = some (trapAt .nonFinite b p k)) := by
  have hw : checkWritten b (planesOf m) (s.bank b).fb = none := checkWritten_of_values hx
  have hinput (p : PlaneId) (k : ElemId) (hp : m.getLsbD p.val = true) :
      (planeVals (s.bank b).fb[p])[k] = x p k := planeVals_of_fbAt (hx p k hp)
  have hresult (p : PlaneId) (k : ElemId) (hp : m.getLsbD p.val = true) :
      ((s.bank b).idctOf p)[k] = idctValue (x p) (rowOf k) (colOf k) := idctOf_get (fun k => hx p k hp) k
  refine ⟨fun hbad => ?_, fun hfin hbad => ?_⟩
  · rw [checkIdct, hw, Option.none_or, checkOrder_of_tags htag, Option.none_or,
      checkFinite_of_lowest hinput hbad, Option.some_or]
  · rw [checkIdct, hw, Option.none_or, checkOrder_of_tags htag, Option.none_or,
      checkFinite_of_finite hinput hfin, Option.none_or, checkFinite_of_lowest hresult hbad]

/-- `QNT` with a step set, over written planes tagged `ZZ`: an input that is not finite. -/
theorem checkQnt_nonFinite (hx : ∀ p k, m.getLsbD p.val = true → s.fbAt b p k = some (x p k))
    (htag : ∀ p, m.getLsbD p.val = true → s.tagAt b p = .zz) (hq : s.quant ≠ 0)
    (hbad : LowestBad (fun p => m.getLsbD p.val = true) (fun p k => f64Finite (x p k) = false) p k) :
    checkQnt b m s = some (trapAt .nonFinite b p k) := by
  have hinput (p : PlaneId) (k : ElemId) (hp : m.getLsbD p.val = true) :
      (planeVals (s.bank b).fb[p])[k] = x p k := planeVals_of_fbAt (hx p k hp)
  rw [checkQnt, checkQuant_of_ne_zero s hq, Option.none_or, checkWritten_of_values hx, Option.none_or,
    checkOrder_of_tags htag, Option.none_or, checkFinite_of_lowest hinput hbad]

/-- `RECON` on the grid, over a written bank: a sample that is not finite. -/
theorem checkRecon_nonFinite (hx : ∀ p k, s.sbAt b p k = some (x p k)) (hgrid : s.onGrid)
    (hbad : LowestBad (fun _ => True) (fun p k => f64Finite (x p k) = false) p k) :
    checkRecon b s = some (trapAt .nonFinite b p k) := by
  have hw : checkWritten b allPlanes (s.bank b).sb = none :=
    (checkWritten_eq_none b _ _).2 fun p _ k => Option.isSome_of_eq_some (hx p k)
  have hfinite : checkFinite b allPlanes (fun p => planeVals (s.bank b).sb[p]) = some (trapAt .nonFinite b p k) :=
    checkFinite_all_eq_some b _ p k (hbad.congr fun p k _ => by rw [planeVals_of_sbAt (hx p k)])
  rw [checkRecon, (checkPosition_eq_none s).2 hgrid, Option.none_or, hw, Option.none_or, hfinite]

end

/-- Settles O22: command by command, the checks before the one of finite values pass. -/
theorem nonFiniteFault : Obligations.NonFiniteFault := by
  intro s b m dc mode x p k hs
  refine ⟨fun hx => ?fdct, fun hx => ⟨fun htag => ?idct, fun htag hq hbad => ?qnt⟩, fun hx hgrid hbad => ?recon⟩
  case fdct =>
    obtain ⟨hinput, hresult⟩ := checkFdct_nonFinite (p := p) (k := k) hx
    exact ⟨fun hbad => exec_fault (.fdct b m) nofun s _ hs (hinput hbad),
      fun hfin hbad => exec_fault (.fdct b m) nofun s _ hs (hresult hfin hbad)⟩
  case idct =>
    obtain ⟨hinput, hresult⟩ := checkIdct_nonFinite (p := p) (k := k) hx htag
    exact ⟨fun hbad => exec_fault (.idct b m) nofun s _ hs (hinput hbad),
      fun hfin hbad => exec_fault (.idct b m) nofun s _ hs (hresult hfin hbad)⟩
  case qnt => exact exec_fault (.qnt b m dc) nofun s _ hs (checkQnt_nonFinite hx htag hq hbad)
  case recon => exact exec_fault (.recon b mode) nofun s _ hs (checkRecon_nonFinite hx hgrid hbad)

/-! ### DC levels (R272) -/

theorem dcLegal_true_iff (l : Vector Int 64) : DcLegal true l ↔ (1 : Int) ≤ l[0] ∧ l[0] ≤ 255 ∧ l[0] ≠ 128 :=
  ⟨fun h => h rfl, fun h _ => h⟩

theorem checkDcLevels_eq_some (b : BankId) (m : PlaneMask) (qb : Vector (Plane 16) 6) (p : PlaneId)
    (hm : m.getLsbD p.val = true) (hp : ¬ DcLegal true (planeLevels qb[p]))
    (hlow : ∀ p' : PlaneId, p' < p → m.getLsbD p'.val = true → DcLegal true (planeLevels qb[p'])) :
    checkDcLevels b (planesOf m) true qb = some (trapAt .dcLevel b p 0) := by
  have hok (p' : PlaneId) : dcLevelOk (planeLevels qb[p'])[0] = true ↔ DcLegal true (planeLevels qb[p']) := by
    rw [dcLevelOk_iff, dcLegal_true_iff]
  have hfind : (planesOf m).find? (fun p => !dcLevelOk (planeLevels qb[p])[0]) = some p := by
    refine find_planes_eq_some (fun p => m.getLsbD p) _ p hm ?_ fun p' hp' hm' => ?_
    · rwa [Bool.not_eq_true', ← Bool.not_eq_true, hok]
    · rw [Bool.not_eq_false', hok]
      exact hlow p' hp' hm'
  rw [checkDcLevels, if_pos rfl, hfind, Option.map_some]

/-- Settles O23: with a step set and the levels written, the lowest plane with an illegal DC level decides. -/
theorem dequantizeDcLevelFault : Obligations.DequantizeDcLevelFault := by
  intro s b m l p hs hq hl hp hbad hlow
  have hlegal (p' : PlaneId) (hp' : m.getLsbD p'.val = true) : DcLegal true (planeLevels (s.bank b).qb[p']) ↔
      1 ≤ (l p' 0).toInt ∧ (l p' 0).toInt ≤ 255 ∧ (l p' 0).toInt ≠ 128 := by
    have hlevel : (planeLevels (s.bank b).qb[p'])[0] = (l p' 0).toInt :=
      (planeLevels_get _ 0).trans (congrArg (fun v : Option Level => levelInt (v.getD 0)) (hl p' 0 hp'))
    rw [dcLegal_true_iff, hlevel]
  have hdc : checkDcLevels b (planesOf m) true (s.bank b).qb = some (trapAt .dcLevel b p 0) :=
    checkDcLevels_eq_some b m (s.bank b).qb p hp (mt (hlegal p hp).1 hbad)
      fun p' hlt hp' => (hlegal p' hp').2 (hlow p' hlt hp')
  have hcheck : checkDqnt b m true s = some (trapAt .dcLevel b p 0) := by
    rw [checkDqnt, checkQuant_of_ne_zero s hq, Option.none_or, checkWritten_of_values hl, Option.none_or, hdc]
  exact exec_fault (.dqnt b m true) nofun s _ hs hcheck

end Sys2Proof.Machine
end

section
/-! PROOF. What hardware reset restores (70_reset_and_hazards.md R290, 10_state.md R44). -/

namespace Sys2Proof.Machine

/-! ### The reset values and the unspecified frame memories (R44) -/

@[simp] theorem regRead_forgetSrc (s : State) (k : Nat) : s.forgetSrc.regRead k = s.regRead k := rfl

@[simp] theorem regRead_forgetFrames (s : State) (k : Nat) : s.forgetFrames.regRead k = s.regRead k := rfl

/-- The reset values say nothing of the frame memories. -/
theorem holdsResetValues_forgetSrc {s : State} (h : s.holdsResetValues) : s.forgetSrc.holdsResetValues := by
  obtain ⟨hregs, hbanks, hsink, hirq⟩ := h
  exact ⟨fun k => (regRead_forgetSrc s k).trans (hregs k), hbanks, hsink, hirq⟩

theorem holdsResetValues_forgetFrames {s : State} (h : s.holdsResetValues) : s.forgetFrames.holdsResetValues := by
  obtain ⟨hregs, hbanks, hsink, hirq⟩ := h
  exact ⟨fun k => (regRead_forgetFrames s k).trans (hregs k), hbanks, hsink, hirq⟩

/-! ### Hardware reset (R290) -/

/-- What soft reset keeps of the reset state is the reset state's own. -/
theorem softReset_reset : softReset State.reset = State.reset := rfl

theorem holdsResetValues_reset : State.reset.holdsResetValues :=
  softReset_reset ▸ holdsResetValues_softReset State.reset

/-- Hardware reset is soft reset and three frame memories made unspecified. -/
theorem holdsResetValues_hardReset (s : State) : (hardReset s).holdsResetValues :=
  holdsResetValues_forgetFrames (holdsResetValues_forgetSrc (holdsResetValues_softReset s))

@[simp] theorem hardReset_pending (s : State) : (hardReset s).pending = s.pending := by
  rw [hardReset, forgetFrames_pending, forgetSrc_pending, softReset_pending]

theorem stepWith_rst {s : State} {rest : List HostStep} (h : s.pending = .rst :: rest) (m : BusMap) :
    stepWith m s = .next (hardReset (s.popAccess rest)) := by
  simp only [stepWith, h, hostAccess]

/-- Settles O31: `rst` is `hardReset` of the state without that host step, halted or not. -/
theorem hardwareResetRestores : Obligations.HardwareResetRestores := by
  refine ⟨holdsResetValues_reset, fun s rest hpending => ?_⟩
  have hstep : step s = .next (hardReset (s.popAccess rest)) := stepWith_rst hpending defaultBusMap
  have hqueue : (hardReset (s.popAccess rest)).pending = rest := by rw [hardReset_pending, popAccess_pending]
  exact ⟨_, hstep, holdsResetValues_hardReset _, hqueue⟩

end Sys2Proof.Machine
end
